-- ==== Sys2Proof/Word.lean ====
section
/-! DEFINITION. The data types every layer uses (`00_scope.md` R11, R12, R14; `30_encoding.md` R92).

An XLEN-bit word is held as the number it is, a Nat (log entry 1).  R11: the core has no signed quantity, its arithmetic is exact
and never modular, and "a value stored into an XLEN-bit word is always shown to fit"; R71: "a model takes the words as
numbers".  That every stored word is below 2^XLEN is part of the invariant `State.Inv`, not of the type. -/

namespace Sys2Proof

/-- An octet: 8 bits, bit 0 the least significant (R12, R14). -/
abbrev Octet := BitVec 8

/-- A string: a finite sequence of octets, no terminator, no character-set meaning (R14). -/
abbrev Str := List Octet

/-- The 4-bit OctetBuffer selector fields `obA` and `obB` of the command word (R92). -/
abbrev ObSel := BitVec 4

end Sys2Proof
end

