-- ==== Sys2Proof/Machine/StaticRom.lean ====
section
/-! DEFINITION. The static header table ROM `STATIC[1..61]` (`46_static_table_rom.md` R260; `10_state.md` R37, R38).
Entries 1 to 4 and the name of entry 61 are the source's; PRESUMED (log entry 7): entries 5 to 60 and the empty values of
entries 1 and 61 are marked by the spec as general knowledge (its `93_implementation_defined.md` G2), so the ROM
reaches the machine only through `Config.staticRom`. -/

namespace Sys2Proof

/-- A HeaderTablePair: an immutable (name, value) pair of strings, either may be empty (R37). -/
structure Pair where
  name : Str
  value : Str
deriving DecidableEq, Repr

namespace Machine

/-- The ASCII octets of a text (R260: "Names and values are strings of ASCII octets"). -/
def ascii (text : String) : Str :=
  text.toList.map fun c => BitVec.ofNat 8 c.toNat

/-- A pair given by two texts. -/
def asciiPair (name value : String) : Pair := ⟨ascii name, ascii value⟩

/-- `STATIC[1..14]` (R260). -/
def staticRom1 : List Pair := [
  asciiPair ":authority" "",
  asciiPair ":method" "GET",
  asciiPair ":method" "POST",
  asciiPair ":path" "/",
  asciiPair ":path" "/index.html",
  asciiPair ":scheme" "http",
  asciiPair ":scheme" "https",
  asciiPair ":status" "200",
  asciiPair ":status" "204",
  asciiPair ":status" "206",
  asciiPair ":status" "304",
  asciiPair ":status" "400",
  asciiPair ":status" "404",
  asciiPair ":status" "500"]

/-- `STATIC[15..31]` (R260). -/
def staticRom15 : List Pair := [
  asciiPair "accept-charset" "",
  asciiPair "accept-encoding" "gzip, deflate",
  asciiPair "accept-language" "",
  asciiPair "accept-ranges" "",
  asciiPair "accept" "",
  asciiPair "access-control-allow-origin" "",
  asciiPair "age" "",
  asciiPair "allow" "",
  asciiPair "authorization" "",
  asciiPair "cache-control" "",
  asciiPair "content-disposition" "",
  asciiPair "content-encoding" "",
  asciiPair "content-language" "",
  asciiPair "content-length" "",
  asciiPair "content-location" "",
  asciiPair "content-range" "",
  asciiPair "content-type" ""]

/-- `STATIC[32..47]` (R260). -/
def staticRom32 : List Pair := [
  asciiPair "cookie" "",
  asciiPair "date" "",
  asciiPair "etag" "",
  asciiPair "expect" "",
  asciiPair "expires" "",
  asciiPair "from" "",
  asciiPair "host" "",
  asciiPair "if-match" "",
  asciiPair "if-modified-since" "",
  asciiPair "if-none-match" "",
  asciiPair "if-range" "",
  asciiPair "if-unmodified-since" "",
  asciiPair "last-modified" "",
  asciiPair "link" "",
  asciiPair "location" "",
  asciiPair "max-forwards" ""]

/-- `STATIC[48..61]` (R260). -/
def staticRom48 : List Pair := [
  asciiPair "proxy-authenticate" "",
  asciiPair "proxy-authorization" "",
  asciiPair "range" "",
  asciiPair "referer" "",
  asciiPair "refresh" "",
  asciiPair "retry-after" "",
  asciiPair "server" "",
  asciiPair "set-cookie" "",
  asciiPair "strict-transport-security" "",
  asciiPair "transfer-encoding" "",
  asciiPair "user-agent" "",
  asciiPair "vary" "",
  asciiPair "via" "",
  asciiPair "www-authenticate" ""]

/-- The whole static table, 61 pairs; unified index `u` is list position `u - 1` (R38, R67). -/
def staticRom : List Pair :=
  staticRom1 ++ staticRom15 ++ staticRom32 ++ staticRom48

end Machine
end Sys2Proof
end

