-- ==== Sys2Proof/Config.lean ====
section
/-! DEFINITION. The configuration: the constants the source fixes (`00_scope.md` R8), the parameters it leaves open (R9), the two
ROMs (`10_state.md` R20, R34, R38, R46) and the free values.  The machine reads every parameter and both ROMs from the
configuration it was built with (`State.cfg`, log entry 2), so no proof can depend on a default without saying so. -/

namespace Sys2Proof

/-- What one implementation fixes: the nine parameters of R9 and the contents of the two ROMs.  None of it is state
(R46); a machine keeps the configuration it was built with. -/
structure Config where
  /-- XLEN: width in bits of operand words, result words, control registers and integers. -/
  xlen : Nat
  /-- NOB: number of OctetBuffers. -/
  nob : Nat
  /-- OB_FLOOR: the default floor of an OctetBuffer's capacity, in octets. -/
  obFloor : Nat
  /-- OB_PHYS: physical octets behind each OctetBuffer. -/
  obPhys : Nat
  /-- BB_INIT_CAP: the BitBuffer's default capacity, in bits. -/
  bbInitCap : Nat
  /-- BB_PHYS_BITS: physical bits behind the BitBuffer. -/
  bbPhysBits : Nat
  /-- HUFF_MAX_IN: the Huffman encoder's bounded maximum input length, in octets. -/
  huffMaxIn : Nat
  /-- HT_MAX_CAPACITY: the largest `table_capacity` HT.UPDCAP accepts. -/
  htMaxCapacity : Nat
  /-- TRIE_NODES: node slots of the SymbolTrie arena. -/
  trieNodes : Nat
  /-- `CODE[0..256]`, list position = symbol (R34, R64). -/
  codeRom : List HuffCode
  /-- `STATIC[1..61]`, list position = unified index - 1 (R38). -/
  staticRom : List Pair
deriving DecidableEq, Repr

namespace Config

/-- HT_STATIC_LEN: entries of the static table (R8). -/
abbrev htStaticLen : Nat := 61
/-- HT_DYN_BASE: unified index of the newest dynamic entry (R8). -/
abbrev htDynBase : Nat := 62
/-- HT_ENTRY_OVERHEAD: accounting surcharge per dynamic entry, in octets (R8). -/
abbrev htEntryOverhead : Nat := 32
/-- HT_DEFAULT_CAPACITY: "default capacity 4096" of the dynamic table (R8). -/
abbrev htDefaultCapacity : Nat := 4096
/-- HUFF_SYMS: entries of the static code table, 256 octet values and EOS (R8). -/
abbrev huffSyms : Nat := 257
/-- HUFF_EOS: symbol id of the end-of-string marker (R8). -/
abbrev huffEos : Nat := 256
/-- INT_MAXOCT: "maximum octet count (8)" of an encoded integer the decoder accepts (R8). -/
abbrev intMaxOct : Nat := 8
/-- INT_PREFIX_MAX: largest width of the first octet's value field (R8). -/
abbrev intWidthMax : Nat := 8
/-- INT_RADIX: base of the continuation octets (R8). -/
abbrev intRadix : Nat := 128

/-- The default parameters of R9, with the ROM contents the spec supplies (R220, R260). -/
def default : Config where
  xlen := 32
  nob := 4
  obFloor := 16
  obPhys := 4096
  bbInitCap := 64
  bbPhysBits := 32768
  huffMaxIn := 1024
  htMaxCapacity := 65536
  trieNodes := 513
  codeRom := Machine.codeRom
  staticRom := Machine.staticRom

/-- The constraints of R9 on the parameters, and the ROM sizes of R8, R34 and R38: 257 codes of 5 to 30 bits, each code
number below 2^length, and 61 pairs. -/
abbrev Valid (c : Config) : Prop :=
  (8 ≤ c.xlen ∧ c.xlen ≤ 64) ∧
  (2 ≤ c.nob ∧ c.nob ≤ 16) ∧
  (1 ≤ c.obFloor ∧ c.obFloor ≤ c.obPhys ∧ c.obPhys < 2 ^ c.xlen) ∧
  (8 ∣ c.bbInitCap ∧ 8 ≤ c.bbInitCap ∧ c.bbInitCap ≤ c.bbPhysBits) ∧
  (8 ∣ c.bbPhysBits ∧ c.bbPhysBits < 2 ^ c.xlen) ∧
  c.huffMaxIn < 2 ^ c.xlen ∧
  (htDefaultCapacity ≤ c.htMaxCapacity ∧ c.htMaxCapacity < 2 ^ c.xlen) ∧
  1 ≤ c.trieNodes ∧
  (c.codeRom.length = huffSyms ∧
    ∀ e ∈ c.codeRom, 5 ≤ e.length ∧ e.length ≤ 30 ∧ e.number < 2 ^ e.length) ∧
  c.staticRom.length = htStaticLen

/-- The largest value of an XLEN-bit word, `MAXV = 2^XLEN - 1` (R163). -/
def maxWord (c : Config) : Nat := 2 ^ c.xlen - 1

/-- The free value `any` of R13 and R164 (`93_implementation_defined.md` U3, the only *any value* of the spec): the octets of a
target after INT_DEST_EXHAUSTED.  No body: nothing can be proved of a value of it.  The argument is the state's counter
`State.freeCtr`, which the command advances past every octet it draws (log entry 8). -/
opaque freeOctet : Nat → Octet

end Config
end Sys2Proof
end

