-- ==== Sys2Proof/Syntax.lean ====
section
/-! DEFINITION. The command packet and the 24 commands (`30_encoding.md` R90 to R95, R103).  An `Instr` is a decoded packet: the
command word's used fields and the operand words the command reads, in the order obA, obB, imm8, A0, A1, A2, A3 of
R103. -/

namespace Sys2Proof

/-- A command packet (R90): the 32-bit command word CMD and the four operand words, which a packet always carries. -/
structure Packet where
  cmd : BitVec 32
  a0 : Nat
  a1 : Nat
  a2 : Nat
  a3 : Nat
deriving DecidableEq, Repr

/-- What the host can do to the core between two commands: present a packet (R20, R22), or reset it (R320; log entry 5). -/
inductive HostInput where
  | packet (p : Packet)
  | reset
deriving DecidableEq, Repr

/-- The 24 commands, one constructor per row of R94, R95. -/
inductive Instr where
  /-- SYS.RDCSR: read control register number `reg` (R265). -/
  | sysRdcsr (reg : Octet)
  /-- BB.APPENDBIT: append one bit (R122). -/
  | bbAppendBit (bit : Bool)
  /-- BB.APPENDOCT: append eight bits, the most significant first (R123). -/
  | bbAppendOct (octet : Octet)
  /-- BB.AT: read the bit at position `pos` (R124). -/
  | bbAt (pos : Nat)
  /-- BB.PUT: set (never clear) the bit at position `pos` (R125). -/
  | bbPut (bit : Bool) (pos : Nat)
  /-- BB.LEN: bits used and capacity (R126). -/
  | bbLen
  /-- BB.CLEAR: zero the BitBuffer and its length (R127). -/
  | bbClear
  /-- OB.INIT: construct buffer `a` with a capacity (R141). -/
  | obInit (a : ObSel) (capacity : Nat)
  /-- OB.SET: write one octet of buffer `a`, dropped out of range (R142). -/
  | obSet (a : ObSel) (value : Octet) (index : Nat)
  /-- OB.GET: read one octet of buffer `a` (R143). -/
  | obGet (a : ObSel) (index : Nat)
  /-- OB.LEN: the length of buffer `a` (R144). -/
  | obLen (a : ObSel)
  /-- OB.LOADBITS: replace buffer `a` by the BitBuffer's whole octets (R145). -/
  | obLoadBits (a : ObSel)
  /-- OB.COPY: copy buffer `b` onto buffer `a` (R146). -/
  | obCopy (a b : ObSel)
  /-- IC.SETPREFIX: set the width of the first octet's value field (R166). -/
  | icSetPrefix (width : Octet)
  /-- IC.SETOFFSET: set the cursor (R167). -/
  | icSetOffset (offset : Nat)
  /-- IC.ENCODE: encode `value` into buffer `a` at the cursor (R164). -/
  | icEncode (a : ObSel) (value : Nat)
  /-- IC.DECODE: decode an integer from buffer `a` at the cursor (R165). -/
  | icDecode (a : ObSel)
  /-- IC.RESET: zero the IntegerCodec's two registers (R168). -/
  | icReset
  /-- HC.ENCODE: Huffman-encode a range of buffer `a` into the BitBuffer (R193). -/
  | hcEncode (a : ObSel) (start length : Nat)
  /-- HC.DECODE: Huffman-decode a range of buffer `a` into buffer `b` at `dest` (R198). -/
  | hcDecode (a b : ObSel) (start length dest : Nat)
  /-- HT.GET: deliver the pair at a unified index, name to buffer `a`, value to buffer `b` (R233). -/
  | htGet (a b : ObSel) (index : Nat)
  /-- HT.PUT: insert (range of buffer `a`, range of buffer `b`) into the dynamic table (R234). -/
  | htPut (a b : ObSel) (nameStart nameLen valueStart valueLen : Nat)
  /-- HT.UPDCAP: set the table capacity and evict (R235). -/
  | htUpdCap (capacity : Nat)
  /-- HT.ISFULL: is `table_size ≥ table_capacity` (R236). -/
  | htIsFull
deriving DecidableEq, Repr

end Sys2Proof
end

