-- ==== Sys2Proof/WellFormed.lean ====
section
/-! DEFINITION. Which commands can be presented at all: every operand word fits XLEN bits (`30_encoding.md` R90, R91), every used
selector names one of the NOB buffers (R98), and HT.GET names two different buffers (R99).  The decoder answers
exactly the well-formed commands. -/

namespace Sys2Proof

/-- A selector names an existing OctetBuffer (R92, R98). -/
def ObSel.legal (c : Config) (a : ObSel) : Bool := a.toNat < c.nob

/-- An operand word fits XLEN bits (R90). -/
def wordFits (c : Config) (v : Nat) : Bool := v < 2 ^ c.xlen

/-- The selector checks R98 and R99 of the decoder. -/
def Instr.selectorsLegal (c : Config) : Instr → Bool
  | .sysRdcsr _ => true
  | .bbAppendBit _ => true
  | .bbAppendOct _ => true
  | .bbAt _ => true
  | .bbPut _ _ => true
  | .bbLen => true
  | .bbClear => true
  | .obInit a _ => ObSel.legal c a
  | .obSet a _ _ => ObSel.legal c a
  | .obGet a _ => ObSel.legal c a
  | .obLen a => ObSel.legal c a
  | .obLoadBits a => ObSel.legal c a
  | .obCopy a b => ObSel.legal c a && ObSel.legal c b
  | .icSetPrefix _ => true
  | .icSetOffset _ => true
  | .icEncode a _ => ObSel.legal c a
  | .icDecode a => ObSel.legal c a
  | .icReset => true
  | .hcEncode a _ _ => ObSel.legal c a
  | .hcDecode a b _ _ _ => ObSel.legal c a && ObSel.legal c b
  | .htGet a b _ => ObSel.legal c a && ObSel.legal c b && a != b
  | .htPut a b _ _ _ _ => ObSel.legal c a && ObSel.legal c b
  | .htUpdCap _ => true
  | .htIsFull => true

/-- Every operand word the command reads fits XLEN bits (R90, R91). -/
def Instr.wordsFit (c : Config) : Instr → Bool
  | .sysRdcsr _ => true
  | .bbAppendBit _ => true
  | .bbAppendOct _ => true
  | .bbAt pos => wordFits c pos
  | .bbPut _ pos => wordFits c pos
  | .bbLen => true
  | .bbClear => true
  | .obInit _ capacity => wordFits c capacity
  | .obSet _ _ index => wordFits c index
  | .obGet _ index => wordFits c index
  | .obLen _ => true
  | .obLoadBits _ => true
  | .obCopy _ _ => true
  | .icSetPrefix _ => true
  | .icSetOffset offset => wordFits c offset
  | .icEncode _ value => wordFits c value
  | .icDecode _ => true
  | .icReset => true
  | .hcEncode _ start length => wordFits c start && wordFits c length
  | .hcDecode _ _ start length dest =>
      wordFits c start && wordFits c length && wordFits c dest
  | .htGet _ _ index => wordFits c index
  | .htPut _ _ nameStart nameLen valueStart valueLen =>
      wordFits c nameStart && wordFits c nameLen && wordFits c valueStart && wordFits c valueLen
  | .htUpdCap capacity => wordFits c capacity
  | .htIsFull => true

/-- A command the host can present and the decoder answers. -/
def Instr.wf (c : Config) (i : Instr) : Bool := i.selectorsLegal c && i.wordsFit c

end Sys2Proof
end

