-- ==== Sys2Proof/Decode.lean ====
section
/-! DEFINITION. Decoding a command packet (`30_encoding.md` R92 to R101) and encoding one.  The decoder is the algorithm of R101
over the match and mask table of R95; it is total and names what it refuses.  The encoder writes the command word from
the field layout of R92 and the opcodes of R94, not from the match and mask columns. -/

namespace Sys2Proof

/-- Why a packet selects no command.  All four are ILLEGAL_CMD to the host (R97 to R100). -/
inductive DecodeError where
  /-- CMD matches no row of R95 (R97). -/
  | noRow
  /-- The used field `obA` is NOB or larger (R98). -/
  | obAOutOfRange
  /-- The used field `obB` is NOB or larger (R98). -/
  | obBOutOfRange
  /-- HT.GET with `obA = obB` (R99). -/
  | sameBuffer
deriving DecidableEq, Repr

/-- The variable parts of a packet as R101 hands them to a command: the fields of CMD and the operand words. -/
structure Fields where
  obA : ObSel
  obB : ObSel
  imm8 : Octet
  a0 : Nat
  a1 : Nat
  a2 : Nat
  a3 : Nat
deriving DecidableEq, Repr

/-- A row of the table of R95: match, mask, which selectors it uses, and the command it stands for. -/
structure Row where
  matchBits : BitVec 32
  mask : BitVec 32
  usesObA : Bool
  usesObB : Bool
  differ : Bool := false
  build : Fields → Instr

/-- "As a bit it is `imm8[0]`" (R96). -/
def Fields.bit (f : Fields) : Bool := f.imm8.getLsbD 0

/-- The table of R95, in its order. -/
def rowsSysBb : List Row := [
  ⟨0x01000000#32, 0xFFFFFF00#32, false, false, false, fun f => .sysRdcsr f.imm8⟩,
  ⟨0x10000000#32, 0xFFFFFFFE#32, false, false, false, fun f => .bbAppendBit f.bit⟩,
  ⟨0x11000000#32, 0xFFFFFF00#32, false, false, false, fun f => .bbAppendOct f.imm8⟩,
  ⟨0x12000000#32, 0xFFFFFFFF#32, false, false, false, fun f => .bbAt f.a0⟩,
  ⟨0x13000000#32, 0xFFFFFFFE#32, false, false, false, fun f => .bbPut f.bit f.a0⟩,
  ⟨0x14000000#32, 0xFFFFFFFF#32, false, false, false, fun _ => .bbLen⟩,
  ⟨0x15000000#32, 0xFFFFFFFF#32, false, false, false, fun _ => .bbClear⟩]

/-- The OctetBuffer rows of R95. -/
def rowsOb : List Row := [
  ⟨0x20000000#32, 0xFF0FFFFF#32, true, false, false, fun f => .obInit f.obA f.a0⟩,
  ⟨0x21000000#32, 0xFF0FFF00#32, true, false, false, fun f => .obSet f.obA f.imm8 f.a0⟩,
  ⟨0x22000000#32, 0xFF0FFFFF#32, true, false, false, fun f => .obGet f.obA f.a0⟩,
  ⟨0x23000000#32, 0xFF0FFFFF#32, true, false, false, fun f => .obLen f.obA⟩,
  ⟨0x24000000#32, 0xFF0FFFFF#32, true, false, false, fun f => .obLoadBits f.obA⟩,
  ⟨0x25000000#32, 0xFF00FFFF#32, true, true, false, fun f => .obCopy f.obA f.obB⟩]

/-- The IntegerCodec rows of R95. -/
def rowsIc : List Row := [
  ⟨0x30000000#32, 0xFFFFFF00#32, false, false, false, fun f => .icSetPrefix f.imm8⟩,
  ⟨0x31000000#32, 0xFFFFFFFF#32, false, false, false, fun f => .icSetOffset f.a0⟩,
  ⟨0x32000000#32, 0xFF0FFFFF#32, true, false, false, fun f => .icEncode f.obA f.a0⟩,
  ⟨0x33000000#32, 0xFF0FFFFF#32, true, false, false, fun f => .icDecode f.obA⟩,
  ⟨0x34000000#32, 0xFFFFFFFF#32, false, false, false, fun _ => .icReset⟩]

/-- The HuffmanCodec and HeaderTable rows of R95. -/
def rowsHcHt : List Row := [
  ⟨0x40000000#32, 0xFF0FFFFF#32, true, false, false, fun f => .hcEncode f.obA f.a0 f.a1⟩,
  ⟨0x41000000#32, 0xFF00FFFF#32, true, true, false, fun f => .hcDecode f.obA f.obB f.a0 f.a1 f.a2⟩,
  ⟨0x50000000#32, 0xFF00FFFF#32, true, true, true, fun f => .htGet f.obA f.obB f.a0⟩,
  ⟨0x51000000#32, 0xFF00FFFF#32, true, true, false, fun f => .htPut f.obA f.obB f.a0 f.a1 f.a2 f.a3⟩,
  ⟨0x52000000#32, 0xFFFFFFFF#32, false, false, false, fun f => .htUpdCap f.a0⟩,
  ⟨0x53000000#32, 0xFFFFFFFF#32, false, false, false, fun _ => .htIsFull⟩]

/-- All 24 rows of R95. -/
def rows : List Row := rowsSysBb ++ rowsOb ++ rowsIc ++ rowsHcHt

/-- "a word w selects the command when `w & mask = match`" (R95). -/
def Row.selects (r : Row) (w : BitVec 32) : Bool := w &&& r.mask == r.matchBits

/-- The field `opcode`, bits 31:24 (R92). -/
def cmdOpcode (w : BitVec 32) : BitVec 8 := w.extractLsb' 24 8

/-- The field `obA`, bits 23:20 (R92). -/
def cmdObA (w : BitVec 32) : ObSel := w.extractLsb' 20 4

/-- The field `obB`, bits 19:16 (R92). -/
def cmdObB (w : BitVec 32) : ObSel := w.extractLsb' 16 4

/-- The field `zero`, bits 15:8 (R92). -/
def cmdZero (w : BitVec 32) : BitVec 8 := w.extractLsb' 8 8

/-- The field `imm8`, bits 7:0 (R92). -/
def cmdImm8 (w : BitVec 32) : Octet := w.extractLsb' 0 8

/-- An operand word as the core sees it.  The port is XLEN bits wide (R90, R91), so a number above 2^XLEN - 1, which no host
can present, is read through its low XLEN bits (log entry 9). -/
def operandWord (c : Config) (v : Nat) : Nat := v % 2 ^ c.xlen

/-- The variable parts of a packet (R92, R101). -/
def fieldsOf (c : Config) (p : Packet) : Fields where
  obA := cmdObA p.cmd
  obB := cmdObB p.cmd
  imm8 := cmdImm8 p.cmd
  a0 := operandWord c p.a0
  a1 := operandWord c p.a1
  a2 := operandWord c p.a2
  a3 := operandWord c p.a3

/-- The checks R101 makes once a row is selected. -/
def checkRow (c : Config) (r : Row) (f : Fields) : Except DecodeError Instr :=
  if r.usesObA && !ObSel.legal c f.obA then .error .obAOutOfRange
  else if r.usesObB && !ObSel.legal c f.obB then .error .obBOutOfRange
  else if r.differ && f.obA == f.obB then .error .sameBuffer
  else .ok (r.build f)

/-- The decoding algorithm of R101: "the unique row r of rule R95 with (CMD & r.mask) = r.match, if any". -/
def decode (c : Config) (p : Packet) : Except DecodeError Instr :=
  match rows.find? (fun r => r.selects p.cmd) with
  | none => .error .noRow
  | some r => checkRow c r (fieldsOf c p)

/-- A command word from its fields, the `zero` field 0 (R92). -/
def packCmd (opcode : BitVec 8) (a b : ObSel) (imm8 : Octet) : BitVec 32 :=
  opcode ++ (a ++ (b ++ (0#8 ++ imm8)))

/-- A bit as an immediate (R96). -/
def bitImm (b : Bool) : Octet := if b then 1#8 else 0#8

/-- The opcode byte of each command (R94). -/
def Instr.opcode : Instr → BitVec 8
  | .sysRdcsr _ => 0x01#8
  | .bbAppendBit _ => 0x10#8
  | .bbAppendOct _ => 0x11#8
  | .bbAt _ => 0x12#8
  | .bbPut _ _ => 0x13#8
  | .bbLen => 0x14#8
  | .bbClear => 0x15#8
  | .obInit _ _ => 0x20#8
  | .obSet _ _ _ => 0x21#8
  | .obGet _ _ => 0x22#8
  | .obLen _ => 0x23#8
  | .obLoadBits _ => 0x24#8
  | .obCopy _ _ => 0x25#8
  | .icSetPrefix _ => 0x30#8
  | .icSetOffset _ => 0x31#8
  | .icEncode _ _ => 0x32#8
  | .icDecode _ => 0x33#8
  | .icReset => 0x34#8
  | .hcEncode _ _ _ => 0x40#8
  | .hcDecode _ _ _ _ _ => 0x41#8
  | .htGet _ _ _ => 0x50#8
  | .htPut _ _ _ _ _ _ => 0x51#8
  | .htUpdCap _ => 0x52#8
  | .htIsFull => 0x53#8

/-- The packet of a command: unused CMD fields and unused operand words 0 (R95, R103). -/
def encode (i : Instr) : Packet :=
  match i with
  | .sysRdcsr reg => ⟨packCmd i.opcode 0 0 reg, 0, 0, 0, 0⟩
  | .bbAppendBit bit => ⟨packCmd i.opcode 0 0 (bitImm bit), 0, 0, 0, 0⟩
  | .bbAppendOct octet => ⟨packCmd i.opcode 0 0 octet, 0, 0, 0, 0⟩
  | .bbAt pos => ⟨packCmd i.opcode 0 0 0, pos, 0, 0, 0⟩
  | .bbPut bit pos => ⟨packCmd i.opcode 0 0 (bitImm bit), pos, 0, 0, 0⟩
  | .bbLen => ⟨packCmd i.opcode 0 0 0, 0, 0, 0, 0⟩
  | .bbClear => ⟨packCmd i.opcode 0 0 0, 0, 0, 0, 0⟩
  | .obInit a capacity => ⟨packCmd i.opcode a 0 0, capacity, 0, 0, 0⟩
  | .obSet a value index => ⟨packCmd i.opcode a 0 value, index, 0, 0, 0⟩
  | .obGet a index => ⟨packCmd i.opcode a 0 0, index, 0, 0, 0⟩
  | .obLen a => ⟨packCmd i.opcode a 0 0, 0, 0, 0, 0⟩
  | .obLoadBits a => ⟨packCmd i.opcode a 0 0, 0, 0, 0, 0⟩
  | .obCopy a b => ⟨packCmd i.opcode a b 0, 0, 0, 0, 0⟩
  | .icSetPrefix width => ⟨packCmd i.opcode 0 0 width, 0, 0, 0, 0⟩
  | .icSetOffset offset => ⟨packCmd i.opcode 0 0 0, offset, 0, 0, 0⟩
  | .icEncode a value => ⟨packCmd i.opcode a 0 0, value, 0, 0, 0⟩
  | .icDecode a => ⟨packCmd i.opcode a 0 0, 0, 0, 0, 0⟩
  | .icReset => ⟨packCmd i.opcode 0 0 0, 0, 0, 0, 0⟩
  | .hcEncode a start length => ⟨packCmd i.opcode a 0 0, start, length, 0, 0⟩
  | .hcDecode a b start length dest => ⟨packCmd i.opcode a b 0, start, length, dest, 0⟩
  | .htGet a b index => ⟨packCmd i.opcode a b 0, index, 0, 0, 0⟩
  | .htPut a b nameStart nameLen valueStart valueLen =>
      ⟨packCmd i.opcode a b 0, nameStart, nameLen, valueStart, valueLen⟩
  | .htUpdCap capacity => ⟨packCmd i.opcode 0 0 0, capacity, 0, 0, 0⟩
  | .htIsFull => ⟨packCmd i.opcode 0 0 0, 0, 0, 0, 0⟩

/-- The packet whose bits are the low `nbits` bits of `w`, numbered on from CMD through A0 to A3: CMD is bits 31:0 and operand
word k is the XLEN bits from bit 32 + k * XLEN up (log entry 11; the spec leaves the serialisation of a packet to the
bus, R71). -/
def packetOfBits (c : Config) (nbits w : Nat) : Packet :=
  let v := w % 2 ^ nbits
  let word (k : Nat) : Nat := operandWord c (v >>> (32 + k * c.xlen))
  ⟨BitVec.ofNat 32 v, word 0, word 1, word 2, word 3⟩

/-- The instruction the decoder reads from a row of the opcode table, under the default configuration: the row's 32 bits are
CMD, the operand words are zeros. -/
def decodeTableWord (nbits w : Nat) : Option Instr :=
  match decode Config.default (packetOfBits Config.default nbits w) with
  | .error _ => none
  | .ok i => some i

end Sys2Proof
end

