-- ==== Sys2Proof/Machine/Trie.lean ====
section
/-! DEFINITION. The SymbolTrie: its shape (`10_state.md` R35, R36), its construction at reset (`43_huffmancodec.md` R194) and the walk
that decodes a bit sequence (R197).  R65 and `93_implementation_defined.md` U6 let a model use an inductive tree for the
arena of nodes: "only the tree's shape and labels are observable"; the count of used slots is kept beside it, because
it decides whether the build succeeds (log entry 13). -/

namespace Sys2Proof.Machine

/-- A node of the SymbolTrie, `absent` standing for the child handle `none`: child0, child1, symbol, eos (R35). -/
inductive Trie where
  | absent
  | node (child0 child1 : Trie) (symbol : Option Octet) (eos : Bool)
deriving DecidableEq, Repr

/-- The HuffmanCodec's state (R35, R36): the trie, `TRIE.used`, and `HC_READY`. -/
structure HuffmanCodec where
  trie : Trie
  used : Nat
  ready : Bool
deriving DecidableEq, Repr

namespace Trie

/-- A fresh node `(none, none, none, 0)` (R194). -/
def fresh : Trie := .node .absent .absent none false

/-- "a node is a leaf when both children are empty" (R35). -/
def isLeaf : Trie → Bool
  | .absent => false
  | .node .absent .absent _ _ => true
  | .node _ _ _ _ => false

/-- `child_b(h)`: child1 on a 1 bit, child0 on a 0 bit (R194). -/
def child (t : Trie) (b : Bool) : Trie :=
  match t with
  | .absent => .absent
  | .node c0 c1 _ _ => if b then c1 else c0

/-- The symbol a node holds, if any (R35). -/
def symbolOf : Trie → Option Octet
  | .absent => none
  | .node _ _ sym _ => sym

/-- The node's EOS flag (R35). -/
def isEos : Trie → Bool
  | .absent => false
  | .node _ _ _ eos => eos

/-- Label the node an insertion ends at: "if s <= 255: symbol <- s, else eos <- 1" (R194). -/
def label (t : Trie) (s : Nat) : Trie :=
  match t with
  | .absent => .absent
  | .node c0 c1 sym eos =>
    if s < Config.huffEos then .node c0 c1 (some (BitVec.ofNat 8 s)) eos else .node c0 c1 sym true

/-- Replace the child followed on bit `b`. -/
def setChild (t : Trie) (b : Bool) (c : Trie) : Trie :=
  match t with
  | .absent => .absent
  | .node c0 c1 sym eos => if b then .node c0 c sym eos else .node c c1 sym eos

/-- Insert one code below a node (the loop over `t` of R194): the new trie, the slots used, and whether the insertion
succeeded.  It fails when a child must be created and all `slots` slots are used; what was created before stays. -/
def insert (slots s : Nat) : List Bool → Trie → Nat → Trie × Nat × Bool
  | [], t, used => (t.label s, used, true)
  | b :: bits, t, used =>
    match t.child b with
    | .absent =>
      if used = slots then (t, used, false)
      else
        let r := insert slots s bits fresh (used + 1)
        (t.setChild b r.1, r.2)
    | .node c0 c1 sym eos =>
      let r := insert slots s bits (.node c0 c1 sym eos) used
      (t.setChild b r.1, r.2)

/-- Insert the codes of the symbols from `s` on, stopping at the first failure (R194). -/
def insertAll (slots : Nat) : Nat → List HuffCode → Trie → Nat → HuffmanCodec
  | _, [], t, used => ⟨t, used, true⟩
  | s, c :: codes, t, used =>
    match insert slots s (codeBits c) t used with
    | (t', used', true) => insertAll slots (s + 1) codes t' used'
    | (t', used', false) => ⟨t', used', false⟩

/-- The number of nodes of a trie. -/
def nodes : Trie → Nat
  | .absent => 0
  | .node c0 c1 _ _ => c0.nodes + c1.nodes + 1

/-- `HuffWalk` of R197 from a node on: `root` is where the walk goes back to, `here` the current node, and the last argument
the output so far.  At a child that is `none`, which R195 shows a completed trie never has at an inner node, the walk ends;
a leaf without a symbol, which only the empty trie has, emits nothing (log entry 13). -/
def walkFrom (root : Trie) : Trie → List Bool → List Octet → List Octet
  | here, [], out =>
    if here.isLeaf && !here.isEos then out ++ here.symbolOf.toList else out
  | here, b :: bits, out =>
    if here.isLeaf then
      if here.isEos then out
      else walkFrom root (root.child b) bits (out ++ here.symbolOf.toList)
    else walkFrom root (here.child b) bits out

/-- `HuffWalk(B, m)`: decode the bit sequence from the root (R197). -/
def walk (root : Trie) (bits : List Bool) : List Octet := walkFrom root root bits []

end Trie

/-- The trie build of R194 from a code ROM, in an arena of `slots` slots: node 0, the root, first, then symbols 0 to 256. -/
def buildTrie (codes : List HuffCode) (slots : Nat) : HuffmanCodec :=
  Trie.insertAll slots 0 codes Trie.fresh 1

end Sys2Proof.Machine
end

