-- ==== Sys2Proof/Machine/State.lean ====
section
/-! DEFINITION. The state of the core (`10_state.md` R20 to R46), the completion codes' names (`60_exceptions.md` R281), and the state
after reset (R45).  Everything is plain data.  `cfg`, `freeCtr`, `stream` and `index` are the model's own fields: the
configuration a machine was built with (log entry 2), the counter of free values (log entry 8), and the host's command
stream with its index, which R24 keeps "outside the core's state" and the host's interface (a step takes no packet) needs
beside it (log entry 3). -/

namespace Sys2Proof.Machine

/-- Octet storage: (octet index, octet) pairs, indices strictly rising, none holding 0; an unlisted octet reads 0.  It is the
BitBuffer's `BB.store`, whose allocated bits are 0 until written (R26, R28, R45). -/
abbrev Memory := List Host.Cell

/-- The canonical form of octet storage. -/
abbrev Memory.wf (m : Memory) : Prop :=
  m.Pairwise (fun x y => x.1 < y.1) ∧ ∀ c ∈ m, c.2 ≠ 0#8

/-- The causes of a fault, completion codes 1 to 17 of R281.  A fault ends one command with that code in RC; it does not stop
the core (R282), so it is part of a NEXT state and not an outcome of a step. -/
inductive Cause where
  | illegalCmd
  | allocFail
  | bbRange
  | obReadRange
  | obCapacity
  | badPrefix
  | intDestExhausted
  | intTruncated
  | intTooLong
  | intOverflow
  | huffNotReady
  | huffTooLong
  | huffBadLength
  | huffOutExhausted
  | htIndexRange
  | htDestSmall
  | htCapRange
deriving DecidableEq, Repr

/-- The BitBuffer (R26): `store`, `cap` (allocated bits) and `len` (bits used). -/
structure BitBuffer where
  store : Memory
  cap : Nat
  len : Nat
deriving DecidableEq, Repr

/-- An OctetBuffer (R29): exactly `OB[i].len` octets; `OB[i].len` is the length of the sequence. -/
abbrev OctetBuffer := List Octet

/-- The IntegerCodec (R31, R32): `IC.prefix` (called `width` here; 0 means not set) and `IC.offset`. -/
structure IntegerCodec where
  width : Nat
  offset : Nat
deriving DecidableEq, Repr

/-- The HeaderTable (R39, R40): `DYN`, newest first, and the counters `table_size`, `table_capacity`, `dynamic_length`. -/
structure HeaderTable where
  dyn : List Pair
  size : Nat
  capacity : Nat
  count : Nat
deriving DecidableEq, Repr

/-- Reasons a step stops without a next state.  There is none: a faulting command completes with a code in RC and "the core
accepts the next packet after every outcome" (R282, R331; `93_implementation_defined.md`, end of Part 1), and a host that
presents nothing leaves the core waiting (R321). -/
inductive Fault
deriving DecidableEq, Repr

/-- Reasons a command is given no meaning. -/
inductive Refusal where
  /-- The command named has no meaning in this model yet.  Raised by `exec`'s own arm only; safe: nothing is claimed of it.  No arm
  raises it now. -/
  | notModelled (mnemonic : String)
deriving DecidableEq, Repr

/-- The machine: the core's state (R20), and the model's own fields. -/
structure State where
  /-- The configuration the machine was built with (R9, R20); no command changes it. -/
  cfg : Config
  /-- RC, the completion code of the last command (R21). -/
  rc : BitVec 8
  /-- R0, the first result word (R21). -/
  r0 : Nat
  /-- R1, the second result word (R21). -/
  r1 : Nat
  /-- FAULT: bit c is set when a command has ended with code c since reset (R25). -/
  fault : Nat
  /-- The BitBuffer (R26). -/
  bb : BitBuffer
  /-- OB[0] to OB[NOB-1] (R29). -/
  obs : List OctetBuffer
  /-- The IntegerCodec (R31, R32). -/
  ic : IntegerCodec
  /-- The HuffmanCodec: the SymbolTrie and HC_READY (R35, R36). -/
  hc : HuffmanCodec
  /-- The HeaderTable (R39, R40). -/
  ht : HeaderTable
  /-- How many free octets have been drawn (log entry 8). -/
  freeCtr : Nat
  /-- What the host presents, in order (R24, R325; log entry 3). -/
  stream : List HostInput
  /-- How many of the stream's inputs have been taken (R24). -/
  index : Nat
deriving DecidableEq, Repr

/-- The BitBuffer after reset (R45): empty, default capacity, every bit 0. -/
def BitBuffer.reset (c : Config) : BitBuffer := ⟨[], c.bbInitCap, 0⟩

/-- The OctetBuffers after reset (R45): each OB_FLOOR octets of 0. -/
def resetObs (c : Config) : List OctetBuffer :=
  List.replicate c.nob (List.replicate c.obFloor 0#8)

/-- The IntegerCodec after reset, and after IC.RESET (R45, R168). -/
def IntegerCodec.reset : IntegerCodec := ⟨0, 0⟩

/-- The HeaderTable after reset (R45): empty, capacity 4096. -/
def HeaderTable.reset : HeaderTable := ⟨[], 0, Config.htDefaultCapacity, 0⟩

/-- The state after reset of a machine built with configuration `c` (R45, R320, R322), nothing presented yet. -/
def State.resetOf (c : Config) : State where
  cfg := c
  rc := 0
  r0 := 0
  r1 := 0
  fault := 0
  bb := BitBuffer.reset c
  obs := resetObs c
  ic := IntegerCodec.reset
  hc := buildTrie c.codeRom c.trieNodes
  ht := HeaderTable.reset
  freeCtr := 0
  stream := []
  index := 0

/-- The state after reset, with the default configuration of R9. -/
def State.reset : State := State.resetOf Config.default

end Sys2Proof.Machine
end

