-- ==== Sys2Proof/Machine/Flags.lean ====
section
/-! DEFINITION. The completion codes (`60_exceptions.md` R281) and the one status register, FAULT (`10_state.md` R25, R283).  The core has
no condition codes and no arithmetic flags (R25). -/

namespace Sys2Proof.Machine

/-- The number of each fault (R281).  Code 0 is OK. -/
def Cause.code : Cause → Nat
  | .illegalCmd => 1
  | .allocFail => 2
  | .bbRange => 3
  | .obReadRange => 4
  | .obCapacity => 5
  | .badPrefix => 6
  | .intDestExhausted => 7
  | .intTruncated => 8
  | .intTooLong => 9
  | .intOverflow => 10
  | .huffNotReady => 11
  | .huffTooLong => 12
  | .huffBadLength => 13
  | .huffOutExhausted => 14
  | .htIndexRange => 15
  | .htDestSmall => 16
  | .htCapRange => 17

/-- RC = 0, "completed" (R281). -/
def rcOk : BitVec 8 := 0

/-- The value of RC for a cause (R282). -/
def Cause.rc (c : Cause) : BitVec 8 := BitVec.ofNat 8 c.code

/-- `FAULT[c] <- 1` (R282).  FAULT is XLEN bits wide (R25), so with XLEN below 18 the bits of the highest codes do not exist and
setting one changes nothing (log entry 10). -/
def faultWith (xlen : Nat) (fault : Nat) (c : Cause) : Nat :=
  if c.code < xlen then fault ||| 2 ^ c.code else fault

end Sys2Proof.Machine
end

