-- ==== Sys2Proof/Machine/Ops.lean ====
section
/-! DEFINITION. The named operations the commands are made of: octet storage (`20_memory.md` R61, R62), the BitBuffer's append
(`40_bitbuffer.md` R121), octet sequences (`20_memory.md` R63), completing a command and raising a fault (`60_exceptions.md` R282,
the core's only kind of exception entry; R288: there is no return), reset (R320), and taking the host's next input (R24). -/

namespace Sys2Proof.Machine

/-- Read one octet of storage; an unlisted octet is 0. -/
def Memory.read : Memory → Nat → Octet
  | [], _ => 0#8
  | (b, w) :: m, a => if a = b then w else Memory.read m a

/-- Put a cell before a list whose indices are all higher; a 0 octet is not listed. -/
def Memory.cell (a : Nat) (v : Octet) (m : Memory) : Memory :=
  if v = 0#8 then m else (a, v) :: m

/-- Write one octet of storage, keeping the canonical form. -/
def Memory.write : Memory → Nat → Octet → Memory
  | [], a, v => Memory.cell a v []
  | (b, w) :: m, a, v =>
    if a < b then Memory.cell a v ((b, w) :: m)
    else if a = b then Memory.cell a v m
    else (b, w) :: Memory.write m a v

/-- Zero the octets `lo` to `hi - 1`. -/
def Memory.zeroRange (m : Memory) (lo hi : Nat) : Memory :=
  m.filter fun c => !(decide (lo ≤ c.1) && decide (c.1 < hi))

/-- `BitRead(p)`: bit `7 - (p mod 8)` of octet `p div 8` (R61, R62). -/
def BitBuffer.bitRead (bb : BitBuffer) (p : Nat) : Bool :=
  (Memory.read bb.store (p / 8)).getLsbD (7 - p % 8)

/-- `BitSet(p)`: that bit to 1 (R62). -/
def BitBuffer.bitSet (bb : BitBuffer) (p : Nat) : BitBuffer :=
  let v := Memory.read bb.store (p / 8) ||| BitVec.twoPow 8 (7 - p % 8)
  { bb with store := Memory.write bb.store (p / 8) v }

/-- The bits of the buffer below `BB.len`, in order (R128). -/
def BitBuffer.bits (bb : BitBuffer) : List Bool :=
  (List.range bb.len).map bb.bitRead

/-- Growth: "doubling bit capacity, zero-filling new space" (R121). -/
def BitBuffer.grow (bb : BitBuffer) : BitBuffer :=
  { bb with
    store := Memory.zeroRange bb.store (bb.cap / 8) (2 * bb.cap / 8)
    cap := 2 * bb.cap }

/-- The append's last lines (R121): set the bit at `BB.len` if it is 1, and count it. -/
def BitBuffer.push (bb : BitBuffer) (b : Bool) : BitBuffer :=
  let bb' := if b then bb.bitSet bb.len else bb
  { bb' with len := bb.len + 1 }

/-- `BitAppend(b)` (R121), in a buffer of `phys` physical bits; `none` is `fail`, which changes nothing. -/
def BitBuffer.append (phys : Nat) (bb : BitBuffer) (b : Bool) : Option BitBuffer :=
  if bb.len = bb.cap then
    if 2 * bb.cap > phys then none else some (bb.grow.push b)
  else some (bb.push b)

/-- Append a run of bits, stopping at the first failure: the buffer with the bits that were appended, and whether all were
(R123, R193, R198: "bits appended so far stay"). -/
def BitBuffer.appendAll (phys : Nat) : BitBuffer → List Bool → BitBuffer × Bool
  | bb, [] => (bb, true)
  | bb, b :: bits =>
    match bb.append phys b with
    | none => (bb, false)
    | some bb' => BitBuffer.appendAll phys bb' bits

/-- "zero all octets and reset length to 0 without deallocating" (R127, R198). -/
def BitBuffer.clear (bb : BitBuffer) : BitBuffer :=
  { bb with store := Memory.zeroRange bb.store 0 (bb.cap / 8), len := 0 }

/-- `BB.store[0 .. n-1]` as an octet sequence (R145). -/
def BitBuffer.octets (bb : BitBuffer) (n : Nat) : List Octet :=
  (List.range n).map (Memory.read bb.store)

/-- The bits of an octet, the most significant first (R68, R123). -/
def octetBits (v : Octet) : List Bool :=
  [v.getLsbD 7, v.getLsbD 6, v.getLsbD 5, v.getLsbD 4, v.getLsbD 3, v.getLsbD 2, v.getLsbD 1, v.getLsbD 0]

/-- `for j: MemWrite(OB[i], o + j, 1, seq[j])`, in rising order (R164, R198, R233). -/
def writeRun : OctetBuffer → Nat → List Octet → OctetBuffer
  | d, _, [] => d
  | d, o, v :: seq => writeRun (d.set o v) (o + 1) seq

/-- The octets of a range given as (start, length), which the command has checked to lie inside the buffer (R190, R234). -/
def readRange (d : OctetBuffer) (start length : Nat) : List Octet :=
  (d.drop start).take length

/-- `n` free octets from the counter `ctr` on (R13 `any`; log entry 8). -/
def freeRun (ctr n : Nat) : List Octet :=
  (List.range n).map fun j => Config.freeOctet (ctr + j)

/-- Replace the BitBuffer. -/
def State.setBb (s : State) (bb : BitBuffer) : State := { s with bb := bb }

/-- Replace the IntegerCodec's registers. -/
def State.setIc (s : State) (ic : IntegerCodec) : State := { s with ic := ic }

/-- Replace the HeaderTable. -/
def State.setHt (s : State) (ht : HeaderTable) : State := { s with ht := ht }

/-- Replace the octets of OB[a]. -/
def State.setOb (s : State) (a : ObSel) (d : OctetBuffer) : State :=
  { s with obs := s.obs.set a.toNat d }

/-- Advance the counter of free values past `n` octets (log entry 8). -/
def State.drawFree (s : State) (n : Nat) : State := { s with freeCtr := s.freeCtr + n }

/-- A rule that ends without a fault: `RC <- OK` and the result words (R13). -/
def State.done (s : State) (r0 r1 : Nat) : State :=
  { s with rc := rcOk, r0 := r0, r1 := r1 }

/-- Taking a fault, `raise F` (R282): RC the code, R0 and R1 zero, the FAULT bit set, and no other change. -/
def State.raise (s : State) (c : Cause) : State :=
  { s with rc := c.rc, r0 := 0, r1 := 0, fault := faultWith s.cfg.xlen s.fault c }

/-- The outcome of a command that ends without a fault. -/
def ok (s : State) (r0 r1 : Nat) : Host.Outcome State Fault Refusal :=
  .next (s.done r0 r1)

/-- The outcome of a command that ends with a fault: a next state, since the core goes on (R282, R288). -/
def fail (s : State) (c : Cause) : Host.Outcome State Fault Refusal :=
  .next (s.raise c)

/-- The reset input (R320, R322): every piece of the core's state as R45 says; the configuration, the host's stream and the
count of free values are not state of the core and stay. -/
def State.applyReset (s : State) : State :=
  { State.resetOf s.cfg with freeCtr := s.freeCtr, stream := s.stream, index := s.index }

/-- The input the host presents next, if any (R24, R321). -/
def State.nextInput (s : State) : Option HostInput := s.stream[s.index]?

/-- The index into the command stream "advances by exactly 1 after every command whatever its RC" (R24). -/
def State.advance (s : State) : State := { s with index := s.index + 1 }

/-- The stream with `p` as the next input; what was already taken stays in place. -/
def State.presentNext (s : State) (p : Packet) : State :=
  { s with
    stream := s.stream.take s.index ++ .packet p :: s.stream.drop (s.index + 1)
    index := (s.stream.take s.index).length }

end Sys2Proof.Machine
end

