-- ==== Sys2Proof/Machine/Operands.lean ====
section
/-! DEFINITION. The operand forms of `47_system.md` R268: a buffer named by a selector field, an absolute octet index, a range, the
unified header index, and the numbered control registers. -/

namespace Sys2Proof.Machine

/-- OB[a] exists: `a < NOB` (R92, R98). -/
def State.hasOb (s : State) (a : ObSel) : Bool := decide (a.toNat < s.obs.length)

/-- The octets of OB[a] (R29).  Commands ask `hasOb` first; a buffer that does not exist has none. -/
def State.ob (s : State) (a : ObSel) : OctetBuffer := s.obs.getD a.toNat []

/-- `OB[a].len` (R29). -/
def State.obLen (s : State) (a : ObSel) : Nat := (s.ob a).length

/-- One octet of OB[a] at an absolute index, `none` out of range (R63, R268 (a)). -/
def State.octet (s : State) (a : ObSel) (k : Nat) : Option Octet := (s.ob a)[k]?

/-- A range (start, length) is inside OB[a]: `start + length <= len` in exact arithmetic (R268 (d)). -/
abbrev State.InRange (s : State) (a : ObSel) (start length : Nat) : Prop :=
  start + length ≤ s.obLen a

/-- The octets of a range of OB[a] (R268 (d)). -/
def State.range (s : State) (a : ObSel) (start length : Nat) : List Octet :=
  readRange (s.ob a) start length

/-- Run a command's rule when its one buffer exists; else ILLEGAL_CMD, as the decoder answers (R98; log entry 12). -/
def withOb (s : State) (a : ObSel) (k : Host.Outcome State Fault Refusal) : Host.Outcome State Fault Refusal :=
  if s.hasOb a then k else fail s .illegalCmd

/-- Run a command's rule when both its buffers exist; else ILLEGAL_CMD (R98; log entry 12). -/
def withObs (s : State) (a b : ObSel) (k : Host.Outcome State Fault Refusal) : Host.Outcome State Fault Refusal :=
  if s.hasOb a && s.hasOb b then k else fail s .illegalCmd

/-- `Resolve(u)` (R67): static indices 1 to 61, then the dynamic table newest first; anything else is invalid.  Where
`dynamic_length` and `DYN` disagree, which no run reaches, an index with no entry is invalid (log entry 14). -/
def State.resolve (s : State) (u : Nat) : Option Pair :=
  if 1 ≤ u ∧ u ≤ Config.htStaticLen then s.cfg.staticRom[u - 1]?
  else if Config.htDynBase ≤ u ∧ u ≤ Config.htStaticLen + s.ht.count then s.ht.dyn[u - Config.htDynBase]?
  else none

/-- The control and status registers by number (R41, R265); `none` is an unassigned number. -/
def State.csr (s : State) (reg : Octet) : Option Nat :=
  if reg = 0x00#8 then some s.fault
  else if reg = 0x02#8 then some (if s.hc.ready then 1 else 0)
  else if reg = 0x10#8 then some s.bb.len
  else if reg = 0x11#8 then some s.bb.cap
  else if reg = 0x20#8 then some s.ic.width
  else if reg = 0x21#8 then some s.ic.offset
  else if reg = 0x30#8 then some s.ht.size
  else if reg = 0x31#8 then some s.ht.capacity
  else if reg = 0x32#8 then some s.ht.count
  else if 0x40 ≤ reg.toNat then s.obs[reg.toNat - 0x40]?.map List.length
  else none

end Sys2Proof.Machine
end

