-- ==== Sys2Proof/Machine/BitBuffer.lean ====
section
/-! DEFINITION. The BitBuffer commands (`40_bitbuffer.md` R120 to R128). -/

namespace Sys2Proof.Machine

/-- Append a run of bits to the BitBuffer: what R122 and R123 share.  ALLOC_FAIL keeps the bits that were appended. -/
def appendBits (bits : List Bool) (s : State) : Host.Outcome State Fault Refusal :=
  match s.bb.appendAll s.cfg.bbPhysBits bits with
  | (bb, true) => ok (s.setBb bb) bb.len 0
  | (bb, false) => fail (s.setBb bb) .allocFail

/-- BB.APPENDBIT (R122). -/
def execBbAppendBit (bit : Bool) (s : State) : Host.Outcome State Fault Refusal :=
  appendBits [bit] s

/-- BB.APPENDOCT (R123): the octet's bits, the most significant first. -/
def execBbAppendOct (octet : Octet) (s : State) : Host.Outcome State Fault Refusal :=
  appendBits (octetBits octet) s

/-- BB.AT (R124). -/
def execBbAt (pos : Nat) (s : State) : Host.Outcome State Fault Refusal :=
  if pos ≥ s.bb.len then fail s .bbRange
  else ok s (if s.bb.bitRead pos then 1 else 0) 0

/-- BB.PUT (R125): the range check comes before the bit is looked at; a 0 bit writes nothing. -/
def execBbPut (bit : Bool) (pos : Nat) (s : State) : Host.Outcome State Fault Refusal :=
  if pos ≥ s.bb.len then fail s .bbRange
  else ok (s.setBb (if bit then s.bb.bitSet pos else s.bb)) 0 0

/-- BB.LEN (R126). -/
def execBbLen (s : State) : Host.Outcome State Fault Refusal :=
  ok s s.bb.len s.bb.cap

/-- BB.CLEAR (R127). -/
def execBbClear (s : State) : Host.Outcome State Fault Refusal :=
  ok (s.setBb s.bb.clear) 0 0

end Sys2Proof.Machine
end

