-- ==== Sys2Proof/Machine/HeaderTable.lean ====
section
/-! DEFINITION. The HeaderTable commands (`45_headertable.md` R230 to R237). -/

namespace Sys2Proof.Machine

/-- `Ovh(name, value) = 32 + |name| + |value|` (R231). -/
def Pair.overhead (p : Pair) : Nat := Config.htEntryOverhead + p.name.length + p.value.length

/-- `Evict()` (R232): remove the oldest entry while `table_size > table_capacity`.  The first argument bounds the loop; the number
of entries is always enough, since an empty table has size 0. -/
def evictLoop : Nat → HeaderTable → HeaderTable
  | 0, t => t
  | fuel + 1, t =>
    if t.size > t.capacity then
      match t.dyn.getLast? with
      | none => t
      | some e =>
        evictLoop fuel
          { t with dyn := t.dyn.dropLast, size := t.size - Pair.overhead e, count := t.count - 1 }
    else t

/-- `Evict()` (R232). -/
def evict (t : HeaderTable) : HeaderTable := evictLoop t.dyn.length t

/-- Insert a pair at the front and account for it (R234), before the eviction. -/
def insertPair (t : HeaderTable) (p : Pair) : HeaderTable :=
  { t with dyn := p :: t.dyn, size := t.size + Pair.overhead p, count := t.count + 1 }

/-- Empty the dynamic table outright, the fast path of R235. -/
def emptyTable (t : HeaderTable) : HeaderTable := { t with dyn := [], size := 0, count := 0 }

/-- HT.GET (R233), `a` not `b` (R99; log entry 12). -/
def execHtGet (a b : ObSel) (index : Nat) (s : State) : Host.Outcome State Fault Refusal :=
  withObs s a b <|
    if a = b then fail s .illegalCmd
    else
      match s.resolve index with
      | none => fail s .htIndexRange
      | some p =>
        if p.name.length > s.obLen a ∨ p.value.length > s.obLen b then fail s .htDestSmall
        else
          ok ((s.setOb a (writeRun (s.ob a) 0 p.name)).setOb b (writeRun (s.ob b) 0 p.value))
            p.name.length p.value.length

/-- HT.PUT (R234): the table keeps its own copy of the two ranges. -/
def execHtPut (a b : ObSel) (nameStart nameLen valueStart valueLen : Nat) (s : State) :
    Host.Outcome State Fault Refusal :=
  withObs s a b <|
    if ¬ (s.InRange a nameStart nameLen ∧ s.InRange b valueStart valueLen) then fail s .obReadRange
    else
      let t := evict (insertPair s.ht ⟨s.range a nameStart nameLen, s.range b valueStart valueLen⟩)
      ok (s.setHt t) t.count t.size

/-- HT.UPDCAP (R235). -/
def execHtUpdCap (capacity : Nat) (s : State) : Host.Outcome State Fault Refusal :=
  if capacity > s.cfg.htMaxCapacity then fail s .htCapRange
  else
    let t := { s.ht with capacity := capacity }
    let t' := if capacity = 0 then emptyTable t else evict t
    ok (s.setHt t') t'.count t'.size

/-- HT.ISFULL (R236): a query, `table_size >= table_capacity`. -/
def execHtIsFull (s : State) : Host.Outcome State Fault Refusal :=
  ok s (if s.ht.size ≥ s.ht.capacity then 1 else 0) 0

end Sys2Proof.Machine
end

