-- ==== Sys2Proof/Machine/HuffmanCodec.lean ====
section
/-! DEFINITION. The HuffmanCodec commands (`43_huffmancodec.md` R190 to R200).  The trie and its walk are in Machine/Trie.lean.
That they round-trip (R199), `Trie.walk` of `huffPadded` being the string, is the law `Trie.walk_huffPadded` and the
statements `HuffmanWalkInvertsThePaddedEncoding` and `HuffmanRoundTripThroughTheBuffers`. -/

namespace Sys2Proof.Machine

/-- The code of a symbol (R64).  The ROM holds 257 entries (R34); a symbol past its end has the empty code (log entry 15). -/
def codeOf (rom : List HuffCode) (s : Nat) : HuffCode := rom.getD s ⟨0, 0⟩

/-- `HuffBits(S)`: the codes of the octets in order, each the most significant bit first (R191). -/
def huffBits (rom : List HuffCode) (str : Str) : List Bool :=
  str.flatMap fun x => codeBits (codeOf rom x.toNat)

/-- The padding after `e` code bits: `(8 - e mod 8) mod 8` one-bits (R192). -/
def huffPad (e : Nat) : List Bool := List.replicate ((8 - e % 8) % 8) true

/-- `HuffPadded(S)` (R192). -/
def huffPadded (rom : List HuffCode) (str : Str) : List Bool :=
  huffBits rom str ++ huffPad (huffBits rom str).length

/-- HC.ENCODE (R193): append the padded code bits of a range of buffer `a` to the BitBuffer. -/
def execHcEncode (a : ObSel) (start length : Nat) (s : State) : Host.Outcome State Fault Refusal :=
  withOb s a <|
    if length > s.cfg.huffMaxIn then fail s .huffTooLong
    else if ¬ s.InRange a start length then fail s .obReadRange
    else
      let bits := huffPadded s.cfg.codeRom (s.range a start length)
      match s.bb.appendAll s.cfg.bbPhysBits bits with
      | (bb, true) => ok (s.setBb bb) bits.length 0
      | (bb, false) => fail (s.setBb bb) .allocFail

/-- HC.DECODE (R198): the range of buffer `a` is captured, loaded into the cleared BitBuffer, walked through the trie, and the
output written to buffer `b` from `dest` on, if all of it fits. -/
def execHcDecode (a b : ObSel) (start length dest : Nat) (s : State) : Host.Outcome State Fault Refusal :=
  withObs s a b <|
    if s.hc.ready = false then fail s .huffNotReady
    else if length = 0 ∨ ¬ s.InRange a start length then fail s .huffBadLength
    else
      match s.bb.clear.appendAll s.cfg.bbPhysBits ((s.range a start length).flatMap octetBits) with
      | (bb, false) => fail (s.setBb bb) .allocFail
      | (bb, true) =>
        let out := s.hc.trie.walk bb.bits
        if dest + out.length > s.obLen b then fail (s.setBb bb) .huffOutExhausted
        else ok ((s.setBb bb).setOb b (writeRun (s.ob b) dest out)) out.length 0

end Sys2Proof.Machine
end

