-- ==== Sys2Proof/Machine/IntegerCodec.lean ====
section
/-! DEFINITION. The IntegerCodec: the prefix-continuation format and its commands (`42_integercodec.md` R160 to R171). -/

namespace Sys2Proof.Machine

/-- `mask = 2^N - 1`, the largest value the first octet's N bits hold (R161). -/
def widthMask (n : Nat) : Nat := 2 ^ n - 1

/-- The continuation octets of a remainder `r` (the loop of R162): the low seven bits with bit 7 set while `r >= 128`, then
the terminal octet.  The first argument bounds the loop; `r` itself is always enough. -/
def contOctets : Nat → Nat → List Octet
  | 0, r => [BitVec.ofNat 8 r]
  | fuel + 1, r =>
    if r ≥ Config.intRadix then
      BitVec.ofNat 8 (128 + r % Config.intRadix) :: contOctets fuel (r / Config.intRadix)
    else [BitVec.ofNat 8 r]

/-- `IntSeq(v, N)` (R162). -/
def intSeq (v n : Nat) : List Octet :=
  if v < widthMask n then [BitVec.ofNat 8 v]
  else BitVec.ofNat 8 (widthMask n) :: contOctets (v - widthMask n) (v - widthMask n)

/-- The continuation loop of `IntParse` (R163).  `left` is how many continuation octets may still be read, `INT_MAXOCT - 1 - k`,
so that `left = 0` is the check `1 + k >= INT_MAXOCT`; `pos` is `o + 1 + k`, `mult` is `128^k`, `res` the value so far.  The
checks are made in the rule's order: INT_TOO_LONG, INT_TRUNCATED, multiplier overflow, value overflow. -/
def parseCont (maxv : Nat) (d : List Octet) : (left pos mult res : Nat) → Except Cause (Nat × Nat)
  | 0, _, _, _ => .error .intTooLong
  | left + 1, pos, mult, res =>
    match d[pos]? with
    | none => .error .intTruncated
    | some b =>
      if mult > maxv then .error .intOverflow
      else
        let add := b.toNat % Config.intRadix * mult
        if res + add > maxv then .error .intOverflow
        else if b.getLsbD 7 = false then .ok (res + add, pos + 1)
        else parseCont maxv d left (pos + 1) (mult * Config.intRadix) (res + add)

/-- `IntParse(D, o, L, N)` with `L` the length of `D` (R163): the value and the index after it, or the fault. -/
def intParse (maxv : Nat) (d : List Octet) (o n : Nat) : Except Cause (Nat × Nat) :=
  match d[o]? with
  | none => .error .intTruncated
  | some b =>
    let p := b.toNat % 2 ^ n
    if p < widthMask n then .ok (p, o + 1)
    else parseCont maxv d (Config.intMaxOct - 1) (o + 1) 1 (widthMask n)

/-- IC.SETPREFIX (R166): widths 0 to 8, 0 meaning not set. -/
def execIcSetPrefix (width : Octet) (s : State) : Host.Outcome State Fault Refusal :=
  if width.toNat > Config.intWidthMax then fail s .badPrefix
  else ok (s.setIc { s.ic with width := width.toNat }) 0 0

/-- IC.SETOFFSET (R167): any value. -/
def execIcSetOffset (offset : Nat) (s : State) : Host.Outcome State Fault Refusal :=
  ok (s.setIc { s.ic with offset := offset }) 0 0

/-- The target of an IC.ENCODE that ran out of room (R164): its octets from the offset to its end become free values. -/
def spoilTail (a : ObSel) (s : State) : State :=
  let d := s.ob a
  let n := d.length - s.ic.offset
  (s.setOb a (d.take s.ic.offset ++ freeRun s.freeCtr n)).drawFree n

/-- IC.ENCODE (R164). -/
def execIcEncode (a : ObSel) (value : Nat) (s : State) : Host.Outcome State Fault Refusal :=
  withOb s a <|
    if s.ic.width = 0 then fail s .badPrefix
    else
      let seq := intSeq value s.ic.width
      let o := s.ic.offset
      if o + seq.length > s.obLen a then fail (spoilTail a s) .intDestExhausted
      else
        ok ((s.setOb a (writeRun (s.ob a) o seq)).setIc { s.ic with offset := o + seq.length })
          (o + seq.length) seq.length

/-- IC.DECODE (R165). -/
def execIcDecode (a : ObSel) (s : State) : Host.Outcome State Fault Refusal :=
  withOb s a <|
    if s.ic.width = 0 then fail s .badPrefix
    else
      match intParse s.cfg.maxWord (s.ob a) s.ic.offset s.ic.width with
      | .error c => fail s c
      | .ok (value, next) => ok (s.setIc { s.ic with offset := next }) value next

/-- IC.RESET (R168). -/
def execIcReset (s : State) : Host.Outcome State Fault Refusal :=
  ok (s.setIc IntegerCodec.reset) 0 0

end Sys2Proof.Machine
end

