-- ==== Sys2Proof/Machine/OctetBuffer.lean ====
section
/-! DEFINITION. The OctetBuffer commands (`41_octetbuffer.md` R140 to R147). -/

namespace Sys2Proof.Machine

/-- OB.INIT (R141): the capacity raised to the floor, every octet 0. -/
def execObInit (a : ObSel) (capacity : Nat) (s : State) : Host.Outcome State Fault Refusal :=
  withOb s a <|
    let len := max capacity s.cfg.obFloor
    if len > s.cfg.obPhys then fail s .obCapacity
    else ok (s.setOb a (List.replicate len 0#8)) len 0

/-- OB.SET (R142): out of range the write is dropped and it is not a fault. -/
def execObSet (a : ObSel) (value : Octet) (index : Nat) (s : State) : Host.Outcome State Fault Refusal :=
  withOb s a <|
    if index < s.obLen a then ok (s.setOb a ((s.ob a).set index value)) 0 0
    else ok s 0 0

/-- OB.GET (R143): the octet zero-extended. -/
def execObGet (a : ObSel) (index : Nat) (s : State) : Host.Outcome State Fault Refusal :=
  withOb s a <|
    match s.octet a index with
    | none => fail s .obReadRange
    | some v => ok s v.toNat 0

/-- OB.LEN (R144). -/
def execObLen (a : ObSel) (s : State) : Host.Outcome State Fault Refusal :=
  withOb s a <| ok s (s.obLen a) 0

/-- OB.LOADBITS (R145): the BitBuffer's whole octets replace the contents; a no-op when it is empty. -/
def execObLoadBits (a : ObSel) (s : State) : Host.Outcome State Fault Refusal :=
  withOb s a <|
    if s.bb.len = 0 then ok s (s.obLen a) 0
    else
      let n := s.bb.len / 8
      if n > s.cfg.obPhys then fail s .obCapacity
      else ok (s.setOb a (s.bb.octets n)) n 0

/-- OB.COPY (R146): a value copy of buffer `b` onto buffer `a`. -/
def execObCopy (a b : ObSel) (s : State) : Host.Outcome State Fault Refusal :=
  withObs s a b <| ok (s.setOb a (s.ob b)) (s.obLen b) 0

end Sys2Proof.Machine
end

