-- ==== Sys2Proof/Machine/System.lean ====
section
/-! DEFINITION. The system command (`47_system.md` R265). -/

namespace Sys2Proof.Machine

/-- SYS.RDCSR (R265): R0 the register's value as it was before this command's own response (R42); an unassigned number is
ILLEGAL_CMD. -/
def execSysRdcsr (reg : Octet) (s : State) : Host.Outcome State Fault Refusal :=
  match s.csr reg with
  | some v => ok s v 0
  | none => fail s .illegalCmd

end Sys2Proof.Machine
end

