-- ==== Sys2Proof/Machine/Dispatch.lean ====
section
/-! DEFINITION. One arm per command, each one call of its meaning. -/

namespace Sys2Proof.Machine

/-- The effect of a decoded command. -/
def exec (i : Instr) (s : State) : Host.Outcome State Fault Refusal :=
  match i with
  | .sysRdcsr reg => Sys2Proof.Machine.execSysRdcsr reg s
  | .bbAppendBit bit => Sys2Proof.Machine.execBbAppendBit bit s
  | .bbAppendOct octet => Sys2Proof.Machine.execBbAppendOct octet s
  | .bbAt pos => Sys2Proof.Machine.execBbAt pos s
  | .bbPut bit pos => Sys2Proof.Machine.execBbPut bit pos s
  | .bbLen => Sys2Proof.Machine.execBbLen s
  | .bbClear => Sys2Proof.Machine.execBbClear s
  | .obInit a capacity => Sys2Proof.Machine.execObInit a capacity s
  | .obSet a value index => Sys2Proof.Machine.execObSet a value index s
  | .obGet a index => Sys2Proof.Machine.execObGet a index s
  | .obLen a => Sys2Proof.Machine.execObLen a s
  | .obLoadBits a => Sys2Proof.Machine.execObLoadBits a s
  | .obCopy a b => Sys2Proof.Machine.execObCopy a b s
  | .icSetPrefix width => Sys2Proof.Machine.execIcSetPrefix width s
  | .icSetOffset offset => Sys2Proof.Machine.execIcSetOffset offset s
  | .icEncode a value => Sys2Proof.Machine.execIcEncode a value s
  | .icDecode a => Sys2Proof.Machine.execIcDecode a s
  | .icReset => Sys2Proof.Machine.execIcReset s
  | .hcEncode a start length => Sys2Proof.Machine.execHcEncode a start length s
  | .hcDecode a b start length dest => Sys2Proof.Machine.execHcDecode a b start length dest s
  | .htGet a b index => Sys2Proof.Machine.execHtGet a b index s
  | .htPut a b nameStart nameLen valueStart valueLen => Sys2Proof.Machine.execHtPut a b nameStart nameLen valueStart valueLen s
  | .htUpdCap capacity => Sys2Proof.Machine.execHtUpdCap capacity s
  | .htIsFull => Sys2Proof.Machine.execHtIsFull s

end Sys2Proof.Machine
end

