-- ==== Sys2Proof/Machine/Step.lean ====
section
/-! DEFINITION. One step: the core takes the host's next input (`10_state.md` R20, R24; `30_encoding.md` R100, R101;
`70_reset_and_hazards.md` R320, R321). -/

namespace Sys2Proof.Machine

/-- One step.  A packet is decoded before anything else (R100) and its command runs to completion; a packet that selects no command
raises ILLEGAL_CMD (R97 to R100).  A reset puts the core in its reset state (R320).  With nothing presented the core waits
(R321; log entry 4). -/
def step (s : State) : Host.Outcome State Fault Refusal :=
  match s.nextInput with
  | none => .next s
  | some .reset => .next s.advance.applyReset
  | some (.packet p) =>
    match decode s.cfg p with
    | .error _ => fail s.advance .illegalCmd
    | .ok i => exec i s.advance

/-- The state with the packet of an opcode-table word as the host's next input, so that the next step runs it. -/
def State.withFetchWord (s : State) (nbits w : Nat) : State :=
  s.presentNext (packetOfBits s.cfg nbits w)

end Sys2Proof.Machine
end

