-- ==== Sys2Proof/Safety.lean ====
section
/-! DEFINITION. The terms claims are made in: the invariants of every component (`10_state.md` R26 to R40), the state a faulting
command leaves (`60_exceptions.md` R281, R282), what "room" in the BitBuffer means (`40_bitbuffer.md` R121), what an encoded
integer denotes (`42_integercodec.md` R161, R163), a run of commands (`10_state.md` R24) and the pairs it put
(`45_headertable.md` R234), the operand words a command uses (`30_encoding.md` R95), and a run with no fault recorded
(`60_exceptions.md` R283). -/

namespace Sys2Proof.Machine

/-- The BitBuffer's invariant (R26, R27, R28): canonical storage inside the allocated octets; a capacity of BB_INIT_CAP * 2^k bits,
a whole number of octets and at most BB_PHYS_BITS; `BB.len <= BB.cap`; every allocated bit at or beyond `BB.len` is 0. -/
structure BitBuffer.Inv (c : Config) (bb : BitBuffer) : Prop where
  wf : Memory.wf bb.store
  inside : ∀ x ∈ bb.store, 8 * x.1 < bb.cap
  doubled : ∃ k, bb.cap = c.bbInitCap * 2 ^ k
  whole : 8 ∣ bb.cap
  cap_le : bb.cap ≤ c.bbPhysBits
  len_le : bb.len ≤ bb.cap
  zero : ∀ p < bb.cap, bb.len ≤ p → bb.bitRead p = false

/-- The HeaderTable's invariant (R40, R237): `table_size` is the sum of the entries' overheads and at most `table_capacity`, which
is at most HT_MAX_CAPACITY; `dynamic_length` is the number of entries. -/
structure HeaderTable.Inv (c : Config) (t : HeaderTable) : Prop where
  size_eq : t.size = (t.dyn.map Pair.overhead).sum
  size_le : t.size ≤ t.capacity
  cap_le : t.capacity ≤ c.htMaxCapacity
  count_eq : t.count = t.dyn.length

/-- The whole state's invariant: a configuration within R9; RC a code of R281, result words of XLEN bits and 0 after a fault
(R21, R282); FAULT of XLEN bits with bits 1 to 17 only, the last fault's bit among them where FAULT has it (R25, R282; log
entry 10); NOB OctetBuffers of at most OB_PHYS octets (R29); IC.prefix at most 8 and IC.offset of XLEN bits (R31, R32); the
trie that reset built (R35, R36); the two component invariants. -/
structure State.Inv (s : State) : Prop where
  cfg : s.cfg.Valid
  rc_le : s.rc.toNat ≤ 17
  r0_lt : s.r0 < 2 ^ s.cfg.xlen
  r1_lt : s.r1 < 2 ^ s.cfg.xlen
  zero_result : s.rc ≠ 0 → s.r0 = 0 ∧ s.r1 = 0
  fault_lt : s.fault < 2 ^ s.cfg.xlen
  fault_bits : ∀ c, s.fault.testBit c = true → 1 ≤ c ∧ c ≤ 17
  recorded : s.rc ≠ 0 → s.rc.toNat < s.cfg.xlen → s.fault.testBit s.rc.toNat = true
  bb : s.bb.Inv s.cfg
  obs_count : s.obs.length = s.cfg.nob
  obs_len : ∀ d ∈ s.obs, d.length ≤ s.cfg.obPhys
  width_le : s.ic.width ≤ 8
  offset_lt : s.ic.offset < 2 ^ s.cfg.xlen
  hc : s.hc = buildTrie s.cfg.codeRom s.cfg.trieNodes
  ht : s.ht.Inv s.cfg

/-- The state after a fault with completion code `code` that changes nothing else (R282): RC the code, R0 = R1 = 0, FAULT[code] set
(a bit of an XLEN-bit register, so only for `code < XLEN`; log entry 10). -/
def State.withFault (s : State) (code : Nat) : State :=
  { s with
    rc := BitVec.ofNat 8 code
    r0 := 0
    r1 := 0
    fault := if code < s.cfg.xlen then s.fault ||| 2 ^ code else s.fault }

/-- The BitBuffer can take `n` more bits: some number of doublings within BB_PHYS_BITS makes room for them (R121). -/
def BitBuffer.HasRoom (phys : Nat) (bb : BitBuffer) (n : Nat) : Prop :=
  ∃ k, bb.cap * 2 ^ k ≤ phys ∧ bb.len + n ≤ bb.cap * 2 ^ k

/-- `bb'` is `bb` with `bits` appended (R121): the bits in order at the end, the invariant kept, and no more doublings than the
bits made necessary. -/
structure BitBuffer.Appended (c : Config) (bb : BitBuffer) (bits : List Bool) (bb' : BitBuffer) : Prop where
  bits_eq : bb'.bits = bb.bits ++ bits
  inv : bb'.Inv c
  cap_min : bb'.cap = bb.cap ∨ (bb.cap < bb'.cap ∧ bb'.cap < 2 * bb'.len)

/-- `d'` is `d` with the octets `seq` written from index `o` on, and nothing else changed. -/
structure WrittenAt (d : OctetBuffer) (o : Nat) (seq : List Octet) (d' : OctetBuffer) : Prop where
  length_eq : d'.length = d.length
  inside : ∀ j < seq.length, d'[o + j]? = seq[j]?
  outside : ∀ k, (k < o ∨ o + seq.length ≤ k) → d'[k]? = d[k]?

/-- The value of continuation octets, least significant group first (R70, R161): the sum of `g_k * 128^k`. -/
def groupSum : List Octet → Nat
  | [] => 0
  | b :: l => b.toNat % 128 + 128 * groupSum l

/-- Octets `seq` stand in `d` from index `o` on. -/
def StandsAt (d : OctetBuffer) (o : Nat) (seq : List Octet) : Prop :=
  o + seq.length ≤ d.length ∧ ∀ j < seq.length, d[o + j]? = seq[j]?

/-- A reading of an integer has got past the first octet `b0`, whose low `n` bits are the mask, and the continuation octets `body`,
every one of which says that another follows; nothing overflowed so far (R163). -/
structure Continues (maxv : Nat) (d : OctetBuffer) (o n : Nat) (b0 : Octet) (body : List Octet) : Prop where
  stands : StandsAt d o (b0 :: body)
  mask : b0.toNat % 2 ^ n = 2 ^ n - 1
  more : ∀ b ∈ body, b.getLsbD 7 = true
  short : body.length ≤ 7
  mult : ∀ k < body.length, 128 ^ k ≤ maxv
  sum : 2 ^ n - 1 + groupSum body ≤ maxv

/-- Run a list of commands one after the other, each from the state the one before left (R24). -/
def execAll : List Instr → State → Option State
  | [], s => some s
  | i :: is, s =>
    match exec i s with
    | .next t => execAll is t
    | .fault _ => none
    | .refused _ => none

/-- The pair a command put into the dynamic table: for an HT.PUT run at state `u` that completed with OK in state `v`, the two ranges
of its buffers as they stood at `u` (R234); for every other command none. -/
def pairPut (i : Instr) (u v : State) : Option Pair :=
  match i with
  | .htPut a b nameStart nameLen valueStart valueLen =>
    if v.rc = rcOk then some ⟨u.range a nameStart nameLen, u.range b valueStart valueLen⟩ else none
  | _ => none

/-- The pairs put along a run of commands, the last one first (R39, R66, R234). -/
def pairsPut : List Instr → State → List Pair
  | [], _ => []
  | i :: is, u =>
    match exec i u with
    | .next v => pairsPut is v ++ (pairPut i u v).toList
    | .fault _ => []
    | .refused _ => []

/-- How many of the operand words A0 to A3 a command uses; it uses the first ones (the columns A0 to A3 of R95). -/
def operandWords : Instr → Nat
  | .sysRdcsr _ => 0
  | .bbAppendBit _ => 0
  | .bbAppendOct _ => 0
  | .bbAt _ => 1
  | .bbPut _ _ => 1
  | .bbLen => 0
  | .bbClear => 0
  | .obInit _ _ => 1
  | .obSet _ _ _ => 1
  | .obGet _ _ => 1
  | .obLen _ => 0
  | .obLoadBits _ => 0
  | .obCopy _ _ => 0
  | .icSetPrefix _ => 0
  | .icSetOffset _ => 1
  | .icEncode _ _ => 1
  | .icDecode _ => 0
  | .icReset => 0
  | .hcEncode _ _ _ => 2
  | .hcDecode _ _ _ _ _ => 3
  | .htGet _ _ _ => 1
  | .htPut _ _ _ _ _ _ => 4
  | .htUpdCap _ => 1
  | .htIsFull => 0

/-- "no fault recorded" (R283): the safety predicate the spec asks claims about buffer contents to carry (R327). -/
def State.noFaultRecorded (s : State) : Prop := s.fault = 0

end Sys2Proof.Machine
end

