-- ==== Sys2Proof/Certificates/Slice0/Obligations.lean ====
section
/-! DEFINITION. The statements for the provers.  Each names the rule of the spec it comes from.  A statement of the form
`exec i s = .next { s with … }` says three things at once: the command completes, what it changes, and that nothing else of
the state changes (its frame).  `withFault` sets a bit of FAULT that an XLEN-bit register has: every configuration R9 allows has XLEN
of 13 or more (4096 <= HT_MAX_CAPACITY < 2^XLEN), so only the codes 13 to 17 with XLEN of 13 to 17 can be without a bit,
where FAULT stays as it was by the model's choice (log entry 10).  The statements about those codes say so. -/

open Sys2Proof Sys2Proof.Machine

/-! ## Decoding and encoding -/

/-- Every well-formed command's packet decodes to that command, every operand at every value the encoding admits (R92 to R96,
R101). -/
def Obligations.DecodingTheEncodingGivesTheCommand : Prop :=
  ∀ (c : Config) (i : Instr), i.wf c = true → decode c (encode i) = .ok i

/-- What the decoder answers is well formed, its encoding has the command word that was presented and decodes to it again (R95,
R97, R101), and each operand word of the encoding is the presented one, read through its low XLEN bits (the model's choice
for a number no host can present, log entry 9), or 0.  Which of the two it is, is `UnusedOperandWordsAreIgnored`. -/
def Obligations.DecodedCommandReencodesToTheWord : Prop :=
  ∀ (c : Config) (p : Packet) (i : Instr), decode c p = .ok i →
    i.wf c = true ∧ (encode i).cmd = p.cmd ∧ decode c (encode i) = .ok i ∧
    ((encode i).a0 = p.a0 % 2 ^ c.xlen ∨ (encode i).a0 = 0) ∧
    ((encode i).a1 = p.a1 % 2 ^ c.xlen ∨ (encode i).a1 = 0) ∧
    ((encode i).a2 = p.a2 % 2 ^ c.xlen ∨ (encode i).a2 = 0) ∧
    ((encode i).a3 = p.a3 % 2 ^ c.xlen ∨ (encode i).a3 = 0)

/-- R95: "Since the masks all include bits 31:24 and the 24 opcodes differ, no CMD word matches two rows." -/
def Obligations.NoWordMatchesTwoRows : Prop :=
  rows.length = 24 ∧ (∀ r ∈ rows, r.mask.extractLsb' 24 8 = 0xFF#8) ∧
  ∀ (w : BitVec 32) (m n : Fin rows.length),
    (rows[m]).selects w = true → (rows[n]).selects w = true → m = n

/-- R97: a command word that matches no row, and each kind of word the rule names, raises ILLEGAL_CMD and changes nothing but RC,
R0, R1 and FAULT (and the host's place in its stream). -/
def Obligations.UnassignedWordsRaiseIllegalCmd : Prop :=
  ∀ (s : State) (p : Packet), s.stream[s.index]? = some (.packet p) →
    ((∀ r ∈ rows, r.selects p.cmd = false) ∨
      cmdOpcode p.cmd ∉ [0x01#8, 0x10#8, 0x11#8, 0x12#8, 0x13#8, 0x14#8, 0x15#8, 0x20#8, 0x21#8, 0x22#8, 0x23#8, 0x24#8,
        0x25#8, 0x30#8, 0x31#8, 0x32#8, 0x33#8, 0x34#8, 0x40#8, 0x41#8, 0x50#8, 0x51#8, 0x52#8, 0x53#8] ∨
      cmdZero p.cmd ≠ 0#8 ∨
      (cmdOpcode p.cmd ∈ [0x01#8, 0x10#8, 0x11#8, 0x12#8, 0x13#8, 0x14#8, 0x15#8, 0x30#8, 0x31#8, 0x34#8, 0x52#8, 0x53#8] ∧
        cmdObA p.cmd ≠ 0#4) ∨
      (cmdOpcode p.cmd ∉ [0x25#8, 0x41#8, 0x50#8, 0x51#8] ∧ cmdObB p.cmd ≠ 0#4) ∨
      (cmdOpcode p.cmd ∉ [0x01#8, 0x10#8, 0x11#8, 0x13#8, 0x21#8, 0x30#8] ∧ cmdImm8 p.cmd ≠ 0#8) ∨
      (cmdOpcode p.cmd ∈ [0x10#8, 0x13#8] ∧ cmdImm8 p.cmd ≠ 0#8 ∧ cmdImm8 p.cmd ≠ 1#8)) →
    step s = .next ({ s with index := s.index + 1 }.withFault 1)

/-- R98, R99: a command word that matches a row but whose used selector is NOB or larger, and HT.GET with `obA = obB`, raise
ILLEGAL_CMD, whatever the operand words; every other two-buffer command accepts `obA = obB`. -/
def Obligations.SelectorChecksRaiseIllegalCmd : Prop :=
  (∀ (s : State) (p : Packet) (i : Instr), s.stream[s.index]? = some (.packet p) → p.cmd = (encode i).cmd →
    i.selectorsLegal s.cfg = false →
    step s = .next ({ s with index := s.index + 1 }.withFault 1)) ∧
  (∀ (c : Config) (a b : ObSel) (u : Nat), (c.nob ≤ a.toNat ∨ c.nob ≤ b.toNat ∨ a = b) →
    (Instr.htGet a b u).selectorsLegal c = false) ∧
  ∀ (c : Config) (a : ObSel) (x y z w : Nat), a.toNat < c.nob → x < 2 ^ c.xlen → y < 2 ^ c.xlen → z < 2 ^ c.xlen →
    w < 2 ^ c.xlen →
    decode c (encode (.obCopy a a)) = .ok (.obCopy a a) ∧
    decode c (encode (.hcDecode a a x y z)) = .ok (.hcDecode a a x y z) ∧
    decode c (encode (.htPut a a x y z w)) = .ok (.htPut a a x y z w)

/-- A few command words written out from R94, R95 and R103 decode to the commands they stand for. -/
def Obligations.WrittenWordsDecodeAsTheSpecSays : Prop :=
  decodeTableWord 32 0x30000005 = some (.icSetPrefix 5) ∧
  decodeTableWord 32 0x21100074 = some (.obSet 1 0x74 0) ∧
  decodeTableWord 32 0x41010000 = some (.hcDecode 0 1 0 0 0) ∧
  decodeTableWord 32 0x01000030 = some (.sysRdcsr 0x30) ∧
  decodeTableWord 32 0x13000001 = some (.bbPut true 0) ∧
  decodeTableWord 32 0x50230000 = some (.htGet 2 3 0) ∧
  decodeTableWord 32 0x10000002 = none ∧
  decode Config.default ⟨0x51010000#32, 9, 8, 7, 6⟩ = .ok (.htPut 0 1 9 8 7 6)

/-! ## The step, reset, and whole-machine rules -/

/-- When the host's next packet decodes to a command, one step is that command, with the host's index advanced by exactly 1 (R24,
R101). -/
def Obligations.StepRunsTheDecodedCommand : Prop :=
  ∀ (s : State) (p : Packet) (i : Instr), s.stream[s.index]? = some (.packet p) → decode s.cfg p = .ok i →
    step s = exec i { s with index := s.index + 1 }

/-- R24: every packet, whatever its completion code, advances the host's index by exactly 1 and leaves the stream and the
configuration as they are (the stream and its index stand in State by the model's choice, log entry 3). -/
def Obligations.EveryPacketAdvancesTheIndexByOne : Prop :=
  ∀ (s t : State) (p : Packet), s.stream[s.index]? = some (.packet p) → step s = .next t →
    t.index = s.index + 1 ∧ t.stream = s.stream ∧ t.cfg = s.cfg

/-- With nothing presented the core waits (R321; that waiting is a step that changes nothing is the model's choice, log entry 4). -/
def Obligations.WaitingChangesNothing : Prop :=
  ∀ (s : State), s.stream.length ≤ s.index → step s = .next s

/-- R45: every piece of state after reset, for every configuration with the code ROM of R220. -/
def Obligations.ResetLeavesTheListedValues : Prop :=
  ∀ (c : Config), c.Valid → c.codeRom = codeRom →
    let s := State.resetOf c
    s.rc = 0 ∧ s.r0 = 0 ∧ s.r1 = 0 ∧ s.fault = 0 ∧
    s.bb.len = 0 ∧ s.bb.cap = c.bbInitCap ∧ (∀ p < s.bb.cap, s.bb.bitRead p = false) ∧
    s.obs.length = c.nob ∧ (∀ i < c.nob, s.obs[i]? = some (List.replicate c.obFloor 0#8)) ∧
    s.ic.width = 0 ∧ s.ic.offset = 0 ∧
    s.hc = buildTrie codeRom c.trieNodes ∧ s.hc.ready = decide (513 ≤ c.trieNodes) ∧
    s.ht.dyn = [] ∧ s.ht.size = 0 ∧ s.ht.count = 0 ∧ s.ht.capacity = 4096

/-- A reset presented by the host puts the whole core in its reset state, whatever it held; the configuration stays (R320; that a
reset is an input of the stream is the model's choice, log entry 5). -/
def Obligations.ResetInputRestoresTheResetState : Prop :=
  ∀ (s : State), s.stream[s.index]? = some .reset →
    step s = .next { State.resetOf s.cfg with
      freeCtr := s.freeCtr, stream := s.stream, index := s.index + 1 }

/-- The invariant of `State.Inv` holds after reset, for every configuration R9 allows (R27, R28, R40, R45). -/
def Obligations.StateInvariantHoldsAfterReset : Prop :=
  ∀ (c : Config), c.Valid → (State.resetOf c).Inv

/-- From every state that meets it, every step keeps the invariant: whatever packet, whatever operand words, faulting or not (R21,
R25 to R32, R36, R40, R128, R237, R282). -/
def Obligations.EveryStepKeepsTheStateInvariant : Prop :=
  ∀ (s t : State), s.Inv → step s = .next t → t.Inv

/-- Every step, from every state, answers a next state: no outcome of a command stops the core (R282, R331). -/
def Obligations.EveryStepAnswersANextState : Prop :=
  ∀ (s : State), ∃ t, step s = .next t

/-- R282 with the codes of R281: a command that ends with a fault has RC a code from 1 to 17, R0 = R1 = 0 and that bit of FAULT
set, no other bit of FAULT changed; one that ends without leaves FAULT alone.  That FAULT stays as it was when it has no such
bit, the code being XLEN or more, is the model's choice (log entry 10). -/
def Obligations.CompletionCodeResultsAndFaultAgree : Prop :=
  ∀ (i : Instr) (s t : State), exec i s = .next t →
    (t.rc = 0 ∧ t.fault = s.fault) ∨
    ∃ code, 1 ≤ code ∧ code ≤ 17 ∧ t.rc = BitVec.ofNat 8 code ∧ t.r0 = 0 ∧ t.r1 = 0 ∧
      t.fault = if code < s.cfg.xlen then s.fault ||| 2 ^ code else s.fault

/-- R25, R283: "A set bit stays set until reset; no command clears it." -/
def Obligations.FaultBitsStaySetUntilReset : Prop :=
  ∀ (s t : State) (k : Nat), s.stream[s.index]? ≠ some .reset → step s = .next t →
    s.fault.testBit k = true → t.fault.testBit k = true

/-- If no fault is recorded at the end of a run of commands (and FAULT is wide enough to hold every code), every command of it
completed with OK (R283, R327). -/
def Obligations.NoFaultRecordedMeansEveryCommandCompleted : Prop :=
  ∀ (before after : List Instr) (i : Instr) (s t : State), 18 ≤ s.cfg.xlen →
    execAll (before ++ i :: after) s = some t → t.noFaultRecorded →
    ∃ u v, execAll before s = some u ∧ exec i u = .next v ∧ v.rc = 0

/-- The configuration, the SymbolTrie and HC_READY, and the host's stream are changed by no command (R20, R35, R36, R81). -/
def Obligations.NoCommandChangesTheConfigurationOrTheTrie : Prop :=
  ∀ (i : Instr) (s t : State), exec i s = .next t →
    t.cfg = s.cfg ∧ t.hc = s.hc ∧ t.stream = s.stream ∧ t.index = s.index

/-- R287: what a faulting command may have changed besides RC, R0, R1 and FAULT: the BitBuffer, for ALLOC_FAIL of a command that
appends a run (BB.APPENDOCT, HC.ENCODE, HC.DECODE; BB.APPENDBIT leaves it as it was), and for HUFF_OUT_EXHAUSTED of
HC.DECODE; the target buffer's octets from the offset on, for INT_DEST_EXHAUSTED; nothing,
for every other fault. -/
def Obligations.FaultingCommandsChangeOnlyWhatIsListed : Prop :=
  ∀ (i : Instr) (s t : State), exec i s = .next t → t.rc ≠ 0 →
    t.ic = s.ic ∧ t.ht = s.ht ∧
    (t.rc ≠ 7#8 → t.obs = s.obs ∧ t.freeCtr = s.freeCtr) ∧
    (t.rc ≠ 2#8 → t.rc ≠ 14#8 → t.bb = s.bb) ∧
    (t.rc = 2#8 → (∀ v, i ≠ .bbAppendOct v) → (∀ a st n, i ≠ .hcEncode a st n) → (∀ a b st n d, i ≠ .hcDecode a b st n d) →
      ∃ bit, i = .bbAppendBit bit ∧ t.bb = s.bb) ∧
    (t.rc = 14#8 → ∃ a b st n d, i = .hcDecode a b st n d) ∧
    (t.rc = 7#8 → ∃ a v, i = .icEncode a v ∧ t.obs.length = s.obs.length ∧
      (∀ b, b ≠ a → t.ob b = s.ob b) ∧ t.obLen a = s.obLen a ∧
      ∀ k < s.ic.offset, t.octet a k = s.octet a k)

/-- Which component each family of commands may change, and no other (R83, R120, R230): BB.* the BitBuffer, OB.* the OctetBuffers,
IC.* the IntegerCodec and (encoding) the OctetBuffers, HC.ENCODE the BitBuffer, HC.DECODE the BitBuffer and the
OctetBuffers, HT.GET the OctetBuffers, HT.PUT and HT.UPDCAP the table, SYS.RDCSR and the queries nothing. -/
def Obligations.EachFamilyTouchesOnlyItsComponents : Prop :=
  ∀ (i : Instr) (s t : State), exec i s = .next t →
    (i.opcode ∉ [0x10#8, 0x11#8, 0x13#8, 0x15#8, 0x40#8, 0x41#8] → t.bb = s.bb) ∧
    (i.opcode ∉ [0x20#8, 0x21#8, 0x24#8, 0x25#8, 0x32#8, 0x41#8, 0x50#8] → t.obs = s.obs) ∧
    (i.opcode ∉ [0x30#8, 0x31#8, 0x32#8, 0x33#8, 0x34#8] → t.ic = s.ic) ∧
    (i.opcode ∉ [0x51#8, 0x52#8] → t.ht = s.ht) ∧
    (i.opcode ≠ 0x32#8 → t.freeCtr = s.freeCtr)

/-- R140: an OctetBuffer's length "is set when it is constructed (OB.INIT), bulk-loaded (OB.LOADBITS) or copied onto (OB.COPY), and by
nothing else". -/
def Obligations.OctetBufferLengthsChangeOnlyByThreeCommands : Prop :=
  ∀ (i : Instr) (s t : State) (b : ObSel), exec i s = .next t →
    (∀ n, i ≠ .obInit b n) → i ≠ .obLoadBits b → (∀ src, i ≠ .obCopy b src) →
    t.obLen b = s.obLen b

/-- R120: the BitBuffer shrinks only by BB.CLEAR and by the clear inside HC.DECODE, and no command but those two turns a 1 bit
below `BB.len` into 0; its capacity never shrinks. -/
def Obligations.BitBufferShrinksOnlyByClearing : Prop :=
  ∀ (i : Instr) (s t : State), s.cfg.Valid → s.bb.Inv s.cfg → exec i s = .next t →
    s.bb.cap ≤ t.bb.cap ∧
    (i ≠ .bbClear → (∀ a b st n d, i ≠ .hcDecode a b st n d) →
      s.bb.len ≤ t.bb.len ∧ ∀ p < s.bb.len, s.bb.bitRead p = true → t.bb.bitRead p = true)

/-- R21: "No command reads RC, R0 or R1: they are outputs only." -/
def Obligations.NoCommandReadsTheResponseRegisters : Prop :=
  ∀ (i : Instr) (s : State) (rc : BitVec 8) (r0 r1 : Nat),
    exec i { s with rc := rc, r0 := r0, r1 := r1 } = exec i s

/-- R25: "FAULT is read by SYS.RDCSR only and no command's behaviour depends on it". -/
def Obligations.OnlyRdcsrDependsOnTheFaultRegister : Prop :=
  ∀ (i : Instr) (s t u : State) (f : Nat), i ≠ .sysRdcsr 0 → exec i s = .next t →
    exec i { s with fault := f } = .next u → u = { t with fault := u.fault }

/-! ## System command -/

/-- R265: what SYS.RDCSR reads, and the fault for every unassigned number. -/
def Obligations.RdcsrReadsTheNumberedRegisters : Prop :=
  ∀ (s : State), s.obs.length = s.cfg.nob → s.cfg.Valid →
    let reads (reg : Octet) (v : Nat) : Prop := exec (.sysRdcsr reg) s = .next { s with rc := 0, r0 := v, r1 := 0 }
    reads 0x00 s.fault ∧ reads 0x02 (if s.hc.ready then 1 else 0) ∧ reads 0x10 s.bb.len ∧ reads 0x11 s.bb.cap ∧
    reads 0x20 s.ic.width ∧ reads 0x21 s.ic.offset ∧ reads 0x30 s.ht.size ∧ reads 0x31 s.ht.capacity ∧
    reads 0x32 s.ht.count ∧ (∀ a : ObSel, a.toNat < s.cfg.nob → reads (BitVec.ofNat 8 (0x40 + a.toNat)) (s.obLen a)) ∧
    ∀ reg : Octet, reg ∉ [0x00#8, 0x02#8, 0x10#8, 0x11#8, 0x20#8, 0x21#8, 0x30#8, 0x31#8, 0x32#8] →
      ¬ (0x40 ≤ reg.toNat ∧ reg.toNat < 0x40 + s.cfg.nob) → exec (.sysRdcsr reg) s = .next (s.withFault 1)

/-! ## BitBuffer -/

/-- R122: BB.APPENDBIT, with the append of R121. -/
def Obligations.AppendBitAppendsOrFailsUnchanged : Prop :=
  ∀ (s : State) (bit : Bool), s.cfg.Valid → s.bb.Inv s.cfg →
    (¬ (s.bb.len = s.bb.cap ∧ 2 * s.bb.cap > s.cfg.bbPhysBits) →
      ∃ bb, exec (.bbAppendBit bit) s = .next { s with rc := 0, r0 := s.bb.len + 1, r1 := 0, bb := bb } ∧
        s.bb.Appended s.cfg [bit] bb ∧ bb.cap = if s.bb.len = s.bb.cap then 2 * s.bb.cap else s.bb.cap) ∧
    (s.bb.len = s.bb.cap ∧ 2 * s.bb.cap > s.cfg.bbPhysBits →
      exec (.bbAppendBit bit) s = .next (s.withFault 2))

/-- R123: BB.APPENDOCT appends the octet's bits, the most significant first; without room the leading bits that fit stay and the
buffer is full and cannot double (R121). -/
def Obligations.AppendOctAppendsEightBitsOrTheLeadingOnes : Prop :=
  ∀ (s : State) (v : Octet), s.cfg.Valid → s.bb.Inv s.cfg →
    let bits := (List.range 8).map fun j => v.getLsbD (7 - j)
    (s.bb.HasRoom s.cfg.bbPhysBits 8 →
      ∃ bb, exec (.bbAppendOct v) s = .next { s with rc := 0, r0 := s.bb.len + 8, r1 := 0, bb := bb } ∧
        s.bb.Appended s.cfg bits bb) ∧
    (¬ s.bb.HasRoom s.cfg.bbPhysBits 8 →
      ∃ bb n, n < 8 ∧ exec (.bbAppendOct v) s = .next { s.withFault 2 with bb := bb } ∧
        s.bb.Appended s.cfg (bits.take n) bb ∧ bb.len = bb.cap ∧ s.cfg.bbPhysBits < 2 * bb.cap ∧
        (8 ∣ s.bb.len → n = 0 ∧ bb = s.bb))

/-- R124: BB.AT reads the bit of R62 below `BB.len`, and faults at or beyond it. -/
def Obligations.AtReadsTheBitBelowTheLength : Prop :=
  ∀ (s : State) (pos : Nat),
    (pos < s.bb.len → exec (.bbAt pos) s = .next { s with
      rc := 0, r0 := (Memory.read s.bb.store (pos / 8)).toNat / 2 ^ (7 - pos % 8) % 2, r1 := 0 }) ∧
    (s.bb.len ≤ pos → exec (.bbAt pos) s = .next (s.withFault 3))

/-- R125: BB.PUT sets a bit below `BB.len` and never clears one; it faults at or beyond the length for either bit. -/
def Obligations.PutSetsButNeverClears : Prop :=
  ∀ (s : State) (bit : Bool) (pos : Nat), Memory.wf s.bb.store →
    (pos < s.bb.len → ∃ bb, exec (.bbPut bit pos) s = .next { s with rc := 0, r0 := 0, r1 := 0, bb := bb } ∧
      bb.len = s.bb.len ∧ bb.cap = s.bb.cap ∧ Memory.wf bb.store ∧ (bit = false → bb = s.bb) ∧
      ∀ q, bb.bitRead q = if q = pos then (bit || s.bb.bitRead q) else s.bb.bitRead q) ∧
    (s.bb.len ≤ pos → exec (.bbPut bit pos) s = .next (s.withFault 3))

/-- R126: BB.LEN. -/
def Obligations.LenReportsLengthAndCapacity : Prop :=
  ∀ (s : State), exec .bbLen s = .next { s with rc := 0, r0 := s.bb.len, r1 := s.bb.cap }

/-- R127: BB.CLEAR zeroes every allocated bit and the length, and keeps the capacity. -/
def Obligations.ClearZeroesEveryBitAndKeepsTheCapacity : Prop :=
  ∀ (s : State), s.bb.Inv s.cfg →
    ∃ bb, exec .bbClear s = .next { s with rc := 0, r0 := 0, r1 := 0, bb := bb } ∧
      bb.len = 0 ∧ bb.cap = s.bb.cap ∧ bb.store = [] ∧ ∀ p < bb.cap, bb.bitRead p = false

/-- R128 (a), run command by command: after appending any bits one by one to an empty BitBuffer with room for them, BB.LEN gives
their number and BB.AT i the i-th. -/
def Obligations.AppendedBitsReadBackInOrder : Prop :=
  ∀ (s : State) (bits : List Bool), s.cfg.Valid → s.bb.Inv s.cfg → s.bb.len = 0 →
    s.bb.HasRoom s.cfg.bbPhysBits bits.length →
    ∃ t, execAll (bits.map .bbAppendBit) s = some t ∧
      exec .bbLen t = .next { t with rc := 0, r0 := bits.length, r1 := t.bb.cap } ∧
      ∀ (i : Nat) (hi : i < bits.length),
        exec (.bbAt i) t = .next { t with rc := 0, r0 := if bits[i] then 1 else 0, r1 := 0 }

/-! ## OctetBuffers -/

/-- R141: OB.INIT. -/
def Obligations.InitZeroesTheBufferAtTheRaisedCapacity : Prop :=
  ∀ (s : State) (a : ObSel) (capacity : Nat), a.toNat < s.obs.length →
    let len := if capacity < s.cfg.obFloor then s.cfg.obFloor else capacity
    (len ≤ s.cfg.obPhys → exec (.obInit a capacity) s = .next { s with
      rc := 0, r0 := len, r1 := 0, obs := s.obs.set a.toNat (List.replicate len 0#8) }) ∧
    (s.cfg.obPhys < len → exec (.obInit a capacity) s = .next (s.withFault 5))

/-- R142: OB.SET writes one octet in range and drops the write out of range without a fault. -/
def Obligations.SetWritesInRangeAndDropsOutOfRange : Prop :=
  ∀ (s : State) (a : ObSel) (v : Octet) (index : Nat), a.toNat < s.obs.length →
    (index < s.obLen a → ∃ d, exec (.obSet a v index) s = .next { s with
        rc := 0, r0 := 0, r1 := 0, obs := s.obs.set a.toNat d } ∧ WrittenAt (s.ob a) index [v] d) ∧
    (s.obLen a ≤ index → exec (.obSet a v index) s = .next { s with rc := 0, r0 := 0, r1 := 0 })

/-- R143: OB.GET. -/
def Obligations.GetReadsInRangeAndFaultsOutOfRange : Prop :=
  ∀ (s : State) (a : ObSel) (index : Nat), a.toNat < s.obs.length →
    (∀ v, s.octet a index = some v →
      exec (.obGet a index) s = .next { s with rc := 0, r0 := v.toNat, r1 := 0 }) ∧
    (s.obLen a ≤ index → exec (.obGet a index) s = .next (s.withFault 4))

/-- R144: OB.LEN. -/
def Obligations.ObLenReportsTheLength : Prop :=
  ∀ (s : State) (a : ObSel), a.toNat < s.obs.length →
    exec (.obLen a) s = .next { s with rc := 0, r0 := s.obLen a, r1 := 0 }

/-- R145: OB.LOADBITS: octet k is bits 8k to 8k+7 of the BitBuffer, the most significant first; trailing bits are dropped. -/
def Obligations.LoadBitsTakesTheWholeOctets : Prop :=
  ∀ (s : State) (a : ObSel), a.toNat < s.obs.length →
    (s.bb.len = 0 → exec (.obLoadBits a) s = .next { s with rc := 0, r0 := s.obLen a, r1 := 0 }) ∧
    (s.bb.len ≠ 0 → s.bb.len / 8 ≤ s.cfg.obPhys → ∃ d, exec (.obLoadBits a) s = .next { s with
        rc := 0, r0 := s.bb.len / 8, r1 := 0, obs := s.obs.set a.toNat d } ∧ d.length = s.bb.len / 8 ∧
      ∀ k (hk : k < d.length), ∀ j < 8, d[k].getLsbD (7 - j) = s.bb.bitRead (8 * k + j)) ∧
    (s.bb.len ≠ 0 → s.cfg.obPhys < s.bb.len / 8 → exec (.obLoadBits a) s = .next (s.withFault 5))

/-- R146: OB.COPY; every buffer but the destination, and a copy of a buffer onto itself, is unchanged. -/
def Obligations.CopyGivesTheDestinationTheSourcesOctets : Prop :=
  ∀ (s : State) (a b : ObSel), a.toNat < s.obs.length → b.toNat < s.obs.length →
    ∃ t, exec (.obCopy a b) s = .next t ∧ t = { s with rc := 0, r0 := s.obLen b, r1 := 0, obs := t.obs } ∧
      t.ob a = s.ob b ∧ (∀ x, x ≠ a → t.ob x = s.ob x) ∧ (a = b → t.obs = s.obs)

/-! ## IntegerCodec -/

/-- R166: IC.SETPREFIX accepts 0 to 8. -/
def Obligations.SetPrefixAcceptsZeroToEight : Prop :=
  ∀ (s : State) (w : Octet),
    (w.toNat ≤ 8 → exec (.icSetPrefix w) s = .next { s with
      rc := 0, r0 := 0, r1 := 0, ic := { s.ic with width := w.toNat } }) ∧
    (8 < w.toNat → exec (.icSetPrefix w) s = .next (s.withFault 6))

/-- R167: IC.SETOFFSET accepts any value. -/
def Obligations.SetOffsetAcceptsAnyValue : Prop :=
  ∀ (s : State) (o : Nat), exec (.icSetOffset o) s = .next { s with
    rc := 0, r0 := 0, r1 := 0, ic := { s.ic with offset := o } }

/-- R168: IC.RESET zeroes both registers, after which IC.ENCODE and IC.DECODE raise BAD_PREFIX. -/
def Obligations.IcResetUnsetsThePrefix : Prop :=
  ∀ (s : State), ∃ t, exec .icReset s = .next t ∧
    t = { s with rc := 0, r0 := 0, r1 := 0, ic := ⟨0, 0⟩ } ∧
    ∀ (a : ObSel) (v : Nat), a.toNat < s.obs.length →
      exec (.icEncode a v) t = .next (t.withFault 6) ∧ exec (.icDecode a) t = .next (t.withFault 6)

/-- R161, R162, R171: what `IntSeq(v, N)` is, without its loop: one octet below the mask; otherwise the full mask, then octets with
bit 7 set, then one with bit 7 clear, whose groups sum to `v - mask`; the shortest such sequence; and its length. -/
def Obligations.IntSeqIsTheShortestRepresentation : Prop :=
  ∀ (v n : Nat), 1 ≤ n → n ≤ 8 →
    (v < 2 ^ n - 1 → intSeq v n = [BitVec.ofNat 8 v]) ∧
    (2 ^ n - 1 ≤ v → ∃ body last, intSeq v n = BitVec.ofNat 8 (2 ^ n - 1) :: (body ++ [last]) ∧
      (∀ b ∈ body, b.getLsbD 7 = true) ∧ last.getLsbD 7 = false ∧
      v = 2 ^ n - 1 + groupSum (body ++ [last]) ∧ (last = 0#8 → body = []) ∧
      (v = 2 ^ n - 1 → (intSeq v n).length = 2) ∧
      (2 ^ n - 1 < v → (intSeq v n).length = 2 + Nat.log 128 (v - (2 ^ n - 1))))

/-- R164: IC.ENCODE writes the whole representation at the cursor and advances it, or faults with the cursor unchanged and the
octets from the cursor to the end of the target unspecified. -/
def Obligations.EncodeWritesTheWholeIntegerOrFaults : Prop :=
  ∀ (s : State) (a : ObSel) (v : Nat), a.toNat < s.obs.length →
    let seq := intSeq v s.ic.width
    let o := s.ic.offset
    (s.ic.width = 0 → exec (.icEncode a v) s = .next (s.withFault 6)) ∧
    (s.ic.width ≠ 0 → o + seq.length ≤ s.obLen a → ∃ d, exec (.icEncode a v) s = .next { s with
        rc := 0, r0 := o + seq.length, r1 := seq.length, obs := s.obs.set a.toNat d,
        ic := { s.ic with offset := o + seq.length } } ∧ WrittenAt (s.ob a) o seq d) ∧
    (s.ic.width ≠ 0 → s.obLen a < o + seq.length → ∃ d m, exec (.icEncode a v) s = .next { s.withFault 7 with
        obs := s.obs.set a.toNat d, freeCtr := m } ∧ d.length = s.obLen a ∧ ∀ k < o, d[k]? = s.octet a k)

/-- R163, R165: when IC.DECODE accepts and what it gives: the one-octet form, and the form with continuation octets, within eight
octets, the buffer's end and XLEN bits; the bits of the first octet above the width are ignored and the shortest form is
not asked for. -/
def Obligations.DecodeAcceptsTheRepresentations : Prop :=
  ∀ (s : State) (a : ObSel), s.cfg.Valid → a.toNat < s.obs.length → 1 ≤ s.ic.width → s.ic.width ≤ 8 →
    let o := s.ic.offset
    let n := s.ic.width
    (∀ b0, s.octet a o = some b0 → b0.toNat % 2 ^ n < 2 ^ n - 1 →
      exec (.icDecode a) s = .next { s with
        rc := 0, r0 := b0.toNat % 2 ^ n, r1 := o + 1, ic := { s.ic with offset := o + 1 } }) ∧
    (∀ b0 body last, Continues s.cfg.maxWord (s.ob a) o n b0 body → body.length ≤ 6 →
      s.octet a (o + 1 + body.length) = some last → last.getLsbD 7 = false → 128 ^ body.length ≤ s.cfg.maxWord →
      2 ^ n - 1 + groupSum (body ++ [last]) ≤ s.cfg.maxWord →
      exec (.icDecode a) s = .next { s with
        rc := 0, r0 := 2 ^ n - 1 + groupSum (body ++ [last]), r1 := o + 2 + body.length,
        ic := { s.ic with offset := o + 2 + body.length } })

/-- R163, R165, R285: when IC.DECODE faults, with which code, and that nothing else changes. -/
def Obligations.DecodeFaultsInTheOrderOfTheRule : Prop :=
  ∀ (s : State) (a : ObSel), s.cfg.Valid → a.toNat < s.obs.length →
    let o := s.ic.offset
    let n := s.ic.width
    (n = 0 → exec (.icDecode a) s = .next (s.withFault 6)) ∧
    (1 ≤ n → n ≤ 8 → s.obLen a ≤ o → exec (.icDecode a) s = .next (s.withFault 8)) ∧
    (1 ≤ n → n ≤ 8 → ∀ b0 body, Continues s.cfg.maxWord (s.ob a) o n b0 body →
      (body.length = 7 → exec (.icDecode a) s = .next (s.withFault 9)) ∧
      (body.length ≤ 6 → s.obLen a ≤ o + 1 + body.length → exec (.icDecode a) s = .next (s.withFault 8)) ∧
      (∀ b, body.length ≤ 6 → s.octet a (o + 1 + body.length) = some b →
        (s.cfg.maxWord < 128 ^ body.length ∨ s.cfg.maxWord < 2 ^ n - 1 + groupSum (body ++ [b])) →
        exec (.icDecode a) s = .next (s.withFault 10)))

/-- R169: the round trip, and its limit: a value decodes back exactly when it is below the mask + 2^49; at or above, it encodes and
then fails to decode with INT_TOO_LONG. -/
def Obligations.IntegerRoundTrip : Prop :=
  ∀ (s : State) (a : ObSel) (v : Nat), s.cfg.Valid → a.toNat < s.obs.length → 1 ≤ s.ic.width → s.ic.width ≤ 8 →
    v < 2 ^ s.cfg.xlen → s.ic.offset + (intSeq v s.ic.width).length ≤ s.obLen a →
    ∃ t u, exec (.icEncode a v) s = .next t ∧ t.rc = 0 ∧ exec (.icSetOffset s.ic.offset) t = .next u ∧
      (s.cfg.xlen ≤ 49 ∨ v < 2 ^ s.ic.width - 1 + 2 ^ 49 → exec (.icDecode a) u = .next { u with
        rc := 0, r0 := v, r1 := t.r0, ic := { u.ic with offset := t.r0 } }) ∧
      (49 < s.cfg.xlen → 2 ^ s.ic.width - 1 + 2 ^ 49 ≤ v → exec (.icDecode a) u = .next (u.withFault 9))

/-! ## HuffmanCodec -/

/-- R221, R222, R223: the code ROM the spec supplies: 257 codes of 5 to 30 bits, prefix-free and complete, EOS thirty 1 bits and the
only code of 1 bits alone.  (The contents are the spec's general knowledge, log entry 6.) -/
def Obligations.CodeRomIsPrefixFreeAndComplete : Prop :=
  codeRom.length = 257 ∧ (∀ e ∈ codeRom, 5 ≤ e.length ∧ e.length ≤ 30 ∧ e.number < 2 ^ e.length) ∧
  (∀ m n, m < 257 → n < 257 → codeBits (codeOf codeRom m) <+: codeBits (codeOf codeRom n) → m = n) ∧
  (codeRom.map fun e => 2 ^ (30 - e.length)).sum = 2 ^ 30 ∧
  codeOf codeRom 256 = ⟨0x3fffffff, 30⟩ ∧ ∀ m < 256, false ∈ codeBits (codeOf codeRom m)

/-- R36, R194 to R196: the build from that ROM (its contents are log entry 6) succeeds exactly when the arena has 513 slots, and then
uses 513, and every code leads to its symbol. -/
def Obligations.TrieBuildNeedsFiveHundredThirteenNodes : Prop :=
  ∀ slots, 1 ≤ slots →
    (buildTrie codeRom slots).ready = decide (513 ≤ slots) ∧ (buildTrie codeRom slots).used = min slots 513 ∧
    (513 ≤ slots → (buildTrie codeRom slots).trie.nodes = 513 ∧
      ∀ m < 257, (buildTrie codeRom slots).trie.walk (codeBits (codeOf codeRom m)) =
        if m < 256 then [BitVec.ofNat 8 m] else [])

/-- R199: the walk of a padded encoding gives the string back, for every string, with the code ROM of log entry 6. -/
def Obligations.HuffmanWalkInvertsThePaddedEncoding : Prop :=
  ∀ (slots : Nat) (str : Str), 513 ≤ slots →
    (buildTrie codeRom slots).trie.walk (huffPadded codeRom str) = str ∧ 8 ∣ (huffPadded codeRom str).length

/-- R193: HC.ENCODE appends the padded code bits of the range, or faults: too long first, then the range, then room, when the bits
that fitted stay and the buffer is full and cannot double (R121). -/
def Obligations.HuffmanEncodeAppendsThePaddedCode : Prop :=
  ∀ (s : State) (a : ObSel) (start len : Nat), s.cfg.Valid → s.bb.Inv s.cfg → a.toNat < s.obs.length →
    let bits := huffPadded s.cfg.codeRom (((s.ob a).drop start).take len)
    (s.cfg.huffMaxIn < len → exec (.hcEncode a start len) s = .next (s.withFault 12)) ∧
    (len ≤ s.cfg.huffMaxIn → s.obLen a < start + len → exec (.hcEncode a start len) s = .next (s.withFault 4)) ∧
    (len ≤ s.cfg.huffMaxIn → start + len ≤ s.obLen a → s.bb.HasRoom s.cfg.bbPhysBits bits.length →
      ∃ bb, exec (.hcEncode a start len) s = .next { s with rc := 0, r0 := bits.length, r1 := 0, bb := bb } ∧
        s.bb.Appended s.cfg bits bb) ∧
    (len ≤ s.cfg.huffMaxIn → start + len ≤ s.obLen a → ¬ s.bb.HasRoom s.cfg.bbPhysBits bits.length →
      ∃ bb n, n < bits.length ∧ exec (.hcEncode a start len) s = .next { s.withFault 2 with bb := bb } ∧
        s.bb.Appended s.cfg (bits.take n) bb ∧ bb.len = bb.cap ∧ s.cfg.bbPhysBits < 2 * bb.cap)

/-- R198: HC.DECODE, with its faults in order: not ready, bad length, no room for the input (the buffer full and unable to double,
R121), no room for the output; on a fault no octet of the destination is written.  The codes 13 and 14 have a bit in FAULT
only with XLEN above them; that FAULT stays as it was otherwise is the model's choice (log entry 10). -/
def Obligations.HuffmanDecodeWritesTheWalkOfTheRange : Prop :=
  ∀ (s : State) (a b : ObSel) (start len dest : Nat), s.cfg.Valid → s.bb.Inv s.cfg → a.toNat < s.obs.length →
    b.toNat < s.obs.length →
    let inp := ((s.ob a).drop start).take len
    let bits := inp.flatMap fun x => (List.range 8).map fun j => x.getLsbD (7 - j)
    let out := s.hc.trie.walk bits
    let empty : BitBuffer := ⟨[], s.bb.cap, 0⟩
    let run := exec (.hcDecode a b start len dest) s
    (s.hc.ready = false → run = .next (s.withFault 11)) ∧
    (s.hc.ready = true → (len = 0 ∨ s.obLen a < start + len) → run = .next (s.withFault 13)) ∧
    (s.hc.ready = true → len ≠ 0 → start + len ≤ s.obLen a → ¬ empty.HasRoom s.cfg.bbPhysBits (8 * len) →
      ∃ bb n, n < 8 * len ∧ run = .next { s.withFault 2 with bb := bb } ∧
        empty.Appended s.cfg (bits.take n) bb ∧ bb.len = bb.cap ∧ s.cfg.bbPhysBits < 2 * bb.cap) ∧
    (s.hc.ready = true → len ≠ 0 → start + len ≤ s.obLen a → empty.HasRoom s.cfg.bbPhysBits (8 * len) →
      ∃ bb, empty.Appended s.cfg bits bb ∧
        (s.obLen b < dest + out.length → run = .next { s.withFault 14 with bb := bb }) ∧
        (dest + out.length ≤ s.obLen b → ∃ d, run = .next { s with
          rc := 0, r0 := out.length, r1 := 0, bb := bb, obs := s.obs.set b.toNat d } ∧ WrittenAt (s.ob b) dest out d))

/-- R199, command by command, with the code ROM of log entry 6: HC.ENCODE of a non-empty range into an empty BitBuffer, OB.LOADBITS, and
HC.DECODE of the loaded octets give the range back. -/
def Obligations.HuffmanRoundTripThroughTheBuffers : Prop :=
  ∀ (s s1 s2 s3 : State) (a b d : ObSel) (start len dest : Nat), s.Inv → s.cfg.codeRom = codeRom → s.hc.ready = true →
    a.toNat < s.obs.length → b.toNat < s.obs.length → d.toNat < s.obs.length → s.bb.len = 0 → len ≠ 0 →
    exec (.hcEncode a start len) s = .next s1 → s1.rc = 0 →
    exec (.obLoadBits b) s1 = .next s2 → s2.rc = 0 →
    exec (.hcDecode b d 0 (s1.r0 / 8) dest) s2 = .next s3 → dest + len ≤ s2.obLen d →
    8 ∣ s1.r0 ∧ s3.rc = 0 ∧ s3.r0 = len ∧ ((s3.ob d).drop dest).take len = ((s.ob a).drop start).take len

/-! ## HeaderTable -/

/-- R67, R233: HT.GET delivers the pair the unified index resolves to, static or dynamic, or faults (with equal
selectors the decoder refuses it: `SelectorChecksRaiseIllegalCmd`).  The codes 15 and 16 have a bit in FAULT only with XLEN
above them; that FAULT stays as it was otherwise is the model's choice (log entry 10). -/
def Obligations.GetDeliversThePairAtTheUnifiedIndex : Prop :=
  ∀ (s : State) (a b : ObSel) (u : Nat), s.cfg.Valid → s.ht.Inv s.cfg → a.toNat < s.obs.length → b.toNat < s.obs.length →
    a ≠ b →
    let run := exec (.htGet a b u) s
    (u = 0 ∨ 61 + s.ht.count < u → run = .next (s.withFault 15)) ∧
    ∀ p : Pair, (1 ≤ u ∧ u ≤ 61 ∧ s.cfg.staticRom[u - 1]? = some p) ∨ (62 ≤ u ∧ s.ht.dyn[u - 62]? = some p) →
      (s.obLen a < p.name.length ∨ s.obLen b < p.value.length → run = .next (s.withFault 16)) ∧
      (p.name.length ≤ s.obLen a → p.value.length ≤ s.obLen b →
        ∃ t, run = .next t ∧
          t = { s with rc := 0, r0 := p.name.length, r1 := p.value.length, obs := t.obs } ∧
          t.obs.length = s.obs.length ∧ WrittenAt (s.ob a) 0 p.name (t.ob a) ∧ WrittenAt (s.ob b) 0 p.value (t.ob b) ∧
          ∀ x, x ≠ a → x ≠ b → t.ob x = s.ob x)

/-- R232, R234: HT.PUT inserts at the front, then keeps the newest entries as long as they fit the capacity: the longest prefix of
the entries, newest first, whose overheads sum to at most it. -/
def Obligations.PutInsertsInFrontAndEvictsTheOldest : Prop :=
  ∀ (s : State) (a b : ObSel) (ns nl vs vl : Nat), s.ht.Inv s.cfg → a.toNat < s.obs.length → b.toNat < s.obs.length →
    let run := exec (.htPut a b ns nl vs vl) s
    let all : List Pair := ⟨((s.ob a).drop ns).take nl, ((s.ob b).drop vs).take vl⟩ :: s.ht.dyn
    let size (l : List Pair) : Nat := (l.map fun p => 32 + p.name.length + p.value.length).sum
    (s.obLen a < ns + nl ∨ s.obLen b < vs + vl → run = .next (s.withFault 4)) ∧
    (ns + nl ≤ s.obLen a → vs + vl ≤ s.obLen b →
      ∃ k ≤ all.length, run = .next { s with
          rc := 0, r0 := k, r1 := size (all.take k),
          ht := { s.ht with dyn := all.take k, size := size (all.take k), count := k } } ∧
        size (all.take k) ≤ s.ht.capacity ∧ (∀ m, k < m → m ≤ all.length → s.ht.capacity < size (all.take m)) ∧
        (s.ht.capacity < 32 + nl + vl → k = 0))

/-- R232, R235: HT.UPDCAP sets the capacity and keeps the longest prefix of the entries that fits it; within the budget it evicts
nothing; 0 empties the table; a capacity above HT_MAX_CAPACITY is refused.  The code 17 has a bit in FAULT only with XLEN
above it; that FAULT stays as it was otherwise is the model's choice (log entry 10). -/
def Obligations.UpdCapEvictsOnlyWhatDoesNotFit : Prop :=
  ∀ (s : State) (capacity : Nat), s.ht.Inv s.cfg →
    let run := exec (.htUpdCap capacity) s
    let size (l : List Pair) : Nat := (l.map fun p => 32 + p.name.length + p.value.length).sum
    (s.cfg.htMaxCapacity < capacity → run = .next (s.withFault 17)) ∧
    (capacity ≤ s.cfg.htMaxCapacity →
      ∃ k ≤ s.ht.dyn.length, run = .next { s with
          rc := 0, r0 := k, r1 := size (s.ht.dyn.take k),
          ht := ⟨s.ht.dyn.take k, size (s.ht.dyn.take k), capacity, k⟩ } ∧
        size (s.ht.dyn.take k) ≤ capacity ∧
        (∀ m, k < m → m ≤ s.ht.dyn.length → capacity < size (s.ht.dyn.take m)) ∧
        (s.ht.size ≤ capacity → k = s.ht.dyn.length) ∧ (capacity = 0 → k = 0))

/-- R236: HT.ISFULL is the greater-or-equal query and changes nothing. -/
def Obligations.IsFullComparesSizeWithCapacity : Prop :=
  ∀ (s : State),
    (s.ht.capacity ≤ s.ht.size → exec .htIsFull s = .next { s with rc := 0, r0 := 1, r1 := 0 }) ∧
    (s.ht.size < s.ht.capacity → exec .htIsFull s = .next { s with rc := 0, r0 := 0, r1 := 0 })

/-- R230, R234: the dynamic table is FIFO along every run of commands, from every state: its entries are, newest first, a prefix of
the pairs the run's completed HT.PUT commands read from the buffers (the last first) followed by the entries it held before.
How long a prefix each command keeps is `PutInsertsInFrontAndEvictsTheOldest` and `UpdCapEvictsOnlyWhatDoesNotFit`. -/
def Obligations.DynamicTableIsFirstInFirstOut : Prop :=
  ∀ (is : List Instr) (s t : State), execAll is s = some t → t.ht.dyn <+: pairsPut is s ++ s.ht.dyn

/-! ## Operand words -/

/-- R91, R95: "A word a command does not use is ignored, whatever it holds", and each word it does use is read as it stands: a packet
decodes to a command exactly when the command is well formed, the packet has its command word, and the operand words the
command uses are its operands, the others being anything.  (That a number above 2^XLEN - 1, which no host can present, is read
through its low XLEN bits is the model's choice, log entry 9.) -/
def Obligations.UnusedOperandWordsAreIgnored : Prop :=
  ∀ (c : Config) (p : Packet) (i : Instr),
    decode c p = .ok i ↔
      i.wf c = true ∧ p.cmd = (encode i).cmd ∧
      (1 ≤ operandWords i → p.a0 % 2 ^ c.xlen = (encode i).a0) ∧
      (2 ≤ operandWords i → p.a1 % 2 ^ c.xlen = (encode i).a1) ∧
      (3 ≤ operandWords i → p.a2 % 2 ^ c.xlen = (encode i).a2) ∧
      (4 ≤ operandWords i → p.a3 % 2 ^ c.xlen = (encode i).a3)
end

