-- ==== Sys2Proof/Laws/State.lean ====
section
/-! SUPPORT. One lemma per field per update of State, true by definition, and the same for the BitBuffer's updates. -/

namespace Sys2Proof.Machine

section setBb
variable (s : State) (bb : BitBuffer)

@[simp] theorem State.setBb_cfg : (s.setBb bb).cfg = s.cfg := rfl
@[simp] theorem State.setBb_rc : (s.setBb bb).rc = s.rc := rfl
@[simp] theorem State.setBb_r0 : (s.setBb bb).r0 = s.r0 := rfl
@[simp] theorem State.setBb_r1 : (s.setBb bb).r1 = s.r1 := rfl
@[simp] theorem State.setBb_fault : (s.setBb bb).fault = s.fault := rfl
@[simp] theorem State.setBb_bb : (s.setBb bb).bb = bb := rfl
@[simp] theorem State.setBb_obs : (s.setBb bb).obs = s.obs := rfl
@[simp] theorem State.setBb_ic : (s.setBb bb).ic = s.ic := rfl
@[simp] theorem State.setBb_hc : (s.setBb bb).hc = s.hc := rfl
@[simp] theorem State.setBb_ht : (s.setBb bb).ht = s.ht := rfl
@[simp] theorem State.setBb_freeCtr : (s.setBb bb).freeCtr = s.freeCtr := rfl
@[simp] theorem State.setBb_stream : (s.setBb bb).stream = s.stream := rfl
@[simp] theorem State.setBb_index : (s.setBb bb).index = s.index := rfl

end setBb

section setIc
variable (s : State) (ic : IntegerCodec)

@[simp] theorem State.setIc_cfg : (s.setIc ic).cfg = s.cfg := rfl
@[simp] theorem State.setIc_rc : (s.setIc ic).rc = s.rc := rfl
@[simp] theorem State.setIc_r0 : (s.setIc ic).r0 = s.r0 := rfl
@[simp] theorem State.setIc_r1 : (s.setIc ic).r1 = s.r1 := rfl
@[simp] theorem State.setIc_fault : (s.setIc ic).fault = s.fault := rfl
@[simp] theorem State.setIc_bb : (s.setIc ic).bb = s.bb := rfl
@[simp] theorem State.setIc_obs : (s.setIc ic).obs = s.obs := rfl
@[simp] theorem State.setIc_ic : (s.setIc ic).ic = ic := rfl
@[simp] theorem State.setIc_hc : (s.setIc ic).hc = s.hc := rfl
@[simp] theorem State.setIc_ht : (s.setIc ic).ht = s.ht := rfl
@[simp] theorem State.setIc_freeCtr : (s.setIc ic).freeCtr = s.freeCtr := rfl
@[simp] theorem State.setIc_stream : (s.setIc ic).stream = s.stream := rfl
@[simp] theorem State.setIc_index : (s.setIc ic).index = s.index := rfl

end setIc

section setHt
variable (s : State) (ht : HeaderTable)

@[simp] theorem State.setHt_cfg : (s.setHt ht).cfg = s.cfg := rfl
@[simp] theorem State.setHt_rc : (s.setHt ht).rc = s.rc := rfl
@[simp] theorem State.setHt_r0 : (s.setHt ht).r0 = s.r0 := rfl
@[simp] theorem State.setHt_r1 : (s.setHt ht).r1 = s.r1 := rfl
@[simp] theorem State.setHt_fault : (s.setHt ht).fault = s.fault := rfl
@[simp] theorem State.setHt_bb : (s.setHt ht).bb = s.bb := rfl
@[simp] theorem State.setHt_obs : (s.setHt ht).obs = s.obs := rfl
@[simp] theorem State.setHt_ic : (s.setHt ht).ic = s.ic := rfl
@[simp] theorem State.setHt_hc : (s.setHt ht).hc = s.hc := rfl
@[simp] theorem State.setHt_ht : (s.setHt ht).ht = ht := rfl
@[simp] theorem State.setHt_freeCtr : (s.setHt ht).freeCtr = s.freeCtr := rfl
@[simp] theorem State.setHt_stream : (s.setHt ht).stream = s.stream := rfl
@[simp] theorem State.setHt_index : (s.setHt ht).index = s.index := rfl

end setHt

section setOb
variable (s : State) (a : ObSel) (d : OctetBuffer)

@[simp] theorem State.setOb_cfg : (s.setOb a d).cfg = s.cfg := rfl
@[simp] theorem State.setOb_rc : (s.setOb a d).rc = s.rc := rfl
@[simp] theorem State.setOb_r0 : (s.setOb a d).r0 = s.r0 := rfl
@[simp] theorem State.setOb_r1 : (s.setOb a d).r1 = s.r1 := rfl
@[simp] theorem State.setOb_fault : (s.setOb a d).fault = s.fault := rfl
@[simp] theorem State.setOb_bb : (s.setOb a d).bb = s.bb := rfl
@[simp] theorem State.setOb_obs : (s.setOb a d).obs = s.obs.set a.toNat d := rfl
@[simp] theorem State.setOb_ic : (s.setOb a d).ic = s.ic := rfl
@[simp] theorem State.setOb_hc : (s.setOb a d).hc = s.hc := rfl
@[simp] theorem State.setOb_ht : (s.setOb a d).ht = s.ht := rfl
@[simp] theorem State.setOb_freeCtr : (s.setOb a d).freeCtr = s.freeCtr := rfl
@[simp] theorem State.setOb_stream : (s.setOb a d).stream = s.stream := rfl
@[simp] theorem State.setOb_index : (s.setOb a d).index = s.index := rfl

end setOb

section drawFree
variable (s : State) (n : Nat)

@[simp] theorem State.drawFree_cfg : (s.drawFree n).cfg = s.cfg := rfl
@[simp] theorem State.drawFree_rc : (s.drawFree n).rc = s.rc := rfl
@[simp] theorem State.drawFree_r0 : (s.drawFree n).r0 = s.r0 := rfl
@[simp] theorem State.drawFree_r1 : (s.drawFree n).r1 = s.r1 := rfl
@[simp] theorem State.drawFree_fault : (s.drawFree n).fault = s.fault := rfl
@[simp] theorem State.drawFree_bb : (s.drawFree n).bb = s.bb := rfl
@[simp] theorem State.drawFree_obs : (s.drawFree n).obs = s.obs := rfl
@[simp] theorem State.drawFree_ic : (s.drawFree n).ic = s.ic := rfl
@[simp] theorem State.drawFree_hc : (s.drawFree n).hc = s.hc := rfl
@[simp] theorem State.drawFree_ht : (s.drawFree n).ht = s.ht := rfl
@[simp] theorem State.drawFree_freeCtr : (s.drawFree n).freeCtr = s.freeCtr + n := rfl
@[simp] theorem State.drawFree_stream : (s.drawFree n).stream = s.stream := rfl
@[simp] theorem State.drawFree_index : (s.drawFree n).index = s.index := rfl

end drawFree

section done
variable (s : State) (v w : Nat)

@[simp] theorem State.done_cfg : (s.done v w).cfg = s.cfg := rfl
@[simp] theorem State.done_rc : (s.done v w).rc = rcOk := rfl
@[simp] theorem State.done_r0 : (s.done v w).r0 = v := rfl
@[simp] theorem State.done_r1 : (s.done v w).r1 = w := rfl
@[simp] theorem State.done_fault : (s.done v w).fault = s.fault := rfl
@[simp] theorem State.done_bb : (s.done v w).bb = s.bb := rfl
@[simp] theorem State.done_obs : (s.done v w).obs = s.obs := rfl
@[simp] theorem State.done_ic : (s.done v w).ic = s.ic := rfl
@[simp] theorem State.done_hc : (s.done v w).hc = s.hc := rfl
@[simp] theorem State.done_ht : (s.done v w).ht = s.ht := rfl
@[simp] theorem State.done_freeCtr : (s.done v w).freeCtr = s.freeCtr := rfl
@[simp] theorem State.done_stream : (s.done v w).stream = s.stream := rfl
@[simp] theorem State.done_index : (s.done v w).index = s.index := rfl

end done

section raise
variable (s : State) (c : Cause)

@[simp] theorem State.raise_cfg : (s.raise c).cfg = s.cfg := rfl
@[simp] theorem State.raise_rc : (s.raise c).rc = c.rc := rfl
@[simp] theorem State.raise_r0 : (s.raise c).r0 = 0 := rfl
@[simp] theorem State.raise_r1 : (s.raise c).r1 = 0 := rfl
@[simp] theorem State.raise_fault : (s.raise c).fault = faultWith s.cfg.xlen s.fault c := rfl
@[simp] theorem State.raise_bb : (s.raise c).bb = s.bb := rfl
@[simp] theorem State.raise_obs : (s.raise c).obs = s.obs := rfl
@[simp] theorem State.raise_ic : (s.raise c).ic = s.ic := rfl
@[simp] theorem State.raise_hc : (s.raise c).hc = s.hc := rfl
@[simp] theorem State.raise_ht : (s.raise c).ht = s.ht := rfl
@[simp] theorem State.raise_freeCtr : (s.raise c).freeCtr = s.freeCtr := rfl
@[simp] theorem State.raise_stream : (s.raise c).stream = s.stream := rfl
@[simp] theorem State.raise_index : (s.raise c).index = s.index := rfl

end raise

section advance
variable (s : State)

@[simp] theorem State.advance_cfg : (s.advance).cfg = s.cfg := rfl
@[simp] theorem State.advance_rc : (s.advance).rc = s.rc := rfl
@[simp] theorem State.advance_r0 : (s.advance).r0 = s.r0 := rfl
@[simp] theorem State.advance_r1 : (s.advance).r1 = s.r1 := rfl
@[simp] theorem State.advance_fault : (s.advance).fault = s.fault := rfl
@[simp] theorem State.advance_bb : (s.advance).bb = s.bb := rfl
@[simp] theorem State.advance_obs : (s.advance).obs = s.obs := rfl
@[simp] theorem State.advance_ic : (s.advance).ic = s.ic := rfl
@[simp] theorem State.advance_hc : (s.advance).hc = s.hc := rfl
@[simp] theorem State.advance_ht : (s.advance).ht = s.ht := rfl
@[simp] theorem State.advance_freeCtr : (s.advance).freeCtr = s.freeCtr := rfl
@[simp] theorem State.advance_stream : (s.advance).stream = s.stream := rfl
@[simp] theorem State.advance_index : (s.advance).index = s.index + 1 := rfl

end advance

section resets
variable (s : State)

@[simp] theorem State.applyReset_cfg : s.applyReset.cfg = s.cfg := rfl
@[simp] theorem State.applyReset_rc : s.applyReset.rc = 0 := rfl
@[simp] theorem State.applyReset_r0 : s.applyReset.r0 = 0 := rfl
@[simp] theorem State.applyReset_r1 : s.applyReset.r1 = 0 := rfl
@[simp] theorem State.applyReset_fault : s.applyReset.fault = 0 := rfl
@[simp] theorem State.applyReset_bb : s.applyReset.bb = BitBuffer.reset s.cfg := rfl
@[simp] theorem State.applyReset_obs : s.applyReset.obs = resetObs s.cfg := rfl
@[simp] theorem State.applyReset_ic : s.applyReset.ic = IntegerCodec.reset := rfl
@[simp] theorem State.applyReset_hc : s.applyReset.hc = buildTrie s.cfg.codeRom s.cfg.trieNodes := rfl
@[simp] theorem State.applyReset_ht : s.applyReset.ht = HeaderTable.reset := rfl
@[simp] theorem State.applyReset_freeCtr : s.applyReset.freeCtr = s.freeCtr := rfl
@[simp] theorem State.applyReset_stream : s.applyReset.stream = s.stream := rfl
@[simp] theorem State.applyReset_index : s.applyReset.index = s.index := rfl

end resets

section buffers
variable (bb : BitBuffer) (p : Nat) (b : Bool)

@[simp] theorem BitBuffer.bitSet_cap : (bb.bitSet p).cap = bb.cap := rfl
@[simp] theorem BitBuffer.bitSet_len : (bb.bitSet p).len = bb.len := rfl
@[simp] theorem BitBuffer.grow_cap : bb.grow.cap = 2 * bb.cap := rfl
@[simp] theorem BitBuffer.grow_len : bb.grow.len = bb.len := rfl
@[simp] theorem BitBuffer.grow_store :
    bb.grow.store = Memory.zeroRange bb.store (bb.cap / 8) (2 * bb.cap / 8) := rfl
@[simp] theorem BitBuffer.push_len : (bb.push b).len = bb.len + 1 := rfl
@[simp] theorem BitBuffer.push_cap : (bb.push b).cap = bb.cap := by cases b <;> rfl
@[simp] theorem BitBuffer.clear_cap : bb.clear.cap = bb.cap := rfl
@[simp] theorem BitBuffer.clear_len : bb.clear.len = 0 := rfl
@[simp] theorem BitBuffer.clear_store :
    bb.clear.store = Memory.zeroRange bb.store 0 (bb.cap / 8) := rfl

end buffers

section operands
variable (s : State) (a b : ObSel) (d : OctetBuffer)

/-- Reading the buffer just written. -/
@[simp] theorem State.setOb_ob_self (h : s.hasOb a = true) : (s.setOb a d).ob a = d := by
  have h' : a.toNat < s.obs.length := by simpa [State.hasOb] using h
  simp [State.ob, State.setOb, h']

/-- Reading another buffer. -/
@[simp] theorem State.setOb_ob_other (h : a ≠ b) : (s.setOb a d).ob b = s.ob b := by
  have h' : a.toNat ≠ b.toNat := fun e => h (BitVec.eq_of_toNat_eq e)
  simp [State.ob, State.setOb, List.getD_eq_getElem?_getD, List.getElem?_set_ne h']

@[simp] theorem State.setOb_hasOb : (s.setOb a d).hasOb b = s.hasOb b := by
  simp [State.hasOb, State.setOb]

end operands

end Sys2Proof.Machine
end

