-- ==== Sys2Proof/Laws/Memory.lean ====
section
/-! SUPPORT. Octet storage: a read after a write, and that every operation keeps the canonical form. -/

namespace Sys2Proof.Machine

theorem Memory.wf_cons {c : Host.Cell} {m : Memory} :
    Memory.wf (c :: m) ↔ (∀ x ∈ m, c.1 < x.1) ∧ c.2 ≠ 0#8 ∧ Memory.wf m := by
  simp only [Memory.wf, List.pairwise_cons, List.mem_cons, forall_eq_or_imp]
  tauto

theorem Memory.wf_nil : Memory.wf [] := by simp [Memory.wf]

/-- An index below every listed one reads 0. -/
theorem Memory.read_of_lt {m : Memory} {a : Nat} (h : ∀ x ∈ m, a < x.1) : Memory.read m a = 0#8 := by
  induction m with
  | nil => rfl
  | cons c m ih =>
    have hc := h c (by simp)
    simp only [Memory.read]
    rw [if_neg (by omega)]
    exact ih fun x hx => h x (by simp [hx])

theorem Memory.read_cell {m : Memory} {a k : Nat} {v : Octet} (h : ∀ x ∈ m, a < x.1) :
    Memory.read (Memory.cell a v m) k = if k = a then v else Memory.read m k := by
  by_cases hv : v = 0#8
  · by_cases hk : k = a
    · subst hk hv; simp [Memory.cell, Memory.read_of_lt h]
    · simp [Memory.cell, hv, hk]
  · simp [Memory.cell, hv, Memory.read]

/-- A read after a write. -/
theorem Memory.read_write {m : Memory} (h : Memory.wf m) (a k : Nat) (v : Octet) :
    Memory.read (Memory.write m a v) k = if k = a then v else Memory.read m k := by
  induction m with
  | nil => simp [Memory.write, Memory.read_cell]
  | cons c m ih =>
    obtain ⟨b, w⟩ := c
    obtain ⟨hlt, hw, hm⟩ := Memory.wf_cons.1 h
    simp only at hlt hw
    simp only [Memory.write]
    split
    · rename_i hab
      refine Memory.read_cell fun x hx => ?_
      rcases List.mem_cons.1 hx with rfl | hx
      · exact hab
      · exact hab.trans (hlt x hx)
    · rename_i hab
      split
      · rename_i hab'
        subst hab'
        rw [Memory.read_cell hlt]
        by_cases hk : k = a <;> simp [Memory.read, hk]
      · rename_i hne
        simp only [Memory.read]
        split
        · rename_i hkb
          rw [if_neg (by omega)]
        · exact ih hm

theorem Memory.mem_cell {m : Memory} {a : Nat} {v : Octet} {x : Host.Cell} (h : x ∈ Memory.cell a v m) :
    x = (a, v) ∨ x ∈ m := by
  unfold Memory.cell at h
  split at h
  · exact .inr h
  · exact List.mem_cons.1 h

/-- Every cell after a write is the written one or was there before. -/
theorem Memory.mem_write {m : Memory} {a : Nat} {v : Octet} {x : Host.Cell} (h : x ∈ Memory.write m a v) :
    x.1 = a ∨ x ∈ m := by
  induction m with
  | nil =>
    rcases Memory.mem_cell h with rfl | h
    · exact .inl rfl
    · simp at h
  | cons c m ih =>
    obtain ⟨b, w⟩ := c
    simp only [Memory.write] at h
    split at h
    · rcases Memory.mem_cell h with rfl | h
      · exact .inl rfl
      · exact .inr h
    · split at h
      · rcases Memory.mem_cell h with rfl | h
        · exact .inl rfl
        · exact .inr (by simp [h])
      · rcases List.mem_cons.1 h with rfl | h
        · exact .inr (by simp)
        · exact (ih h).imp id fun h => by simp [h]

theorem Memory.cell_wf {m : Memory} {a : Nat} {v : Octet} (hm : Memory.wf m) (h : ∀ x ∈ m, a < x.1) :
    Memory.wf (Memory.cell a v m) := by
  unfold Memory.cell
  split
  · exact hm
  · exact Memory.wf_cons.2 ⟨h, by assumption, hm⟩

/-- A write keeps the canonical form. -/
theorem Memory.write_wf {m : Memory} (h : Memory.wf m) (a : Nat) (v : Octet) : Memory.wf (Memory.write m a v) := by
  induction m with
  | nil => exact Memory.cell_wf h (by simp)
  | cons c m ih =>
    obtain ⟨b, w⟩ := c
    obtain ⟨hlt, hw, hm⟩ := Memory.wf_cons.1 h
    simp only at hlt hw
    simp only [Memory.write]
    split
    · rename_i hab
      refine Memory.cell_wf h fun x hx => ?_
      rcases List.mem_cons.1 hx with rfl | hx
      · exact hab
      · exact hab.trans (hlt x hx)
    · rename_i hab
      split
      · rename_i hab'
        subst hab'
        exact Memory.cell_wf hm hlt
      · rename_i hne
        refine Memory.wf_cons.2 ⟨fun x hx => ?_, hw, ih hm⟩
        rcases Memory.mem_write hx with hx | hx
        · show b < x.1
          omega
        · exact hlt x hx

/-- Zeroing a range keeps the canonical form. -/
theorem Memory.zeroRange_wf {m : Memory} (h : Memory.wf m) (lo hi : Nat) : Memory.wf (Memory.zeroRange m lo hi) :=
  ⟨h.1.filter _, fun c hc => h.2 c (List.mem_filter.1 hc).1⟩

theorem Memory.mem_zeroRange {m : Memory} {lo hi : Nat} {x : Host.Cell} (h : x ∈ Memory.zeroRange m lo hi) : x ∈ m :=
  (List.mem_filter.1 h).1

/-- A read after zeroing a range. -/
theorem Memory.read_zeroRange {m : Memory} (h : Memory.wf m) (lo hi k : Nat) :
    Memory.read (Memory.zeroRange m lo hi) k = if lo ≤ k ∧ k < hi then 0#8 else Memory.read m k := by
  induction m with
  | nil => simp [Memory.zeroRange, Memory.read]
  | cons c m ih =>
    obtain ⟨b, w⟩ := c
    obtain ⟨hlt, hw, hm⟩ := Memory.wf_cons.1 h
    simp only at hlt hw
    have ih := ih hm
    simp only [Memory.zeroRange] at ih
    by_cases hb : lo ≤ b ∧ b < hi
    · simp only [Memory.zeroRange, List.filter_cons, hb.1, hb.2, decide_true, Bool.and_self, Bool.not_true,
        Bool.false_eq_true, if_false, ih, Memory.read]
      by_cases hk : k = b
      · subst hk; simp [hb]
      · simp [hk]
    · have : (!(decide (lo ≤ b) && decide (b < hi))) = true := by
        simp only [Bool.not_eq_true', Bool.and_eq_false_iff, decide_eq_false_iff_not]
        tauto
      simp only [Memory.zeroRange, List.filter_cons, this, if_true, ih, Memory.read]
      by_cases hk : k = b
      · subst hk; simp [hb]
      · simp [hk]

/-- No storage cell at or beyond an index means that everything from there on reads 0. -/
theorem Memory.read_of_ge {m : Memory} {a : Nat} (h : ∀ x ∈ m, x.1 < a) {k : Nat} (hk : a ≤ k) :
    Memory.read m k = 0#8 := by
  induction m with
  | nil => rfl
  | cons c m ih =>
    have := h c (by simp)
    simp only [Memory.read]
    rw [if_neg (by omega)]
    exact ih fun x hx => h x (by simp [hx])

end Sys2Proof.Machine
end

