-- ==== Sys2Proof/Laws/Ops.lean ====
section
/-! SUPPORT. What the shared operations do: completing, raising a fault, the buffer checks, and writing a run of octets. -/

namespace Sys2Proof.Machine

/-- A fault raised is the state of R282 with the cause's number. -/
theorem State.raise_eq_withFault (s : State) (c : Cause) : s.raise c = s.withFault c.code := rfl

theorem fail_eq (s : State) (c : Cause) : fail s c = .next (s.withFault c.code) := rfl

theorem ok_eq (s : State) (v w : Nat) : ok s v w = .next { s with rc := 0, r0 := v, r1 := w } := rfl

theorem Cause.code_range (c : Cause) : 1 ≤ c.code ∧ c.code ≤ 17 := by cases c <;> decide

theorem State.hasOb_iff {s : State} {a : ObSel} : s.hasOb a = true ↔ a.toNat < s.obs.length := by
  simp [State.hasOb]

theorem withOb_of_lt {s : State} {a : ObSel} {k : Host.Outcome State Fault Refusal} (h : a.toNat < s.obs.length) :
    withOb s a k = k := by
  simp [withOb, State.hasOb, h]

theorem withObs_of_lt {s : State} {a b : ObSel} {k : Host.Outcome State Fault Refusal} (ha : a.toNat < s.obs.length)
    (hb : b.toNat < s.obs.length) : withObs s a b k = k := by
  simp [withObs, State.hasOb, ha, hb]

/-- Whatever a buffer check answers: the rule's own outcome, or ILLEGAL_CMD. -/
theorem withOb_cases {s : State} {a : ObSel} {k : Host.Outcome State Fault Refusal} :
    (a.toNat < s.obs.length ∧ withOb s a k = k) ∨ withOb s a k = .next (s.raise .illegalCmd) := by
  by_cases h : a.toNat < s.obs.length
  · exact .inl ⟨h, withOb_of_lt h⟩
  · exact .inr (by simp [withOb, State.hasOb, h, fail])

theorem withObs_cases {s : State} {a b : ObSel} {k : Host.Outcome State Fault Refusal} :
    (a.toNat < s.obs.length ∧ b.toNat < s.obs.length ∧ withObs s a b k = k) ∨
      withObs s a b k = .next (s.raise .illegalCmd) := by
  by_cases h : a.toNat < s.obs.length ∧ b.toNat < s.obs.length
  · exact .inl ⟨h.1, h.2, withObs_of_lt h.1 h.2⟩
  · exact .inr (if_neg (by simpa [State.hasOb] using h))

theorem State.ob_eq_getElem {s : State} {a : ObSel} (h : a.toNat < s.obs.length) : s.ob a = s.obs[a.toNat] := by
  simp [State.ob, h]

/-- `MemWrite(OB[i], o + j, 1, seq[j])` in rising order, read one octet at a time (R164). -/
theorem writeRun_getElem? (d : OctetBuffer) (o : Nat) (seq : List Octet) (k : Nat) :
    (writeRun d o seq)[k]? = if o ≤ k ∧ k < o + seq.length ∧ k < d.length then seq[k - o]? else d[k]? := by
  induction seq generalizing d o with
  | nil => simp [writeRun]; omega
  | cons v seq ih =>
    rw [writeRun, ih]
    simp only [List.length_set, List.length_cons, List.getElem?_set]
    by_cases hk : o = k
    · subst hk
      by_cases hl : o < d.length
      · simp [hl]
      · simp [hl]
    · by_cases h : o + 1 ≤ k ∧ k < o + 1 + seq.length ∧ k < d.length
      · have e : k - o = k - (o + 1) + 1 := by omega
        rw [if_pos h, if_pos (by omega), e, List.getElem?_cons_succ]
      · rw [if_neg h, if_neg hk, if_neg (by omega)]

theorem writeRun_length (d : OctetBuffer) (o : Nat) (seq : List Octet) : (writeRun d o seq).length = d.length := by
  induction seq generalizing d o with
  | nil => rfl
  | cons v seq ih => rw [writeRun, ih, List.length_set]

/-- A run written inside the buffer. -/
theorem writeRun_writtenAt {d : OctetBuffer} {o : Nat} {seq : List Octet} (h : o + seq.length ≤ d.length) :
    WrittenAt d o seq (writeRun d o seq) where
  length_eq := writeRun_length d o seq
  inside j hj := by rw [writeRun_getElem?, if_pos (by omega), Nat.add_sub_cancel_left]
  outside k hk := by rw [writeRun_getElem?, if_neg (by omega)]

theorem octetBits_length (v : Octet) : (octetBits v).length = 8 := rfl

/-- Bit `j` of an octet, counted from the most significant, is bit `7 - j` (R68). -/
theorem octetBits_eq (v : Octet) : octetBits v = (List.range 8).map fun j => v.getLsbD (7 - j) := rfl

theorem flatMap_octetBits_length (l : List Octet) : (l.flatMap octetBits).length = 8 * l.length := by
  induction l with
  | nil => rfl
  | cons v l ih => simp [octetBits_length, ih]; omega

theorem readRange_length {d : OctetBuffer} {o n : Nat} (h : o + n ≤ d.length) : (readRange d o n).length = n := by
  simp [readRange]; omega

end Sys2Proof.Machine
end

