-- ==== Sys2Proof/Laws/BitBuffer.lean ====
section
/-! SUPPORT. What the BitBuffer's operations do: reading a bit after setting one, what an append gives and when it fails, and what a
run of appends gives. -/

namespace Sys2Proof.Machine

/-- Setting one bit sets that bit and no other (R62). -/
theorem BitBuffer.bitRead_bitSet {bb : BitBuffer} (h : Memory.wf bb.store) (p q : Nat) :
    (bb.bitSet p).bitRead q = (decide (q = p) || bb.bitRead q) := by
  simp only [BitBuffer.bitRead, BitBuffer.bitSet, Memory.read_write h]
  by_cases hq : q / 8 = p / 8
  · rw [if_pos hq, BitVec.getLsbD_or, BitVec.getLsbD_twoPow, hq]
    have : decide (q = p) = (decide (7 - p % 8 < 8) && decide (7 - p % 8 = 7 - q % 8)) := by
      rw [Bool.eq_iff_iff]; simp; omega
    rw [this, Bool.or_comm]
  · rw [if_neg hq]
    have : q ≠ p := fun e => hq (by rw [e])
    simp [this]

/-- With the invariant, every bit at or beyond `BB.len` reads 0, allocated or not. -/
theorem BitBuffer.Inv.zero_beyond {c : Config} {bb : BitBuffer} (h : bb.Inv c) {p : Nat} (hp : bb.len ≤ p) :
    bb.bitRead p = false := by
  by_cases hc : p < bb.cap
  · exact h.zero p hc hp
  · have : Memory.read bb.store (p / 8) = 0#8 :=
      Memory.read_of_ge (a := bb.cap / 8) (fun x hx => by have := h.inside x hx; have := h.whole; omega) (by omega)
    simp [BitBuffer.bitRead, this]

/-- A capacity is not 0. -/
theorem BitBuffer.Inv.cap_pos {c : Config} (hc : c.Valid) {bb : BitBuffer} (h : bb.Inv c) : 8 ≤ bb.cap := by
  obtain ⟨k, hk⟩ := h.doubled
  have h8 : 8 ≤ c.bbInitCap := hc.2.2.2.1.2.1
  have : 1 ≤ 2 ^ k := Nat.one_le_two_pow
  rw [hk]
  exact h8.trans (Nat.le_mul_of_pos_right _ this)

/-- Appending within the capacity: the bit at `BB.len` is the one appended, every other bit is unchanged. -/
theorem BitBuffer.bitRead_push {c : Config} {bb : BitBuffer} (h : bb.Inv c) (b : Bool) (q : Nat) :
    (bb.push b).bitRead q = if q = bb.len then b else bb.bitRead q := by
  cases b with
  | false =>
    have : (bb.push false).bitRead q = bb.bitRead q := rfl
    rw [this]
    split
    · rename_i hq; rw [hq]; exact h.zero_beyond le_rfl
    · rfl
  | true =>
    have : (bb.push true).bitRead q = (bb.bitSet bb.len).bitRead q := rfl
    rw [this, bitRead_bitSet h.wf]
    by_cases hq : q = bb.len <;> simp [hq]

theorem BitBuffer.push_inv {c : Config} {bb : BitBuffer} (h : bb.Inv c) (hl : bb.len < bb.cap) (b : Bool) :
    (bb.push b).Inv c where
  wf := by
    cases b
    · exact h.wf
    · exact Memory.write_wf h.wf _ _
  inside x hx := by
    rw [push_cap]
    cases b
    · exact h.inside x hx
    · have hx : x ∈ Memory.write bb.store (bb.len / 8) _ := hx
      rcases Memory.mem_write hx with hx | hx
      · rw [hx]; omega
      · exact h.inside x hx
  doubled := by simpa using h.doubled
  whole := by simpa using h.whole
  cap_le := by simpa using h.cap_le
  len_le := by rw [push_len, push_cap]; exact hl
  zero p hp hlp := by
    have hlp : bb.len + 1 ≤ p := hlp
    rw [bitRead_push h, if_neg (by omega)]
    exact h.zero_beyond (by omega)

/-- Growth changes no bit (R27: it "leaves every allocated bit where it was"). -/
theorem BitBuffer.bitRead_grow {c : Config} {bb : BitBuffer} (h : bb.Inv c) (q : Nat) :
    bb.grow.bitRead q = bb.bitRead q := by
  have h8 := h.whole
  simp only [BitBuffer.bitRead, BitBuffer.grow_store, Memory.read_zeroRange h.wf]
  split
  · rename_i hq
    rw [Memory.read_of_ge (a := bb.cap / 8) (fun x hx => by have := h.inside x hx; omega) hq.1]
  · rfl

theorem BitBuffer.grow_inv {c : Config} {bb : BitBuffer} (h : bb.Inv c)
    (hp : 2 * bb.cap ≤ c.bbPhysBits) : bb.grow.Inv c where
  wf := Memory.zeroRange_wf h.wf _ _
  inside x hx := by
    have := h.inside x (Memory.mem_zeroRange hx)
    rw [grow_cap]; omega
  whole := Dvd.dvd.mul_left h.whole 2
  doubled := by
    obtain ⟨k, hk⟩ := h.doubled
    exact ⟨k + 1, by simp [hk, pow_succ]; ring⟩
  cap_le := hp
  len_le := by have := h.len_le; rw [grow_len, grow_cap]; omega
  zero p _ hlp := by
    rw [bitRead_grow h]
    exact h.zero_beyond hlp

/-- The bits after an append, from the bits read. -/
theorem BitBuffer.bits_append {bb bb' : BitBuffer} {b : Bool} (hl : bb'.len = bb.len + 1)
    (hr : ∀ q ≤ bb.len, bb'.bitRead q = if q = bb.len then b else bb.bitRead q) : bb'.bits = bb.bits ++ [b] := by
  rw [BitBuffer.bits, BitBuffer.bits, hl, List.range_succ, List.map_append, List.map_singleton, hr _ le_rfl, if_pos rfl]
  congr 1
  refine List.map_congr_left fun q hq => ?_
  have := List.mem_range.1 hq
  rw [hr q this.le, if_neg this.ne]

/-- Everything an append that succeeds does (R121). -/
theorem BitBuffer.append_some {c : Config} (hc : c.Valid) {bb bb' : BitBuffer} {b : Bool} (h : bb.Inv c)
    (ha : bb.append c.bbPhysBits b = some bb') :
    bb'.Inv c ∧ bb'.len = bb.len + 1 ∧ bb'.bits = bb.bits ++ [b] ∧
      ((bb.len < bb.cap ∧ bb'.cap = bb.cap) ∨
        (bb.len = bb.cap ∧ bb'.cap = 2 * bb.cap ∧ 2 * bb.cap ≤ c.bbPhysBits)) := by
  unfold BitBuffer.append at ha
  have hpos := h.cap_pos hc
  split at ha
  · rename_i hfull
    split at ha
    · simp at ha
    · rename_i hroom
      obtain rfl := Option.some.inj ha
      have hg := grow_inv h (by omega)
      refine ⟨push_inv hg (by rw [grow_len, grow_cap]; omega) b, rfl, ?_, .inr ⟨hfull, by simp, by omega⟩⟩
      refine bits_append rfl fun q _ => ?_
      rw [bitRead_push hg, bitRead_grow h]
      rfl
  · rename_i hfull
    obtain rfl := Option.some.inj ha
    have hl : bb.len < bb.cap := lt_of_le_of_ne h.len_le hfull
    exact ⟨push_inv h hl b, rfl, bits_append rfl fun q _ => bitRead_push h b q, .inl ⟨hl, by simp⟩⟩

/-- When an append fails (R121: "Allocation failure in this hardware is exactly the condition"). -/
theorem BitBuffer.append_none {phys : Nat} {bb : BitBuffer} {b : Bool} :
    bb.append phys b = none ↔ bb.len = bb.cap ∧ phys < 2 * bb.cap := by
  unfold BitBuffer.append
  split <;> [split; skip] <;> simp_all

/-- Clearing: no bits, every bit 0, the capacity kept (R127). -/
theorem BitBuffer.bitRead_clear {c : Config} {bb : BitBuffer} (h : bb.Inv c) (q : Nat) :
    bb.clear.bitRead q = false := by
  have h8 := h.whole
  simp only [BitBuffer.bitRead, BitBuffer.clear_store, Memory.read_zeroRange h.wf]
  split
  · simp
  · rename_i hq
    rw [Memory.read_of_ge (a := bb.cap / 8) (fun x hx => by have := h.inside x hx; omega) (by omega)]
    simp

theorem BitBuffer.clear_inv {c : Config} {bb : BitBuffer} (h : bb.Inv c) : bb.clear.Inv c where
  wf := Memory.zeroRange_wf h.wf _ _
  inside x hx := h.inside x (Memory.mem_zeroRange hx)
  doubled := h.doubled
  whole := h.whole
  cap_le := h.cap_le
  len_le := Nat.zero_le _
  zero p _ _ := bitRead_clear h p

theorem BitBuffer.clear_bits (bb : BitBuffer) : bb.clear.bits = [] := rfl

theorem BitBuffer.bits_length (bb : BitBuffer) : bb.bits.length = bb.len := by simp [BitBuffer.bits]

/-- Everything a run of appends does: some leading part of the bits is appended; if not all of them, the buffer is full and cannot
double (R121, R123). -/
theorem BitBuffer.appendAll_spec {c : Config} (hc : c.Valid) {bb : BitBuffer} (h : bb.Inv c) (bits : List Bool) :
    ∃ n ≤ bits.length, BitBuffer.Appended c bb (bits.take n) (bb.appendAll c.bbPhysBits bits).1 ∧
      ((bb.appendAll c.bbPhysBits bits).2 = true → n = bits.length) ∧
      ((bb.appendAll c.bbPhysBits bits).2 = false → n < bits.length ∧
        (bb.appendAll c.bbPhysBits bits).1.len = (bb.appendAll c.bbPhysBits bits).1.cap ∧
        c.bbPhysBits < 2 * (bb.appendAll c.bbPhysBits bits).1.cap) := by
  induction bits generalizing bb with
  | nil => exact ⟨0, le_rfl, ⟨by simp [appendAll], h, .inl rfl⟩, by simp [appendAll], by simp [appendAll]⟩
  | cons b bits ih =>
    simp only [BitBuffer.appendAll]
    cases ha : bb.append c.bbPhysBits b with
    | none =>
      obtain ⟨h1, h2⟩ := BitBuffer.append_none.1 ha
      dsimp only
      exact ⟨0, Nat.zero_le _, ⟨by simp, h, .inl rfl⟩, by simp, fun _ => ⟨by simp, h1, h2⟩⟩
    | some bb' =>
      obtain ⟨hi, hl, hb, hcap⟩ := append_some hc h ha
      dsimp only
      obtain ⟨n, hn, hA, ht, hf⟩ := ih hi
      have hlen := congrArg List.length hA.bits_eq
      simp only [bits_length, List.length_append] at hlen
      have htake : (bits.take n).length = n := by simpa using hn
      refine ⟨n + 1, by simpa using hn, ⟨?_, hA.inv, ?_⟩, fun e => by simp [ht e], fun e => ?_⟩
      · simp [hA.bits_eq, hb]
      · have hm := hA.cap_min
        have hi1 := h.len_le
        rcases hcap with ⟨h1, h2⟩ | ⟨h1, h2, h3⟩ <;> rcases hm with hm | hm
        · exact .inl (by omega)
        · exact .inr (by omega)
        · have := h.cap_pos hc
          exact .inr (by omega)
        · exact .inr (by omega)
      · obtain ⟨h1, h2, h3⟩ := hf e
        exact ⟨by simpa using h1, h2, h3⟩

/-- Appending only doubles the capacity, some number of times (R121). -/
theorem BitBuffer.appendAll_cap (phys : Nat) (bb : BitBuffer) (bits : List Bool) :
    ∃ j, (bb.appendAll phys bits).1.cap = bb.cap * 2 ^ j := by
  induction bits generalizing bb with
  | nil => exact ⟨0, by simp [appendAll]⟩
  | cons b bits ih =>
    simp only [BitBuffer.appendAll]
    cases ha : bb.append phys b with
    | none => exact ⟨0, by simp⟩
    | some bb' =>
      obtain ⟨j, hj⟩ := ih bb'
      have hcap : bb'.cap = bb.cap ∨ bb'.cap = bb.cap * 2 := by
        unfold BitBuffer.append at ha
        split at ha <;> [split at ha; skip] <;> simp at ha <;> subst ha <;> simp [Nat.mul_comm]
      rcases hcap with h | h
      · exact ⟨j, by simp [hj, h]⟩
      · exact ⟨j + 1, by simp [hj, h, pow_succ]; ring⟩

/-- A run of appends succeeds exactly when the buffer has room for it (R121). -/
theorem BitBuffer.appendAll_true_iff {c : Config} (hc : c.Valid) {bb : BitBuffer} (h : bb.Inv c) (bits : List Bool) :
    (bb.appendAll c.bbPhysBits bits).2 = true ↔ bb.HasRoom c.bbPhysBits bits.length := by
  obtain ⟨n, hn, hA, ht, hf⟩ := appendAll_spec hc h bits
  obtain ⟨j, hj⟩ := appendAll_cap c.bbPhysBits bb bits
  have hlen := congrArg List.length hA.bits_eq
  simp only [bits_length, List.length_append, List.length_take, Nat.min_eq_left hn] at hlen
  constructor
  · intro e
    refine ⟨j, hj ▸ hA.inv.cap_le, ?_⟩
    have := hA.inv.len_le
    rw [← hj, ← ht e]
    omega
  · rintro ⟨k, hk, hroom⟩
    by_contra hne
    obtain ⟨h1, h2, h3⟩ := hf (by simpa using hne)
    have hkj : bb.cap * 2 ^ k < bb.cap * 2 ^ (j + 1) := by rw [pow_succ, ← Nat.mul_assoc, ← hj]; omega
    have hkj : k ≤ j := by
      have := Nat.lt_of_mul_lt_mul_left hkj
      have := (Nat.pow_lt_pow_iff_right (by decide)).1 this
      omega
    have : bb.cap * 2 ^ k ≤ bb.cap * 2 ^ j := Nat.mul_le_mul_left _ (Nat.pow_le_pow_right (by decide) hkj)
    omega

/-- A run of appends with room for it. -/
theorem BitBuffer.appendAll_room {c : Config} (hc : c.Valid) {bb : BitBuffer} (h : bb.Inv c) {bits : List Bool}
    (hr : bb.HasRoom c.bbPhysBits bits.length) :
    ∃ bb', bb.appendAll c.bbPhysBits bits = (bb', true) ∧ bb.Appended c bits bb' ∧ bb'.len = bb.len + bits.length := by
  have hs := (appendAll_true_iff hc h bits).2 hr
  obtain ⟨n, _, hA, ht, _⟩ := appendAll_spec hc h bits
  obtain rfl := ht hs
  rw [List.take_length] at hA
  refine ⟨_, Prod.ext rfl hs, hA, ?_⟩
  have := congrArg List.length hA.bits_eq
  simpa [bits_length] using this

/-- A run of appends without room for it: the leading bits that fit stay, and the buffer is full and cannot double (R121, R193). -/
theorem BitBuffer.appendAll_no_room {c : Config} (hc : c.Valid) {bb : BitBuffer} (h : bb.Inv c) {bits : List Bool}
    (hr : ¬ bb.HasRoom c.bbPhysBits bits.length) :
    ∃ bb' n, n < bits.length ∧ bb.appendAll c.bbPhysBits bits = (bb', false) ∧ bb.Appended c (bits.take n) bb' ∧
      bb'.len = bb'.cap ∧ c.bbPhysBits < 2 * bb'.cap ∧ bb'.len = bb.len + n := by
  have hs := fun e => hr ((appendAll_true_iff hc h bits).1 e)
  obtain ⟨n, hn, hA, _, hf⟩ := appendAll_spec hc h bits
  obtain ⟨h1, h2, h3⟩ := hf (by simpa using hs)
  refine ⟨_, n, h1, Prod.ext rfl (by simpa using hs), hA, h2, h3, ?_⟩
  have := congrArg List.length hA.bits_eq
  simpa [bits_length, hn] using this

/-- The `i`-th of the bits is the bit read at `i`. -/
theorem BitBuffer.bits_getElem? (bb : BitBuffer) {i : Nat} (h : i < bb.len) : bb.bits[i]? = some (bb.bitRead i) := by
  simp [BitBuffer.bits, h]

/-- The bits of the whole octets of the BitBuffer (R61, R145). -/
theorem BitBuffer.octets_bits (bb : BitBuffer) (n : Nat) :
    (bb.octets n).flatMap octetBits = (List.range (8 * n)).map bb.bitRead := by
  induction n with
  | zero => rfl
  | succ n ih =>
    have e : bb.octets (n + 1) = bb.octets n ++ [Memory.read bb.store n] := by simp [BitBuffer.octets, List.range_succ]
    have r : ∀ j < 8, bb.bitRead (8 * n + j) = (Memory.read bb.store n).getLsbD (7 - j) := fun j hj => by
      simp only [BitBuffer.bitRead]
      rw [show (8 * n + j) / 8 = n by omega, show (8 * n + j) % 8 = j by omega]
    have e8 : List.range (8 * (n + 1)) = List.range (8 * n) ++ (List.range 8).map (8 * n + ·) := by
      rw [show 8 * (n + 1) = 8 * n + 8 by ring, List.range_add]
    rw [e, List.flatMap_append, ih, e8, List.map_append]
    congr 1
    simp only [List.flatMap_cons, List.flatMap_nil, List.append_nil, octetBits_eq, List.map_map]
    refine List.map_congr_left fun j hj => ?_
    exact (r j (List.mem_range.1 hj)).symm

end Sys2Proof.Machine
end

