-- ==== Sys2Proof/Laws/Commands.lean ====
section
/-! SUPPORT. One lemma per command: every next state it can answer.  Whole-machine rules are case analyses over these. -/

namespace Sys2Proof.Machine

variable {s t : State}

theorem ok_next {s t : State} {v w : Nat} (h : ok s v w = .next t) : t = s.done v w := by
  simpa [ok] using h.symm

theorem fail_next {s t : State} {c : Cause} (h : fail s c = .next t) : t = s.raise c := by
  simpa [fail] using h.symm

/-- A command behind a buffer check: its own rule on an existing buffer, or ILLEGAL_CMD. -/
theorem withOb_next {a : ObSel} {k : Host.Outcome State Fault Refusal} (h : withOb s a k = .next t) :
    (a.toNat < s.obs.length ∧ k = .next t) ∨ t = s.raise .illegalCmd := by
  rcases withOb_cases (s := s) (a := a) (k := k) with ⟨ha, e⟩ | e
  · exact .inl ⟨ha, e ▸ h⟩
  · exact .inr (by simpa [e] using h.symm)

theorem withObs_next {a b : ObSel} {k : Host.Outcome State Fault Refusal} (h : withObs s a b k = .next t) :
    (a.toNat < s.obs.length ∧ b.toNat < s.obs.length ∧ k = .next t) ∨ t = s.raise .illegalCmd := by
  rcases withObs_cases (s := s) (a := a) (b := b) (k := k) with ⟨ha, hb, e⟩ | e
  · exact .inl ⟨ha, hb, e ▸ h⟩
  · exact .inr (by simpa [e] using h.symm)

theorem execSysRdcsr_next {reg : Octet} (h : execSysRdcsr reg s = .next t) :
    (∃ v, s.csr reg = some v ∧ t = s.done v 0) ∨ t = s.raise .illegalCmd := by
  unfold execSysRdcsr at h
  split at h
  · exact .inl ⟨_, by assumption, ok_next h⟩
  · exact .inr (fail_next h)

theorem appendBits_next {bits : List Bool} (h : appendBits bits s = .next t) :
    ∃ bb, (s.bb.appendAll s.cfg.bbPhysBits bits = (bb, true) ∧ t = (s.setBb bb).done bb.len 0) ∨
      (s.bb.appendAll s.cfg.bbPhysBits bits = (bb, false) ∧ t = (s.setBb bb).raise .allocFail) := by
  unfold appendBits at h
  split at h
  · exact ⟨_, .inl ⟨by assumption, ok_next h⟩⟩
  · exact ⟨_, .inr ⟨by assumption, fail_next h⟩⟩

/-- A single append that fails changes nothing (R122). -/
theorem execBbAppendBit_next {bit : Bool} (h : execBbAppendBit bit s = .next t) :
    (∃ bb, s.bb.appendAll s.cfg.bbPhysBits [bit] = (bb, true) ∧ t = (s.setBb bb).done bb.len 0) ∨
      t = s.raise .allocFail := by
  obtain ⟨bb, h | ⟨h, ht⟩⟩ := appendBits_next h
  · exact .inl ⟨bb, h⟩
  · simp only [BitBuffer.appendAll] at h
    split at h
    · obtain rfl := congrArg Prod.fst h
      exact .inr ht
    · simp at h

theorem execBbAppendOct_next {v : Octet} (h : execBbAppendOct v s = .next t) :
    ∃ bb, (s.bb.appendAll s.cfg.bbPhysBits (octetBits v) = (bb, true) ∧ t = (s.setBb bb).done bb.len 0) ∨
      (s.bb.appendAll s.cfg.bbPhysBits (octetBits v) = (bb, false) ∧ t = (s.setBb bb).raise .allocFail) :=
  appendBits_next h

theorem execBbAt_next {pos : Nat} (h : execBbAt pos s = .next t) :
    (pos < s.bb.len ∧ t = s.done (if s.bb.bitRead pos then 1 else 0) 0) ∨ t = s.raise .bbRange := by
  unfold execBbAt at h
  split at h
  · exact .inr (fail_next h)
  · exact .inl ⟨by omega, ok_next h⟩

theorem execBbPut_next {bit : Bool} {pos : Nat} (h : execBbPut bit pos s = .next t) :
    (pos < s.bb.len ∧ t = (s.setBb (if bit then s.bb.bitSet pos else s.bb)).done 0 0) ∨ t = s.raise .bbRange := by
  unfold execBbPut at h
  split at h
  · exact .inr (fail_next h)
  · exact .inl ⟨by omega, ok_next h⟩

theorem execBbLen_next (h : execBbLen s = .next t) : t = s.done s.bb.len s.bb.cap := ok_next h

theorem execBbClear_next (h : execBbClear s = .next t) : t = (s.setBb s.bb.clear).done 0 0 := ok_next h

theorem execObInit_next {a : ObSel} {n : Nat} (h : execObInit a n s = .next t) :
    (a.toNat < s.obs.length ∧ max n s.cfg.obFloor ≤ s.cfg.obPhys ∧
      t = (s.setOb a (List.replicate (max n s.cfg.obFloor) 0#8)).done (max n s.cfg.obFloor) 0) ∨
      ∃ c, t = s.raise c ∧ (c = .illegalCmd ∨ c = .obCapacity) := by
  unfold execObInit at h
  rcases withOb_next h with ⟨ha, h⟩ | h
  · dsimp only at h
    split at h
    · exact .inr ⟨_, fail_next h, .inr rfl⟩
    · exact .inl ⟨ha, by omega, ok_next h⟩
  · exact .inr ⟨_, h, .inl rfl⟩

theorem execObSet_next {a : ObSel} {v : Octet} {index : Nat} (h : execObSet a v index s = .next t) :
    (a.toNat < s.obs.length ∧ index < s.obLen a ∧ t = (s.setOb a ((s.ob a).set index v)).done 0 0) ∨
      (s.obLen a ≤ index ∧ t = s.done 0 0) ∨ t = s.raise .illegalCmd := by
  unfold execObSet at h
  rcases withOb_next h with ⟨ha, h⟩ | h
  · split at h
    · exact .inl ⟨ha, by assumption, ok_next h⟩
    · exact .inr (.inl ⟨by omega, ok_next h⟩)
  · exact .inr (.inr h)

theorem execObGet_next {a : ObSel} {index : Nat} (h : execObGet a index s = .next t) :
    (∃ v : Octet, s.octet a index = some v ∧ t = s.done v.toNat 0) ∨
      ∃ c, t = s.raise c ∧ (c = .illegalCmd ∨ c = .obReadRange) := by
  unfold execObGet at h
  rcases withOb_next h with ⟨_, h⟩ | h
  · split at h
    · exact .inr ⟨_, fail_next h, .inr rfl⟩
    · exact .inl ⟨_, by assumption, ok_next h⟩
  · exact .inr ⟨_, h, .inl rfl⟩

theorem execObLen_next {a : ObSel} (h : execObLen a s = .next t) :
    (a.toNat < s.obs.length ∧ t = s.done (s.obLen a) 0) ∨ t = s.raise .illegalCmd := by
  unfold execObLen at h
  exact (withOb_next h).imp (fun h => ⟨h.1, ok_next h.2⟩) id

theorem execObLoadBits_next {a : ObSel} (h : execObLoadBits a s = .next t) :
    (a.toNat < s.obs.length ∧ s.bb.len = 0 ∧ t = s.done (s.obLen a) 0) ∨
      (a.toNat < s.obs.length ∧ s.bb.len / 8 ≤ s.cfg.obPhys ∧
        t = (s.setOb a (s.bb.octets (s.bb.len / 8))).done (s.bb.len / 8) 0) ∨
      ∃ c, t = s.raise c ∧ (c = .illegalCmd ∨ c = .obCapacity) := by
  unfold execObLoadBits at h
  rcases withOb_next h with ⟨ha, h⟩ | h
  · split at h
    · exact .inl ⟨ha, by assumption, ok_next h⟩
    · dsimp only at h
      split at h
      · exact .inr (.inr ⟨_, fail_next h, .inr rfl⟩)
      · exact .inr (.inl ⟨ha, by omega, ok_next h⟩)
  · exact .inr (.inr ⟨_, h, .inl rfl⟩)

theorem execObCopy_next {a b : ObSel} (h : execObCopy a b s = .next t) :
    (a.toNat < s.obs.length ∧ b.toNat < s.obs.length ∧ t = (s.setOb a (s.ob b)).done (s.obLen b) 0) ∨
      t = s.raise .illegalCmd := by
  unfold execObCopy at h
  exact (withObs_next h).imp (fun h => ⟨h.1, h.2.1, ok_next h.2.2⟩) id

theorem execIcSetPrefix_next {w : Octet} (h : execIcSetPrefix w s = .next t) :
    (w.toNat ≤ 8 ∧ t = (s.setIc { s.ic with width := w.toNat }).done 0 0) ∨ t = s.raise .badPrefix := by
  unfold execIcSetPrefix at h
  split at h
  · exact .inr (fail_next h)
  · exact .inl ⟨Nat.not_lt.1 (by assumption), ok_next h⟩

theorem execIcSetOffset_next {o : Nat} (h : execIcSetOffset o s = .next t) :
    t = (s.setIc { s.ic with offset := o }).done 0 0 := ok_next h

theorem execIcEncode_next {a : ObSel} {v : Nat} (h : execIcEncode a v s = .next t) :
    (a.toNat < s.obs.length ∧ s.ic.width ≠ 0 ∧ s.ic.offset + (intSeq v s.ic.width).length ≤ s.obLen a ∧
      t = ((s.setOb a (writeRun (s.ob a) s.ic.offset (intSeq v s.ic.width))).setIc
        { s.ic with offset := s.ic.offset + (intSeq v s.ic.width).length }).done
          (s.ic.offset + (intSeq v s.ic.width).length) (intSeq v s.ic.width).length) ∨
      (a.toNat < s.obs.length ∧ s.ic.width ≠ 0 ∧ s.obLen a < s.ic.offset + (intSeq v s.ic.width).length ∧
        t = (spoilTail a s).raise .intDestExhausted) ∨
      ∃ c, t = s.raise c ∧ (c = .illegalCmd ∨ c = .badPrefix) := by
  unfold execIcEncode at h
  rcases withOb_next h with ⟨ha, h⟩ | h
  · split at h
    · exact .inr (.inr ⟨_, fail_next h, .inr rfl⟩)
    · dsimp only at h
      split at h
      · exact .inr (.inl ⟨ha, by assumption, by omega, fail_next h⟩)
      · exact .inl ⟨ha, by assumption, by omega, ok_next h⟩
  · exact .inr (.inr ⟨_, h, .inl rfl⟩)

/-- The faults of an integer's reading (R163). -/
theorem parseCont_error {maxv : Nat} {d : List Octet} {left pos mult res : Nat} {c : Cause}
    (h : parseCont maxv d left pos mult res = .error c) : c = .intTooLong ∨ c = .intTruncated ∨ c = .intOverflow := by
  induction left generalizing pos mult res with
  | zero => simp only [parseCont, Except.error.injEq] at h; exact .inl h.symm
  | succ left ih =>
    simp only [parseCont] at h
    split at h
    · simp only [Except.error.injEq] at h; exact .inr (.inl h.symm)
    · split at h
      · simp only [Except.error.injEq] at h; exact .inr (.inr h.symm)
      · split at h
        · simp only [Except.error.injEq] at h; exact .inr (.inr h.symm)
        · split at h
          · simp at h
          · exact ih h

theorem intParse_error {maxv : Nat} {d : List Octet} {o n : Nat} {c : Cause} (h : intParse maxv d o n = .error c) :
    c = .intTooLong ∨ c = .intTruncated ∨ c = .intOverflow := by
  unfold intParse at h
  split at h
  · simp only [Except.error.injEq] at h; exact .inr (.inl h.symm)
  · dsimp only at h
    split at h
    · simp at h
    · exact parseCont_error h

/-- An accepted integer fits a word, and the index after it is inside the buffer (R163). -/
theorem parseCont_ok {maxv : Nat} {d : List Octet} {left pos mult res v nxt : Nat}
    (h : parseCont maxv d left pos mult res = .ok (v, nxt)) : v ≤ maxv ∧ nxt ≤ d.length := by
  induction left generalizing pos mult res with
  | zero => simp [parseCont] at h
  | succ left ih =>
    simp only [parseCont] at h
    split at h
    · simp at h
    · rename_i b hb
      have hlt : pos < d.length := (List.getElem?_eq_some_iff.1 hb).1
      split at h
      · simp at h
      · split at h
        · simp at h
        · split at h
          · simp only [Except.ok.injEq, Prod.mk.injEq] at h
            omega
          · exact ih h

theorem intParse_ok {maxv : Nat} {d : List Octet} {o n v nxt : Nat} (hn : 2 ^ n ≤ maxv + 1)
    (h : intParse maxv d o n = .ok (v, nxt)) : v ≤ maxv ∧ nxt ≤ d.length := by
  unfold intParse at h
  split at h
  · simp at h
  · rename_i b hb
    have hlt : o < d.length := (List.getElem?_eq_some_iff.1 hb).1
    dsimp only at h
    split at h
    · simp only [widthMask, Except.ok.injEq, Prod.mk.injEq] at *
      omega
    · exact parseCont_ok h

theorem execIcDecode_next {a : ObSel} (h : execIcDecode a s = .next t) :
    (∃ v nxt, a.toNat < s.obs.length ∧ s.ic.width ≠ 0 ∧
      intParse s.cfg.maxWord (s.ob a) s.ic.offset s.ic.width = .ok (v, nxt) ∧
      t = (s.setIc { s.ic with offset := nxt }).done v nxt) ∨
      ∃ c, t = s.raise c ∧ (c = .illegalCmd ∨ c = .badPrefix ∨ c = .intTooLong ∨ c = .intTruncated ∨ c = .intOverflow) := by
  unfold execIcDecode at h
  rcases withOb_next h with ⟨ha, h⟩ | h
  · split at h
    · exact .inr ⟨_, fail_next h, .inr (.inl rfl)⟩
    · split at h
      · rename_i c hc
        exact .inr ⟨c, fail_next h, .inr (.inr (intParse_error hc))⟩
      · exact .inl ⟨_, _, ha, by assumption, by assumption, ok_next h⟩
  · exact .inr ⟨_, h, .inl rfl⟩

theorem execIcReset_next (h : execIcReset s = .next t) : t = (s.setIc IntegerCodec.reset).done 0 0 := ok_next h

theorem execHcEncode_next {a : ObSel} {start len : Nat} (h : execHcEncode a start len s = .next t) :
    (∃ bb, s.bb.appendAll s.cfg.bbPhysBits (huffPadded s.cfg.codeRom (s.range a start len)) = (bb, true) ∧
      t = (s.setBb bb).done (huffPadded s.cfg.codeRom (s.range a start len)).length 0) ∨
      (∃ bb, s.bb.appendAll s.cfg.bbPhysBits (huffPadded s.cfg.codeRom (s.range a start len)) = (bb, false) ∧
        t = (s.setBb bb).raise .allocFail) ∨
      ∃ c, t = s.raise c ∧ (c = .illegalCmd ∨ c = .huffTooLong ∨ c = .obReadRange) := by
  unfold execHcEncode at h
  rcases withOb_next h with ⟨_, h⟩ | h
  · split at h
    · exact .inr (.inr ⟨_, fail_next h, .inr (.inl rfl)⟩)
    · split at h
      · exact .inr (.inr ⟨_, fail_next h, .inr (.inr rfl)⟩)
      · dsimp only at h
        split at h
        · exact .inl ⟨_, by assumption, ok_next h⟩
        · exact .inr (.inl ⟨_, by assumption, fail_next h⟩)
  · exact .inr (.inr ⟨_, h, .inl rfl⟩)

theorem execHcDecode_next {a b : ObSel} {start len dest : Nat} (h : execHcDecode a b start len dest s = .next t) :
    (∃ bb, s.bb.clear.appendAll s.cfg.bbPhysBits ((s.range a start len).flatMap octetBits) = (bb, true) ∧
      b.toNat < s.obs.length ∧ dest + (s.hc.trie.walk bb.bits).length ≤ s.obLen b ∧
      t = ((s.setBb bb).setOb b (writeRun (s.ob b) dest (s.hc.trie.walk bb.bits))).done
        (s.hc.trie.walk bb.bits).length 0) ∨
      (∃ bb ok c, s.bb.clear.appendAll s.cfg.bbPhysBits ((s.range a start len).flatMap octetBits) = (bb, ok) ∧
        t = (s.setBb bb).raise c ∧ (c = .allocFail ∨ c = .huffOutExhausted)) ∨
      ∃ c, t = s.raise c ∧ (c = .illegalCmd ∨ c = .huffNotReady ∨ c = .huffBadLength) := by
  unfold execHcDecode at h
  rcases withObs_next h with ⟨_, hb, h⟩ | h
  · split at h
    · exact .inr (.inr ⟨_, fail_next h, .inr (.inl rfl)⟩)
    · split at h
      · exact .inr (.inr ⟨_, fail_next h, .inr (.inr rfl)⟩)
      · split at h
        · exact .inr (.inl ⟨_, _, _, by assumption, fail_next h, .inl rfl⟩)
        · dsimp only at h
          split at h
          · exact .inr (.inl ⟨_, _, _, by assumption, fail_next h, .inr rfl⟩)
          · exact .inl ⟨_, by assumption, hb, by omega, ok_next h⟩
  · exact .inr (.inr ⟨_, h, .inl rfl⟩)

theorem execHtGet_next {a b : ObSel} {u : Nat} (h : execHtGet a b u s = .next t) :
    (∃ p, a.toNat < s.obs.length ∧ b.toNat < s.obs.length ∧ a ≠ b ∧ s.resolve u = some p ∧
      p.name.length ≤ s.obLen a ∧ p.value.length ≤ s.obLen b ∧
      t = ((s.setOb a (writeRun (s.ob a) 0 p.name)).setOb b (writeRun (s.ob b) 0 p.value)).done
        p.name.length p.value.length) ∨
      ∃ c, t = s.raise c ∧ (c = .illegalCmd ∨ c = .htIndexRange ∨ c = .htDestSmall) := by
  unfold execHtGet at h
  rcases withObs_next h with ⟨ha, hb, h⟩ | h
  · split at h
    · exact .inr ⟨_, fail_next h, .inl rfl⟩
    · split at h
      · exact .inr ⟨_, fail_next h, .inr (.inl rfl)⟩
      · split at h
        · exact .inr ⟨_, fail_next h, .inr (.inr rfl)⟩
        · exact .inl ⟨_, ha, hb, by assumption, by assumption, by omega, by omega, ok_next h⟩
  · exact .inr ⟨_, h, .inl rfl⟩

theorem execHtPut_next {a b : ObSel} {ns nl vs vl : Nat} (h : execHtPut a b ns nl vs vl s = .next t) :
    (s.InRange a ns nl ∧ s.InRange b vs vl ∧
      t = (s.setHt (evict (insertPair s.ht ⟨s.range a ns nl, s.range b vs vl⟩))).done
        (evict (insertPair s.ht ⟨s.range a ns nl, s.range b vs vl⟩)).count
        (evict (insertPair s.ht ⟨s.range a ns nl, s.range b vs vl⟩)).size) ∨
      ∃ c, t = s.raise c ∧ (c = .illegalCmd ∨ c = .obReadRange) := by
  unfold execHtPut at h
  rcases withObs_next h with ⟨_, _, h⟩ | h
  · split at h
    · exact .inr ⟨_, fail_next h, .inr rfl⟩
    · rename_i hr
      exact .inl ⟨(not_not.1 hr).1, (not_not.1 hr).2, ok_next h⟩
  · exact .inr ⟨_, h, .inl rfl⟩

theorem execHtUpdCap_next {n : Nat} (h : execHtUpdCap n s = .next t) :
    (n ≤ s.cfg.htMaxCapacity ∧ ∃ ht, t = (s.setHt ht).done ht.count ht.size ∧
      ((n = 0 ∧ ht = emptyTable { s.ht with capacity := n }) ∨ (n ≠ 0 ∧ ht = evict { s.ht with capacity := n }))) ∨
      t = s.raise .htCapRange := by
  unfold execHtUpdCap at h
  split at h
  · exact .inr (fail_next h)
  · refine .inl ⟨by omega, _, ok_next h, ?_⟩
    by_cases hn : n = 0
    · exact .inl ⟨hn, by simp [hn]⟩
    · exact .inr ⟨hn, by simp [hn]⟩

theorem execHtIsFull_next (h : execHtIsFull s = .next t) :
    t = s.done (if s.ht.size ≥ s.ht.capacity then 1 else 0) 0 := ok_next h

/-- Every command answers a completed or a faulted state, with the configuration, the trie, the host's stream and, but for the
fault it raises, FAULT unchanged. -/
theorem exec_next {i : Instr} {s t : State} (h : exec i s = .next t) :
    (∃ (s1 : State) (v w : Nat), t = s1.done v w ∧ s1.cfg = s.cfg ∧ s1.hc = s.hc ∧ s1.stream = s.stream ∧
      s1.index = s.index ∧ s1.fault = s.fault) ∨
    (∃ (s1 : State) (c : Cause), t = s1.raise c ∧ s1.cfg = s.cfg ∧ s1.hc = s.hc ∧ s1.stream = s.stream ∧
      s1.index = s.index ∧ s1.fault = s.fault) := by
  cases i <;> simp only [exec] at h
  · rcases execSysRdcsr_next h with ⟨v, _, rfl⟩ | rfl
    exacts [.inl ⟨s, _, _, rfl, rfl, rfl, rfl, rfl, rfl⟩,
      .inr ⟨s, _, rfl, rfl, rfl, rfl, rfl, rfl⟩]
  · rcases execBbAppendBit_next h with ⟨v, _, rfl⟩ | rfl
    exacts [.inl ⟨_, _, _, rfl, rfl, rfl, rfl, rfl, rfl⟩,
      .inr ⟨s, _, rfl, rfl, rfl, rfl, rfl, rfl⟩]
  · rcases execBbAppendOct_next h with ⟨v, ⟨_, rfl⟩ | ⟨_, rfl⟩⟩
    exacts [.inl ⟨_, _, _, rfl, rfl, rfl, rfl, rfl, rfl⟩, .inr ⟨_, _, rfl, rfl, rfl, rfl, rfl, rfl⟩]
  · rcases execBbAt_next h with ⟨v, rfl⟩ | rfl
    exacts [.inl ⟨s, _, _, rfl, rfl, rfl, rfl, rfl, rfl⟩,
      .inr ⟨s, _, rfl, rfl, rfl, rfl, rfl, rfl⟩]
  · rcases execBbPut_next h with ⟨v, rfl⟩ | rfl
    exacts [.inl ⟨_, _, _, rfl, rfl, rfl, rfl, rfl, rfl⟩,
      .inr ⟨s, _, rfl, rfl, rfl, rfl, rfl, rfl⟩]
  · obtain rfl := execBbLen_next h
    exact .inl ⟨s, _, _, rfl, rfl, rfl, rfl, rfl, rfl⟩
  · obtain rfl := execBbClear_next h
    exact .inl ⟨_, _, _, rfl, rfl, rfl, rfl, rfl, rfl⟩
  · rcases execObInit_next h with ⟨_, _, rfl⟩ | ⟨c, rfl, _⟩
    exacts [.inl ⟨_, _, _, rfl, rfl, rfl, rfl, rfl, rfl⟩,
      .inr ⟨s, _, rfl, rfl, rfl, rfl, rfl, rfl⟩]
  · rcases execObSet_next h with ⟨_, _, rfl⟩ | ⟨_, rfl⟩ | rfl
    exacts [.inl ⟨_, _, _, rfl, rfl, rfl, rfl, rfl, rfl⟩,
      .inl ⟨s, _, _, rfl, rfl, rfl, rfl, rfl, rfl⟩,
      .inr ⟨s, _, rfl, rfl, rfl, rfl, rfl, rfl⟩]
  · rcases execObGet_next h with ⟨_, _, rfl⟩ | ⟨c, rfl, _⟩
    exacts [.inl ⟨s, _, _, rfl, rfl, rfl, rfl, rfl, rfl⟩,
      .inr ⟨s, _, rfl, rfl, rfl, rfl, rfl, rfl⟩]
  · rcases execObLen_next h with ⟨_, rfl⟩ | rfl
    exacts [.inl ⟨s, _, _, rfl, rfl, rfl, rfl, rfl, rfl⟩,
      .inr ⟨s, _, rfl, rfl, rfl, rfl, rfl, rfl⟩]
  · rcases execObLoadBits_next h with ⟨_, _, rfl⟩ | ⟨_, _, rfl⟩ | ⟨c, rfl, _⟩
    exacts [.inl ⟨s, _, _, rfl, rfl, rfl, rfl, rfl, rfl⟩, .inl ⟨_, _, _, rfl, rfl, rfl, rfl, rfl, rfl⟩,
      .inr ⟨s, _, rfl, rfl, rfl, rfl, rfl, rfl⟩]
  · rcases execObCopy_next h with ⟨_, _, rfl⟩ | rfl
    exacts [.inl ⟨_, _, _, rfl, rfl, rfl, rfl, rfl, rfl⟩,
      .inr ⟨s, _, rfl, rfl, rfl, rfl, rfl, rfl⟩]
  · rcases execIcSetPrefix_next h with ⟨_, rfl⟩ | rfl
    exacts [.inl ⟨_, _, _, rfl, rfl, rfl, rfl, rfl, rfl⟩,
      .inr ⟨s, _, rfl, rfl, rfl, rfl, rfl, rfl⟩]
  · obtain rfl := execIcSetOffset_next h
    exact .inl ⟨_, _, _, rfl, rfl, rfl, rfl, rfl, rfl⟩
  · rcases execIcEncode_next h with ⟨_, _, _, rfl⟩ | ⟨_, _, _, rfl⟩ | ⟨c, rfl, _⟩
    exacts [.inl ⟨_, _, _, rfl, rfl, rfl, rfl, rfl, rfl⟩, .inr ⟨_, _, rfl, rfl, rfl, rfl, rfl, rfl⟩,
      .inr ⟨s, _, rfl, rfl, rfl, rfl, rfl, rfl⟩]
  · rcases execIcDecode_next h with ⟨_, _, _, _, _, rfl⟩ | ⟨c, rfl, _⟩
    exacts [.inl ⟨_, _, _, rfl, rfl, rfl, rfl, rfl, rfl⟩,
      .inr ⟨s, _, rfl, rfl, rfl, rfl, rfl, rfl⟩]
  · obtain rfl := execIcReset_next h
    exact .inl ⟨_, _, _, rfl, rfl, rfl, rfl, rfl, rfl⟩
  · rcases execHcEncode_next h with ⟨_, _, rfl⟩ | ⟨_, _, rfl⟩ | ⟨c, rfl, _⟩
    exacts [.inl ⟨_, _, _, rfl, rfl, rfl, rfl, rfl, rfl⟩, .inr ⟨_, _, rfl, rfl, rfl, rfl, rfl, rfl⟩,
      .inr ⟨s, _, rfl, rfl, rfl, rfl, rfl, rfl⟩]
  · rcases execHcDecode_next h with ⟨_, _, _, _, rfl⟩ | ⟨_, _, _, _, rfl, _⟩ | ⟨c, rfl, _⟩
    exacts [.inl ⟨_, _, _, rfl, rfl, rfl, rfl, rfl, rfl⟩, .inr ⟨_, _, rfl, rfl, rfl, rfl, rfl, rfl⟩,
      .inr ⟨s, _, rfl, rfl, rfl, rfl, rfl, rfl⟩]
  · rcases execHtGet_next h with ⟨_, _, _, _, _, _, _, rfl⟩ | ⟨c, rfl, _⟩
    exacts [.inl ⟨_, _, _, rfl, rfl, rfl, rfl, rfl, rfl⟩,
      .inr ⟨s, _, rfl, rfl, rfl, rfl, rfl, rfl⟩]
  · rcases execHtPut_next h with ⟨_, _, rfl⟩ | ⟨c, rfl, _⟩
    exacts [.inl ⟨_, _, _, rfl, rfl, rfl, rfl, rfl, rfl⟩,
      .inr ⟨s, _, rfl, rfl, rfl, rfl, rfl, rfl⟩]
  · rcases execHtUpdCap_next h with ⟨_, _, rfl, _⟩ | rfl
    exacts [.inl ⟨_, _, _, rfl, rfl, rfl, rfl, rfl, rfl⟩,
      .inr ⟨s, _, rfl, rfl, rfl, rfl, rfl, rfl⟩]
  · obtain rfl := execHtIsFull_next h
    exact .inl ⟨s, _, _, rfl, rfl, rfl, rfl, rfl, rfl⟩

end Sys2Proof.Machine
end

