-- ==== Sys2Proof/Laws/Decode.lean ====
section
/-! SUPPORT. Facts of the decoder and the encoder: the fields of a packed command word, the row a word selects, and what an answer
of the decoder says. -/

namespace Sys2Proof

/-- Each bit of a command word comes from one field (R92). -/
theorem packCmd_getLsbD (o : BitVec 8) (a b : ObSel) (i : Octet) (k : Nat) : (packCmd o a b i).getLsbD k =
    if k < 8 then i.getLsbD k else if k < 16 then false else if k < 20 then b.getLsbD (k - 16)
    else if k < 24 then a.getLsbD (k - 20) else o.getLsbD (k - 24) := by
  show BitVec.getLsbD (o ++ (a ++ (b ++ (0#8 ++ i)) : BitVec 24)) k = _
  have e1 : ∀ k, BitVec.getLsbD (0#8 ++ i) k = if k < 8 then i.getLsbD k else false := by
    intro k; rw [BitVec.getLsbD_append]; simp
  have e2 : ∀ k, BitVec.getLsbD (b ++ (0#8 ++ i)) k =
      if k < 16 then BitVec.getLsbD (0#8 ++ i) k else b.getLsbD (k - 16) := by
    intro k; rw [BitVec.getLsbD_append]
  have e3 : ∀ k, BitVec.getLsbD (a ++ (b ++ (0#8 ++ i))) k =
      if k < 20 then BitVec.getLsbD (b ++ (0#8 ++ i)) k else a.getLsbD (k - 20) := by
    intro k; rw [BitVec.getLsbD_append]
  have e4 : ∀ k, BitVec.getLsbD (o ++ (a ++ (b ++ (0#8 ++ i)))) k =
      if k < 24 then BitVec.getLsbD (a ++ (b ++ (0#8 ++ i))) k else o.getLsbD (k - 24) := by
    intro k; rw [BitVec.getLsbD_append]
  refine (e4 k).trans ?_
  rw [e3, e2, e1]
  by_cases h1 : k < 8
  · simp [h1, show k < 16 by omega, show k < 20 by omega, show k < 24 by omega]
  by_cases h2 : k < 16
  · simp [h1, h2, show k < 20 by omega, show k < 24 by omega]
  by_cases h3 : k < 20
  · simp [h1, h2, h3, show k < 24 by omega]
  · simp [h1, h2, h3]

theorem packCmd_opcode (o : BitVec 8) (a b : ObSel) (i : Octet) : cmdOpcode (packCmd o a b i) = o := by
  apply BitVec.eq_of_getLsbD_eq; intro k hk
  rw [cmdOpcode, BitVec.getLsbD_extractLsb', packCmd_getLsbD]
  simp [hk, show ¬ 24 + k < 8 by omega, show ¬ 24 + k < 16 by omega, show ¬ 24 + k < 20 by omega]

theorem packCmd_obA (o : BitVec 8) (a b : ObSel) (i : Octet) : cmdObA (packCmd o a b i) = a := by
  apply BitVec.eq_of_getLsbD_eq; intro k hk
  rw [cmdObA, BitVec.getLsbD_extractLsb', packCmd_getLsbD]
  simp [hk, show ¬ 20 + k < 8 by omega, show ¬ 20 + k < 16 by omega, show 20 + k < 24 by omega]

theorem packCmd_obB (o : BitVec 8) (a b : ObSel) (i : Octet) : cmdObB (packCmd o a b i) = b := by
  apply BitVec.eq_of_getLsbD_eq; intro k hk
  rw [cmdObB, BitVec.getLsbD_extractLsb', packCmd_getLsbD]
  simp [hk, show ¬ 16 + k < 8 by omega, show 16 + k < 20 by omega]

theorem packCmd_zero (o : BitVec 8) (a b : ObSel) (i : Octet) : cmdZero (packCmd o a b i) = 0#8 := by
  apply BitVec.eq_of_getLsbD_eq; intro k hk
  rw [cmdZero, BitVec.getLsbD_extractLsb', packCmd_getLsbD]
  simp [show 8 + k < 16 by omega]

theorem packCmd_imm8 (o : BitVec 8) (a b : ObSel) (i : Octet) : cmdImm8 (packCmd o a b i) = i := by
  apply BitVec.eq_of_getLsbD_eq; intro k hk
  rw [cmdImm8, BitVec.getLsbD_extractLsb', packCmd_getLsbD]
  simp [hk]
/-- A command word is its five fields. -/
theorem packCmd_fields (w : BitVec 32) (h : cmdZero w = 0#8) : packCmd (cmdOpcode w) (cmdObA w) (cmdObB w) (cmdImm8 w) = w := by
  apply BitVec.eq_of_getLsbD_eq; intro k hk
  rw [packCmd_getLsbD, cmdOpcode, cmdObA, cmdObB, cmdImm8]
  simp only [BitVec.getLsbD_extractLsb']
  have hz : ∀ j < 8, w.getLsbD (8 + j) = false := fun j hj => by
    have := congrArg (fun v => BitVec.getLsbD v j) h
    simpa [cmdZero, BitVec.getLsbD_extractLsb', hj] using this
  split
  · simp [*]
  · split
    · have := hz (k - 8) (by omega)
      rw [show 8 + (k - 8) = k by omega] at this
      exact this.symm
    · split
      · simp [show k - 16 < 4 by omega, show 16 + (k - 16) = k by omega]
      · split
        · simp [show k - 20 < 4 by omega, show 20 + (k - 20) = k by omega]
        · simp [show k - 24 < 8 by omega, show 24 + (k - 24) = k by omega]

/-- A word that matches a row matches it field by field. -/
theorem field_of_mask {w m v : BitVec 32} (h : w &&& m = v) (s n : Nat) :
    w.extractLsb' s n &&& m.extractLsb' s n = v.extractLsb' s n := by
  rw [← h, BitVec.extractLsb'_and]

/-- The mask of every row covers the opcode (R95). -/
theorem selects_opcode {r : Row} (hr : r ∈ rows) {w : BitVec 32} (h : r.selects w = true) :
    cmdOpcode w = r.matchBits.extractLsb' 24 8 := by
  have hm : ∀ r ∈ rows, r.mask.extractLsb' 24 8 = 0xFF#8 := by decide
  have e : w &&& r.mask = r.matchBits := by simpa [Row.selects] using h
  rw [← e, BitVec.extractLsb'_and, hm r hr]
  exact (BitVec.and_allOnes (x := cmdOpcode w)).symm

/-- The rows' opcodes differ (R95). -/
theorem rows_opcodes_differ : rows.Pairwise fun x y => x.matchBits.extractLsb' 24 8 ≠ y.matchBits.extractLsb' 24 8 := by
  decide

/-- The row that selects a word is the one the decoder finds. -/
theorem find_row {r : Row} (hr : r ∈ rows) {w : BitVec 32} (h : r.selects w = true) :
    rows.find? (fun r => r.selects w) = some r := by
  have hp := rows_opcodes_differ
  have ho : ∀ x ∈ rows, x.selects w = true → cmdOpcode w = x.matchBits.extractLsb' 24 8 := fun x hx => selects_opcode hx
  revert hr hp ho
  generalize rows = l
  intro hr hp ho
  induction l with
  | nil => simp at hr
  | cons x l ih =>
    rw [List.find?_cons]
    by_cases hx : x.selects w = true
    · rcases List.mem_cons.1 hr with rfl | hr'
      · simp [hx]
      · have := List.rel_of_pairwise_cons hp hr'
        exact absurd ((ho x (by simp) hx).symm.trans (ho r hr h)) this
    · have : r ≠ x := by rintro rfl; exact hx h
      simp only [hx]
      refine ih ?_ (List.Pairwise.of_cons hp) fun y hy => ho y (by simp [hy])
      simpa [this] using hr


theorem operandWord_lt (c : Config) (v : Nat) : operandWord c v < 2 ^ c.xlen := Nat.mod_lt _ (by positivity)

/-- Everything an answer of the decoder says (R95 to R99, R101). -/
theorem decode_ok {c : Config} {p : Packet} {i : Instr} (h : decode c p = .ok i) :
    ∃ r ∈ rows, r.selects p.cmd = true ∧ (r.usesObA = true → ObSel.legal c (cmdObA p.cmd) = true) ∧
      (r.usesObB = true → ObSel.legal c (cmdObB p.cmd) = true) ∧ (r.differ = true → cmdObA p.cmd ≠ cmdObB p.cmd) ∧
      i = r.build (fieldsOf c p) := by
  unfold decode at h
  split at h
  · simp at h
  · rename_i r hr
    refine ⟨r, List.mem_of_find?_eq_some hr, List.find?_some (p := fun r : Row => r.selects p.cmd) hr, ?_⟩
    unfold checkRow at h
    split at h
    · simp at h
    · split at h
      · simp at h
      · split at h
        · simp at h
        · simp only [Except.ok.injEq] at h
          simp_all [fieldsOf]

/-- The decoder answers well-formed commands only. -/
theorem decode_wf {c : Config} {p : Packet} {i : Instr} (h : decode c p = .ok i) : i.wf c = true := by
  obtain ⟨r, hr, _, ha, hb, hd, rfl⟩ := decode_ok h
  have w := fun v => operandWord_lt c v
  simp only [rows, rowsSysBb, rowsOb, rowsIc, rowsHcHt, List.cons_append, List.nil_append, List.mem_cons,
    List.not_mem_nil, or_false] at hr
  rcases hr with rfl | rfl | rfl | rfl | rfl | rfl | rfl | rfl | rfl | rfl | rfl | rfl | rfl | rfl | rfl | rfl | rfl |
    rfl | rfl | rfl | rfl | rfl | rfl | rfl <;>
  simp_all [Instr.wf, Instr.selectorsLegal, Instr.wordsFit, wordFits, fieldsOf]

/-- A word that selects a row, with selectors that pass the row's checks, decodes to the row's command. -/
theorem decode_row {c : Config} {p : Packet} {r : Row} (hr : r ∈ rows) (h : r.selects p.cmd = true)
    (ha : r.usesObA = true → ObSel.legal c (cmdObA p.cmd) = true)
    (hb : r.usesObB = true → ObSel.legal c (cmdObB p.cmd) = true)
    (hd : r.differ = true → cmdObA p.cmd ≠ cmdObB p.cmd) : decode c p = .ok (r.build (fieldsOf c p)) := by
  have e : ∀ x, (x = true → ObSel.legal c (cmdObA p.cmd) = true) → (x && !ObSel.legal c (cmdObA p.cmd)) = false := by
    intro x hx; cases x <;> simp_all
  have e' : ∀ x, (x = true → ObSel.legal c (cmdObB p.cmd) = true) → (x && !ObSel.legal c (cmdObB p.cmd)) = false := by
    intro x hx; cases x <;> simp_all
  have e'' : ∀ x, (x = true → cmdObA p.cmd ≠ cmdObB p.cmd) → (x && cmdObA p.cmd == cmdObB p.cmd) = false := by
    intro x hx; cases x <;> simp_all
  simp only [decode, find_row hr h, checkRow, fieldsOf, e _ ha, e' _ hb, e'' _ hd, Bool.false_eq_true, if_false]

end Sys2Proof
end

