-- ==== Sys2Proof/Laws/HeaderTable.lean ====
section
/-! SUPPORT. What evicting does (R232): the entries that stay are the newest ones, as many as fit. -/

namespace Sys2Proof.Machine

/-- The summed overhead of the newest `k` entries. -/
def newestSize (dyn : List Pair) (k : Nat) : Nat := ((dyn.take k).map Pair.overhead).sum

theorem newestSize_mono (dyn : List Pair) {j k : Nat} (h : j ≤ k) : newestSize dyn j ≤ newestSize dyn k := by
  have : dyn.take j = (dyn.take k).take j := by rw [List.take_take, Nat.min_eq_left h]
  rw [newestSize, newestSize, this]
  exact List.Sublist.sum_le_sum ((List.take_sublist _ _).map _) (fun _ _ => Nat.zero_le _)

/-- The loop of R232 on a table whose counters agree with its entries: it keeps the newest `k` entries, `k` the largest number
whose summed overhead fits the capacity. -/
theorem evictLoop_spec (fuel : Nat) (t : HeaderTable) (hf : t.dyn.length ≤ fuel)
    (hs : t.size = (t.dyn.map Pair.overhead).sum) (hc : t.count = t.dyn.length) :
    ∃ k ≤ t.dyn.length, evictLoop fuel t = ⟨t.dyn.take k, newestSize t.dyn k, t.capacity, k⟩ ∧
      newestSize t.dyn k ≤ t.capacity ∧ ∀ m, k < m → m ≤ t.dyn.length → t.capacity < newestSize t.dyn m := by
  induction fuel generalizing t with
  | zero =>
    have hnil : t.dyn = [] := List.length_eq_zero_iff.1 (by omega)
    obtain ⟨dyn, size, cap, count⟩ := t
    simp only at hnil hs hc
    subst hnil
    exact ⟨0, le_rfl, by simp_all [evictLoop, newestSize], by simp [newestSize], fun m h1 h2 => by simp at h2; omega⟩
  | succ fuel ih =>
    have hall : newestSize t.dyn t.dyn.length = t.size := by rw [newestSize, List.take_length, hs]
    rw [evictLoop]
    split
    · rename_i hgt
      rcases List.eq_nil_or_concat t.dyn with hnil | ⟨l, e, he⟩
      · rw [hnil] at hs
        simp at hs
        omega
      · rw [List.concat_eq_append] at he
        have hlast : t.dyn.getLast? = some e := by simp [he]
        simp only [hlast]
        have hdrop : t.dyn.dropLast = l := by simp [he]
        have hlen : t.dyn.length = l.length + 1 := by simp [he]
        obtain ⟨k, hk, h1, h2, h3⟩ := ih ⟨t.dyn.dropLast, t.size - Pair.overhead e, t.capacity, t.count - 1⟩
          (by simp only [hdrop]; omega) (by simp [hs, he]) (by simp [hc])
        simp only [hdrop] at hk h1 h2 h3
        have htake : ∀ m ≤ l.length, t.dyn.take m = l.take m := fun m hm => by
          rw [he, List.take_append_of_le_length hm]
        have hsz : ∀ m ≤ l.length, newestSize t.dyn m = newestSize l m := fun m hm => by
          rw [newestSize, newestSize, htake m hm]
        refine ⟨k, by omega, ?_, by rw [hsz k hk]; exact h2, fun m hm hm' => ?_⟩
        · rw [hdrop, h1, htake k hk, hsz k hk]
        · by_cases hml : m ≤ l.length
          · rw [hsz m hml]; exact h3 m hm hml
          · have : m = t.dyn.length := by omega
            rw [this, hall]; exact hgt
    · rename_i hle
      refine ⟨t.dyn.length, le_rfl, ?_, by omega, by omega⟩
      rw [List.take_length, hall]
      obtain ⟨dyn, size, cap, count⟩ := t
      simp_all

theorem evict_spec (t : HeaderTable) (hs : t.size = (t.dyn.map Pair.overhead).sum) (hc : t.count = t.dyn.length) :
    ∃ k ≤ t.dyn.length, evict t = ⟨t.dyn.take k, newestSize t.dyn k, t.capacity, k⟩ ∧
      newestSize t.dyn k ≤ t.capacity ∧ ∀ m, k < m → m ≤ t.dyn.length → t.capacity < newestSize t.dyn m :=
  evictLoop_spec _ t le_rfl hs hc

/-- Evicting gives a table that meets its invariant. -/
theorem evict_inv {c : Config} {t : HeaderTable} (hs : t.size = (t.dyn.map Pair.overhead).sum)
    (hc : t.count = t.dyn.length) (hcap : t.capacity ≤ c.htMaxCapacity) : (evict t).Inv c := by
  obtain ⟨k, hk, h1, h2, _⟩ := evict_spec t hs hc
  rw [h1]
  exact ⟨rfl, h2, hcap, by simp [hk]⟩

/-- The loop of R232 keeps a prefix of the entries, whatever the counters say. -/
theorem evictLoop_prefix (fuel : Nat) (t : HeaderTable) : (evictLoop fuel t).dyn <+: t.dyn := by
  induction fuel generalizing t with
  | zero => exact List.prefix_refl _
  | succ fuel ih =>
    rw [evictLoop]
    split
    · split
      · exact List.prefix_refl _
      · exact (ih _).trans (List.dropLast_prefix _)
    · exact List.prefix_refl _

/-- Evicting keeps a prefix of the entries, newest first (R66, R232). -/
theorem evict_prefix (t : HeaderTable) : (evict t).dyn <+: t.dyn := evictLoop_prefix _ t

theorem insertPair_size {t : HeaderTable} (hs : t.size = (t.dyn.map Pair.overhead).sum) (p : Pair) :
    (insertPair t p).size = ((insertPair t p).dyn.map Pair.overhead).sum := by
  simp [insertPair, hs, Nat.add_comm]

theorem insertPair_count {t : HeaderTable} (hc : t.count = t.dyn.length) (p : Pair) :
    (insertPair t p).count = (insertPair t p).dyn.length := by
  simp [insertPair, hc]

theorem emptyTable_inv {c : Config} {t : HeaderTable} (h : t.capacity ≤ c.htMaxCapacity) : (emptyTable t).Inv c :=
  ⟨rfl, Nat.zero_le _, h, rfl⟩

end Sys2Proof.Machine
end

