-- ==== Sys2Proof/Laws/Trie.lean ====
section
/-! SUPPORT. The SymbolTrie: what fewer slots do to a build (R194, R196), and how the walk passes over one code (R197). -/

namespace Sys2Proof.Machine.Trie

/-- An insertion that succeeds in a large arena: in a smaller one it does the same if its slots are enough, and otherwise stops with
every slot used. -/
theorem insert_slots {big slots s : Nat} (bits : List Bool) (t : Trie) (used : Nat) {t' : Trie} {used' : Nat}
    (hu : used ≤ slots) (h : insert big s bits t used = (t', used', true)) :
    used ≤ used' ∧ (used' ≤ slots → insert slots s bits t used = (t', used', true)) ∧
      (slots < used' → ∃ t'', insert slots s bits t used = (t'', slots, false)) := by
  induction bits generalizing t used t' used' with
  | nil =>
    simp only [insert, Prod.mk.injEq] at h ⊢
    obtain ⟨rfl, rfl, _⟩ := h
    exact ⟨le_rfl, fun _ => ⟨rfl, rfl, trivial⟩, fun h => absurd hu (by omega)⟩
  | cons b bits ih =>
    rw [insert] at h
    rw [insert]
    cases hc : t.child b with
    | absent =>
      simp only [hc] at h ⊢
      by_cases hbig : used = big
      · simp [hbig] at h
      · rw [if_neg hbig] at h
        simp only [Prod.mk.injEq] at h
        obtain ⟨h1, h2⟩ := h
        by_cases hs : used = slots
        · subst hs
          have hmono : used + 1 ≤ used' := by
            have e : insert big s bits fresh (used + 1) = ((insert big s bits fresh (used + 1)).1, used', true) :=
              Prod.ext rfl h2
            by_contra hlt
            exact absurd (used_mono bits fresh (used + 1) big s) (by rw [e]; exact hlt)
          exact ⟨by omega, fun h => absurd h (by omega), fun _ => ⟨t, by simp⟩⟩
        · rw [if_neg hs]
          have e : insert big s bits fresh (used + 1) = ((insert big s bits fresh (used + 1)).1, used', true) :=
            Prod.ext rfl h2
          obtain ⟨m, e1, e2⟩ := ih fresh (used + 1) (by omega) e
          refine ⟨by omega, fun hle => ?_, fun hlt => ?_⟩
          · rw [e1 hle, h1]
          · obtain ⟨t'', e''⟩ := e2 hlt
            exact ⟨_, by rw [e'']⟩
    | node c0 c1 sym eos =>
      simp only [hc] at h ⊢
      simp only [Prod.mk.injEq] at h
      obtain ⟨h1, h2⟩ := h
      have e : insert big s bits (.node c0 c1 sym eos) used =
          ((insert big s bits (.node c0 c1 sym eos) used).1, used', true) := Prod.ext rfl h2
      obtain ⟨m, e1, e2⟩ := ih (.node c0 c1 sym eos) used hu e
      refine ⟨m, fun hle => ?_, fun hlt => ?_⟩
      · rw [e1 hle, h1]
      · obtain ⟨t'', e''⟩ := e2 hlt
        exact ⟨t.setChild b t'', by simp [e'']⟩
where
  used_mono (bits : List Bool) (t : Trie) (used big s : Nat) : used ≤ (insert big s bits t used).2.1 := by
    induction bits generalizing t used with
    | nil => exact le_rfl
    | cons b bits ih =>
      rw [insert]
      cases t.child b with
      | absent =>
        dsimp only
        split
        · exact le_rfl
        · exact (Nat.le_succ _).trans (ih fresh (used + 1))
      | node c0 c1 sym eos => exact ih _ _

/-- The same for a whole build. -/
theorem insertAll_slots {big slots : Nat} (codes : List HuffCode) (s : Nat) (t : Trie) (used : Nat) (hu : used ≤ slots)
    (h : (insertAll big s codes t used).ready = true) :
    used ≤ (insertAll big s codes t used).used ∧
      ((insertAll big s codes t used).used ≤ slots → insertAll slots s codes t used = insertAll big s codes t used) ∧
      (slots < (insertAll big s codes t used).used →
        (insertAll slots s codes t used).ready = false ∧ (insertAll slots s codes t used).used = slots) := by
  induction codes generalizing s t used with
  | nil => exact ⟨le_rfl, fun _ => rfl, fun h => absurd hu (by simpa [insertAll] using h)⟩
  | cons c codes ih =>
    rw [insertAll] at h ⊢
    rcases hi : insert big s (codeBits c) t used with ⟨t', used', ok⟩
    cases ok with
    | false => simp [hi] at h
    | true =>
      simp only [hi] at h ⊢
      obtain ⟨m, e1, e2⟩ := insert_slots (slots := slots) (codeBits c) t used hu hi
      by_cases hle : used' ≤ slots
      · obtain ⟨m', e1', e2'⟩ := ih (s + 1) t' used' hle h
        rw [insertAll, e1 hle]
        exact ⟨by omega, e1', e2'⟩
      · obtain ⟨t'', e''⟩ := e2 (by omega)
        have hmono := all_mono (big := big) codes (s + 1) t' used'
        rw [insertAll, e'']
        exact ⟨by omega, fun h => absurd h (by omega), fun _ => ⟨rfl, rfl⟩⟩
where
  all_mono {big : Nat} (codes : List HuffCode) (s : Nat) (t : Trie) (used : Nat) :
      used ≤ (insertAll big s codes t used).used := by
    induction codes generalizing s t used with
    | nil => exact le_rfl
    | cons c codes ih =>
      rw [insertAll]
      have hm := insert_slots.used_mono (codeBits c) t used big s
      rcases hi : insert big s (codeBits c) t used with ⟨t', used', ok⟩
      rw [hi] at hm
      cases ok
      · exact hm
      · exact le_trans hm (ih _ _ _)

/-- An insertion that succeeds does the same in a larger arena. -/
theorem insert_more {slots big s : Nat} (hb : slots ≤ big) (bits : List Bool) (t : Trie) (used : Nat) {t' : Trie}
    {used' : Nat} (hu : used ≤ slots) (h : insert slots s bits t used = (t', used', true)) :
    insert big s bits t used = (t', used', true) ∧ used' ≤ slots := by
  induction bits generalizing t used t' used' with
  | nil =>
    simp only [insert, Prod.mk.injEq] at h ⊢
    obtain ⟨rfl, rfl, _⟩ := h
    exact ⟨⟨rfl, rfl, trivial⟩, hu⟩
  | cons b bits ih =>
    rw [insert] at h
    rw [insert]
    cases hc : t.child b with
    | absent =>
      simp only [hc] at h ⊢
      by_cases hs : used = slots
      · simp [hs] at h
      · rw [if_neg hs] at h
        simp only [Prod.mk.injEq] at h
        obtain ⟨h1, h2⟩ := h
        have e : insert slots s bits fresh (used + 1) = ((insert slots s bits fresh (used + 1)).1, used', true) :=
          Prod.ext rfl h2
        obtain ⟨e1, e2⟩ := ih fresh (used + 1) (by omega) e
        rw [if_neg (by omega), e1, h1]
        exact ⟨rfl, e2⟩
    | node c0 c1 sym eos =>
      simp only [hc] at h ⊢
      simp only [Prod.mk.injEq] at h
      obtain ⟨h1, h2⟩ := h
      have e : insert slots s bits (.node c0 c1 sym eos) used =
          ((insert slots s bits (.node c0 c1 sym eos) used).1, used', true) := Prod.ext rfl h2
      obtain ⟨e1, e2⟩ := ih (.node c0 c1 sym eos) used hu e
      rw [e1, h1]
      exact ⟨rfl, e2⟩

/-- A build that succeeds does the same in a larger arena. -/
theorem insertAll_more {slots big : Nat} (hb : slots ≤ big) (codes : List HuffCode) (s : Nat) (t : Trie) (used : Nat)
    (hu : used ≤ slots) (h : (insertAll slots s codes t used).ready = true) :
    insertAll big s codes t used = insertAll slots s codes t used := by
  induction codes generalizing s t used with
  | nil => rfl
  | cons c codes ih =>
    rw [insertAll] at h ⊢
    rw [insertAll]
    rcases hi : insert slots s (codeBits c) t used with ⟨t', used', ok⟩
    cases ok with
    | false => simp [hi] at h
    | true =>
      simp only [hi] at h
      obtain ⟨e1, e2⟩ := insert_more hb (codeBits c) t used hu hi
      rw [e1]
      exact ih (s + 1) t' used' e2 h

/-- Whether some bits lead from a node, through inner nodes only, to a leaf with that symbol and no EOS flag. -/
def leadsTo (x : Octet) : Trie → List Bool → Bool
  | t, [] => t.isLeaf && !t.isEos && decide (t.symbolOf = some x)
  | t, b :: bits => !t.isLeaf && leadsTo x (t.child b) bits

/-- Whether some bits lead from a node through inner nodes only, the last included. -/
def staysInside : Trie → List Bool → Bool
  | t, [] => !t.isLeaf
  | t, b :: bits => !t.isLeaf && staysInside (t.child b) bits

/-- The walk passes over a code, gives its symbol, and goes on from the root (R197). -/
theorem walkFrom_leadsTo {root : Trie} (hr : root.isLeaf = false) {x : Octet} (code rest : List Bool) (t : Trie)
    (out : List Octet) (h : leadsTo x t code = true) :
    walkFrom root t (code ++ rest) out = walkFrom root root rest (out ++ [x]) := by
  induction code generalizing t with
  | nil =>
    simp only [leadsTo, Bool.and_eq_true, Bool.not_eq_true', decide_eq_true_eq] at h
    obtain ⟨⟨h1, h2⟩, h3⟩ := h
    cases rest with
    | nil => simp [walkFrom, h1, h2, h3, hr]
    | cons b rest => simp [walkFrom, h1, h2, h3, hr]
  | cons b code ih =>
    simp only [leadsTo, Bool.and_eq_true, Bool.not_eq_true'] at h
    simp only [List.cons_append, walkFrom, h.1, Bool.false_eq_true, if_false]
    exact ih _ h.2

/-- The walk gives nothing for bits that end inside a code (R197). -/
theorem walkFrom_staysInside {root : Trie} (bits : List Bool) (t : Trie) (out : List Octet)
    (h : staysInside t bits = true) : walkFrom root t bits out = out := by
  induction bits generalizing t with
  | nil =>
    simp only [staysInside, Bool.not_eq_true'] at h
    simp [walkFrom, h]
  | cons b bits ih =>
    simp only [staysInside, Bool.and_eq_true, Bool.not_eq_true'] at h
    simp only [walkFrom, h.1, Bool.false_eq_true, if_false]
    exact ih _ h.2

/-- Two codes that lead to leaves are not one the beginning of the other, unless they are the same (R222). -/
theorem leadsTo_prefix {x y : Octet} (c d : List Bool) (t : Trie) (hc : leadsTo x t c = true) (hd : leadsTo y t d = true)
    (h : c <+: d) : c = d ∧ x = y := by
  induction c generalizing t d with
  | nil =>
    simp only [leadsTo, Bool.and_eq_true, Bool.not_eq_true', decide_eq_true_eq] at hc
    cases d with
    | nil =>
      simp only [leadsTo, Bool.and_eq_true, decide_eq_true_eq] at hd
      exact ⟨rfl, Option.some.inj (hc.2.symm.trans hd.2)⟩
    | cons b d => simp [leadsTo, hc.1.1] at hd
  | cons b c ih =>
    obtain ⟨r, rfl⟩ := h
    simp only [List.cons_append, leadsTo, Bool.and_eq_true] at hc hd
    obtain ⟨h1, h2⟩ := ih _ _ hc.2 hd.2 (List.prefix_append _ _)
    exact ⟨congrArg _ h1, h2⟩

end Sys2Proof.Machine.Trie
end

