-- ==== Sys2Proof/Laws/HuffmanCodec.lean ====
section
/-! SUPPORT. The trie of the spec's code ROM, computed once by the kernel (R195, R220 to R222), and the walk over a coded string and
over its padded encoding (R199). -/

namespace Sys2Proof.Machine

/-- In the arena of 513 slots every symbol's code leads through inner nodes to that symbol's leaf (R195). -/
theorem rom_leadsTo : ((List.range 256).all fun m =>
    (buildTrie codeRom 513).trie.leadsTo (BitVec.ofNat 8 m) (codeBits (codeOf codeRom m))) = true := by
  decide +kernel

/-- Up to seven 1 bits end at an inner node (R192, R222). -/
theorem rom_staysInside : ((List.range 8).all fun k =>
    (buildTrie codeRom 513).trie.staysInside (List.replicate k true)) = true := by
  decide +kernel

/-- A trie in which every symbol's code leads to its leaf walks over a coded string, and goes on from the root. -/
theorem walkFrom_huffBits {root : Trie} {rom : List HuffCode} (hr : root.isLeaf = false)
    (h : ∀ x : Octet, root.leadsTo x (codeBits (codeOf rom x.toNat)) = true) (str : Str) (rest : List Bool)
    (out : List Octet) : Trie.walkFrom root root (huffBits rom str ++ rest) out =
      Trie.walkFrom root root rest (out ++ str) := by
  induction str generalizing out with
  | nil => simp [huffBits]
  | cons x str ih =>
    have e : huffBits rom (x :: str) = codeBits (codeOf rom x.toNat) ++ huffBits rom str := rfl
    rw [e, List.append_assoc, Trie.walkFrom_leadsTo hr _ _ _ _ (h x), ih]
    simp

/-- The round trip of R199, for any trie and code ROM with the two facts its proof sketch names: each octet's code leads through
inner nodes to that octet's leaf, and up to seven 1 bits end at an inner node and emit nothing.  The trie built from the
ROM of R220 has them: `rom_leadsTo` and `rom_staysInside`. -/
theorem Trie.walk_huffPadded {root : Trie} {rom : List HuffCode} (hr : root.isLeaf = false)
    (h : ∀ x : Octet, root.leadsTo x (codeBits (codeOf rom x.toNat)) = true)
    (hp : ∀ k < 8, root.staysInside (List.replicate k true) = true) (str : Str) :
    root.walk (huffPadded rom str) = str := by
  rw [Trie.walk, huffPadded, walkFrom_huffBits hr h, huffPad, Trie.walkFrom_staysInside _ _ _ (hp _ (by omega)),
    List.nil_append]

/-- The padding makes a whole number of octets (R192). -/
theorem huffPadded_length_dvd (rom : List HuffCode) (str : Str) : 8 ∣ (huffPadded rom str).length := by
  simp only [huffPadded, huffPad, List.length_append, List.length_replicate]
  omega

end Sys2Proof.Machine
end

