-- ==== Sys2Proof/Laws/IntegerCodec.lean ====
section
/-! SUPPORT. The integer format: what the encoder's loop gives, and how the decoder's loop moves over octets that say another
follows (R161 to R163). -/

namespace Sys2Proof.Machine

theorem groupSum_append (l m : List Octet) : groupSum (l ++ m) = groupSum l + 128 ^ l.length * groupSum m := by
  induction l with
  | nil => simp [groupSum]
  | cons b l ih => simp only [List.cons_append, groupSum, ih, List.length_cons, pow_succ]; ring

theorem groupSum_singleton (b : Octet) : groupSum [b] = b.toNat % 128 := by simp [groupSum]

theorem groupSum_lt (l : List Octet) : groupSum l < 128 ^ l.length := by
  induction l with
  | nil => simp [groupSum]
  | cons b l ih =>
    have := Nat.mod_lt b.toNat (by decide : 128 > 0)
    simp only [groupSum, List.length_cons, pow_succ]
    omega

/-- Bit 7 of an octet (R161). -/
theorem getLsbD_seven (b : Octet) : b.getLsbD 7 = decide (128 ≤ b.toNat) := by
  have h : ∀ b : Octet, b.getLsbD 7 = decide (128 ≤ b.toNat) := by decide
  exact h b

/-- The continuation octets of a remainder: octets that say another follows, then one that says it is the last; their groups sum to
the remainder, and there are no more than it needs (R161, R162). -/
theorem contOctets_spec (fuel r : Nat) (h : r ≤ fuel) :
    ∃ body last, contOctets fuel r = body ++ [last] ∧ (∀ b ∈ body, b.getLsbD 7 = true) ∧ last.getLsbD 7 = false ∧
      groupSum (body ++ [last]) = r ∧ (last = 0#8 → body = []) ∧ body.length = Nat.log 128 r := by
  have one : ∀ r : Nat, r < 128 → ∃ body last, [BitVec.ofNat 8 r] = body ++ [last] ∧
      (∀ b ∈ body, b.getLsbD 7 = true) ∧ last.getLsbD 7 = false ∧ groupSum (body ++ [last]) = r ∧
      (last = 0#8 → body = []) ∧ body.length = Nat.log 128 r := by
    intro r hr
    have ht : (BitVec.ofNat 8 r).toNat = r := by simp; omega
    refine ⟨[], BitVec.ofNat 8 r, rfl, by simp, by rw [getLsbD_seven, ht]; simp; omega, ?_, fun _ => rfl, ?_⟩
    · rw [List.nil_append, groupSum_singleton, ht]; omega
    · rw [Nat.log_of_lt hr]; rfl
  induction fuel generalizing r with
  | zero => exact one r (by omega)
  | succ fuel ih =>
    rw [contOctets]
    split
    · rename_i hr
      simp only [Config.intRadix] at hr ⊢
      obtain ⟨body, last, e, hm, hl, hs, hz, hn⟩ := ih (r / 128) (by omega)
      have ht : (BitVec.ofNat 8 (128 + r % 128)).toNat = 128 + r % 128 := by simp; omega
      refine ⟨BitVec.ofNat 8 (128 + r % 128) :: body, last, by rw [e]; rfl, ?_, hl, ?_, fun e0 => ?_, ?_⟩
      · intro b hb
        rcases List.mem_cons.1 hb with rfl | hb
        · rw [getLsbD_seven, ht]; simp
        · exact hm b hb
      · rw [List.cons_append, groupSum, hs, ht]; omega
      · exfalso
        have hb := hz e0
        rw [hb, e0] at hs
        simp [groupSum] at hs
        omega
      · rw [List.length_cons, hn, Nat.log_of_one_lt_of_le (by decide) hr]
    · rename_i hr
      exact one r (by simp only [Config.intRadix] at hr; omega)

/-- The decoder's loop over octets that say another follows (R163). -/
theorem parseCont_body {maxv : Nat} {d : List Octet} (body : List Octet) (left pos mult res : Nat)
    (hd : ∀ j < body.length, d[pos + j]? = body[j]?) (hm : ∀ b ∈ body, b.getLsbD 7 = true)
    (hmul : ∀ k < body.length, mult * 128 ^ k ≤ maxv) (hsum : res + mult * groupSum body ≤ maxv) :
    parseCont maxv d (left + body.length) pos mult res =
      parseCont maxv d left (pos + body.length) (mult * 128 ^ body.length) (res + mult * groupSum body) := by
  induction body generalizing pos mult res with
  | nil => simp [groupSum]
  | cons b body ih =>
    have h0 : d[pos]? = some b := by simpa using hd 0 (by simp)
    have hmul0 := hmul 0 (by simp)
    have hg : groupSum (b :: body) = b.toNat % 128 + 128 * groupSum body := rfl
    have he : mult * groupSum (b :: body) = b.toNat % 128 * mult + mult * 128 * groupSum body := by rw [hg]; ring
    rw [List.length_cons, ← Nat.add_assoc, parseCont, h0]
    simp only [Config.intRadix]
    rw [if_neg (by simpa using hmul0), if_neg (by omega), if_neg (by rw [hm b (by simp)]; decide)]
    rw [ih (pos + 1) (mult * 128) (res + b.toNat % 128 * mult) ?_ (fun x hx => hm x (by simp [hx])) ?_ (by omega)]
    · congr 1
      · omega
      · rw [pow_succ]; ring
      · omega
    · intro j hj
      have := hd (j + 1) (by simpa using hj)
      rwa [List.getElem?_cons_succ, show pos + (j + 1) = pos + 1 + j by omega] at this
    · intro k hk
      have := hmul (k + 1) (by simpa using hk)
      rwa [pow_succ, Nat.mul_comm (128 ^ k), ← Nat.mul_assoc] at this

/-- The decoder at the last octet (R163). -/
theorem parseCont_last {maxv : Nat} {d : List Octet} {left pos mult res : Nat} {b : Octet} (hd : d[pos]? = some b)
    (hl : b.getLsbD 7 = false) (hm : mult ≤ maxv) (hs : res + b.toNat % 128 * mult ≤ maxv) :
    parseCont maxv d (left + 1) pos mult res = .ok (res + b.toNat % 128 * mult, pos + 1) := by
  simp only [parseCont, hd, Config.intRadix]
  rw [if_neg (by omega), if_neg (by omega), if_pos hl]

/-- The three ways the loop stops with a fault (R163). -/
theorem parseCont_truncated {maxv : Nat} {d : List Octet} {left pos mult res : Nat} (h : d.length ≤ pos) :
    parseCont maxv d (left + 1) pos mult res = .error .intTruncated := by
  simp [parseCont, List.getElem?_eq_none h]

theorem parseCont_tooLong {maxv : Nat} {d : List Octet} {pos mult res : Nat} :
    parseCont maxv d 0 pos mult res = .error .intTooLong := rfl

theorem parseCont_overflow {maxv : Nat} {d : List Octet} {left pos mult res : Nat} {b : Octet} (hd : d[pos]? = some b)
    (h : maxv < mult ∨ maxv < res + b.toNat % 128 * mult) :
    parseCont maxv d (left + 1) pos mult res = .error .intOverflow := by
  simp only [parseCont, hd, Config.intRadix]
  split
  · rfl
  · rw [if_pos (by omega)]

/-- The decoder at a first octet whose value is below the mask (R163). -/
theorem intParse_short {maxv : Nat} {d : List Octet} {o n : Nat} {b : Octet} (hd : d[o]? = some b)
    (h : b.toNat % 2 ^ n < 2 ^ n - 1) : intParse maxv d o n = .ok (b.toNat % 2 ^ n, o + 1) := by
  simp [intParse, hd, widthMask, h]

/-- The decoder at a first octet whose value is the mask (R163). -/
theorem intParse_long {maxv : Nat} {d : List Octet} {o n : Nat} {b : Octet} (hd : d[o]? = some b)
    (h : b.toNat % 2 ^ n = 2 ^ n - 1) : intParse maxv d o n = parseCont maxv d 7 (o + 1) 1 (2 ^ n - 1) := by
  simp [intParse, hd, widthMask, h, Config.intMaxOct]

/-- What the loop has read once it is past `body` (R163). -/
theorem Continues.parse {maxv : Nat} {d : List Octet} {o n : Nat} {b0 : Octet} {body : List Octet}
    (h : Continues maxv d o n b0 body) :
    intParse maxv d o n =
      parseCont maxv d (7 - body.length) (o + 1 + body.length) (128 ^ body.length) (2 ^ n - 1 + groupSum body) := by
  have h0 : d[o]? = some b0 := by simpa using h.stands.2 0 (by simp)
  rw [intParse_long h0 h.mask]
  have hs := h.short
  have := parseCont_body (maxv := maxv) (d := d) body (7 - body.length) (o + 1) 1 (2 ^ n - 1) (fun j hj => by
    have := h.stands.2 (j + 1) (by simpa using hj)
    rwa [List.getElem?_cons_succ, show o + (j + 1) = o + 1 + j by omega] at this) h.more
    (fun k hk => by simpa using h.mult k hk) (by simpa using h.sum)
  rw [Nat.sub_add_cancel hs] at this
  simpa using this

end Sys2Proof.Machine
end

