-- ==== Sys2Proof/Laws/PerInstr.lean ====
section
/-! SUPPORT. The per-instruction family `EncodedWord`: the command word the encoder writes has the command's opcode and a zero field of
0 (R92, R94). -/

namespace Sys2Proof.Laws.EncodedWord

/-- The encoding of a command has its opcode in bits 31:24 and 0 in bits 15:8. -/
def Statement (i : Instr) : Prop := cmdOpcode (encode i).cmd = i.opcode ∧ cmdZero (encode i).cmd = 0#8

theorem sysRdcsr (reg : Octet) : Statement (.sysRdcsr reg) :=
  ⟨packCmd_opcode _ _ _ _, packCmd_zero _ _ _ _⟩

theorem bbAppendBit (bit : Bool) : Statement (.bbAppendBit bit) :=
  ⟨packCmd_opcode _ _ _ _, packCmd_zero _ _ _ _⟩

theorem bbAppendOct (v : Octet) : Statement (.bbAppendOct v) :=
  ⟨packCmd_opcode _ _ _ _, packCmd_zero _ _ _ _⟩

theorem bbAt (pos : Nat) : Statement (.bbAt pos) :=
  ⟨packCmd_opcode _ _ _ _, packCmd_zero _ _ _ _⟩

theorem bbPut (bit : Bool) (pos : Nat) : Statement (.bbPut bit pos) :=
  ⟨packCmd_opcode _ _ _ _, packCmd_zero _ _ _ _⟩

theorem bbLen : Statement .bbLen :=
  ⟨packCmd_opcode _ _ _ _, packCmd_zero _ _ _ _⟩

theorem bbClear : Statement .bbClear :=
  ⟨packCmd_opcode _ _ _ _, packCmd_zero _ _ _ _⟩

theorem obInit (a : ObSel) (n : Nat) : Statement (.obInit a n) :=
  ⟨packCmd_opcode _ _ _ _, packCmd_zero _ _ _ _⟩

theorem obSet (a : ObSel) (v : Octet) (k : Nat) : Statement (.obSet a v k) :=
  ⟨packCmd_opcode _ _ _ _, packCmd_zero _ _ _ _⟩

theorem obGet (a : ObSel) (k : Nat) : Statement (.obGet a k) :=
  ⟨packCmd_opcode _ _ _ _, packCmd_zero _ _ _ _⟩

theorem obLen (a : ObSel) : Statement (.obLen a) :=
  ⟨packCmd_opcode _ _ _ _, packCmd_zero _ _ _ _⟩

theorem obLoadBits (a : ObSel) : Statement (.obLoadBits a) :=
  ⟨packCmd_opcode _ _ _ _, packCmd_zero _ _ _ _⟩

theorem obCopy (a b : ObSel) : Statement (.obCopy a b) :=
  ⟨packCmd_opcode _ _ _ _, packCmd_zero _ _ _ _⟩

theorem icSetPrefix (w : Octet) : Statement (.icSetPrefix w) :=
  ⟨packCmd_opcode _ _ _ _, packCmd_zero _ _ _ _⟩

theorem icSetOffset (o : Nat) : Statement (.icSetOffset o) :=
  ⟨packCmd_opcode _ _ _ _, packCmd_zero _ _ _ _⟩

theorem icEncode (a : ObSel) (v : Nat) : Statement (.icEncode a v) :=
  ⟨packCmd_opcode _ _ _ _, packCmd_zero _ _ _ _⟩

theorem icDecode (a : ObSel) : Statement (.icDecode a) :=
  ⟨packCmd_opcode _ _ _ _, packCmd_zero _ _ _ _⟩

theorem icReset : Statement .icReset :=
  ⟨packCmd_opcode _ _ _ _, packCmd_zero _ _ _ _⟩

theorem hcEncode (a : ObSel) (st n : Nat) : Statement (.hcEncode a st n) :=
  ⟨packCmd_opcode _ _ _ _, packCmd_zero _ _ _ _⟩

theorem hcDecode (a b : ObSel) (st n d : Nat) : Statement (.hcDecode a b st n d) :=
  ⟨packCmd_opcode _ _ _ _, packCmd_zero _ _ _ _⟩

theorem htGet (a b : ObSel) (u : Nat) : Statement (.htGet a b u) :=
  ⟨packCmd_opcode _ _ _ _, packCmd_zero _ _ _ _⟩

theorem htPut (a b : ObSel) (ns nl vs vl : Nat) : Statement (.htPut a b ns nl vs vl) :=
  ⟨packCmd_opcode _ _ _ _, packCmd_zero _ _ _ _⟩

theorem htUpdCap (n : Nat) : Statement (.htUpdCap n) :=
  ⟨packCmd_opcode _ _ _ _, packCmd_zero _ _ _ _⟩

theorem htIsFull : Statement .htIsFull :=
  ⟨packCmd_opcode _ _ _ _, packCmd_zero _ _ _ _⟩

end Sys2Proof.Laws.EncodedWord
end

