-- ==== Sys2Proof/Laws/Step.lean ====
section
/-! SUPPORT. Everything one step can do. -/

namespace Sys2Proof.Machine

/-- A step waits, resets, rejects a packet, or runs a well-formed command. -/
theorem step_cases {s t : State} (h : step s = .next t) :
    (s.nextInput = none ∧ t = s) ∨ (s.nextInput = some .reset ∧ t = s.advance.applyReset) ∨
    (∃ p, s.nextInput = some (.packet p) ∧ t = s.advance.raise .illegalCmd) ∨
    (∃ p i, s.nextInput = some (.packet p) ∧ i.wf s.cfg = true ∧ exec i s.advance = .next t) := by
  unfold step at h
  split at h
  · rename_i e
    exact .inl ⟨e, by simpa using h.symm⟩
  · rename_i e
    exact .inr (.inl ⟨e, by simpa using h.symm⟩)
  · rename_i p e
    split at h
    · exact .inr (.inr (.inl ⟨p, e, fail_next h⟩))
    · rename_i i hd
      exact .inr (.inr (.inr ⟨p, i, e, decode_wf hd, h⟩))

/-- The storage after reset is in canonical form. -/
theorem reset_store_wf (c : Config) : Memory.wf (State.resetOf c).bb.store := Memory.wf_nil

end Sys2Proof.Machine
end

