-- ==== Sys2Proof/Tests/Slice0.lean ====
section
/-! SUPPORT. The model's own tests: ill-formed terms that the checks refuse, command words written out from the spec's encoding, one
or two small tests per command, and a witness for every statement that has hypotheses.  Expected values come from the
spec: the examples at the end of each command's rule, and `95_test_vectors.md`. -/

open Sys2Proof Sys2Proof.Machine

namespace Sys2Proof.Tests

/-! ## Helpers -/

/-- What is left of a state after some commands from reset. -/
def after {α : Type} (is : List Instr) (f : State → α) : Option α := (execAll is State.reset).map f

/-- The response registers of the last command. -/
def response (s : State) : Nat × Nat × Nat := (s.rc.toNat, s.r0, s.r1)

/-- The first octets of a buffer. -/
def front (a : ObSel) (n : Nat) (s : State) : List Nat := ((s.ob a).take n).map BitVec.toNat

/-- Set a buffer's octets one command at a time (OB.SET). -/
def fill (a : ObSel) (seq : List Octet) : List Instr :=
  (List.range seq.length).map fun k => .obSet a (seq.getD k 0#8) k

/-- The reset state with a packet presented. -/
def present (p : Packet) : State := State.reset.presentNext p

/-- The packet of a command word alone. -/
def word (w : BitVec 32) : Packet := ⟨w, 0, 0, 0, 0⟩

/-- A configuration whose BitBuffer has 8 bits and cannot grow. -/
def tight : Config := { Config.default with bbInitCap := 8, bbPhysBits := 8 }

/-- Its reset state. -/
def tightReset : State := State.resetOf tight

/-- The same with its eight bits in use, all 0. -/
def tightFull : State := { tightReset with bb := ⟨[], 8, 8⟩ }

/-- A state whose IntegerCodec has a width, over a buffer 0 of the given octets. -/
def coded (xlen width offset : Nat) (d : List Octet) : State :=
  { State.resetOf { Config.default with xlen := xlen } with ic := ⟨width, offset⟩, obs := [d, [], [], []] }

/-! ## Well-formedness: each check refuses an ill-formed term -/

theorem smoke_selector_refused : (Instr.obLen 4).wf Config.default = false := by decide +kernel
theorem smoke_selector_accepted : (Instr.obLen 3).wf Config.default = true := by decide +kernel
theorem smoke_second_selector_refused : (Instr.obCopy 0 4).wf Config.default = false := by decide +kernel
theorem smoke_same_buffer_refused : (Instr.htGet 1 1 2).wf Config.default = false := by decide +kernel
theorem smoke_wide_word_refused : (Instr.bbAt (2 ^ 32)).wf Config.default = false := by decide +kernel
theorem smoke_widest_word_accepted : (Instr.bbAt (2 ^ 32 - 1)).wf Config.default = true := by decide +kernel
theorem smoke_wide_second_word_refused : (Instr.hcEncode 0 0 (2 ^ 32)).wf Config.default = false := by decide +kernel
theorem smoke_wide_third_word_refused : (Instr.hcDecode 0 1 0 1 (2 ^ 32)).wf Config.default = false := by decide +kernel
theorem smoke_wide_fourth_word_refused : (Instr.htPut 0 1 0 0 0 (2 ^ 32)).wf Config.default = false := by decide +kernel
theorem smoke_default_valid : Config.default.Valid := by decide +kernel
theorem smoke_narrow_config_refused : ¬ Config.Valid { Config.default with xlen := 7 } := by decide +kernel
theorem smoke_one_buffer_config_refused : ¬ Config.Valid { Config.default with nob := 1 } := by decide +kernel
theorem smoke_short_rom_config_refused : ¬ Config.Valid { Config.default with codeRom := [] } := by decide +kernel

/-! ## Words written out from R92, R94 and R95 -/

theorem word_sys_bb :
    decodeTableWord 32 0x01000031 = some (.sysRdcsr 0x31) ∧ decodeTableWord 32 0x10000001 = some (.bbAppendBit true) ∧
    decodeTableWord 32 0x10000000 = some (.bbAppendBit false) ∧ decodeTableWord 32 0x110000A5 = some (.bbAppendOct 0xA5) ∧
    decodeTableWord 32 0x12000000 = some (.bbAt 0) ∧ decodeTableWord 32 0x13000001 = some (.bbPut true 0) ∧
    decodeTableWord 32 0x14000000 = some .bbLen ∧ decodeTableWord 32 0x15000000 = some .bbClear := by decide +kernel
theorem word_ob :
    decodeTableWord 32 0x20300000 = some (.obInit 3 0) ∧ decodeTableWord 32 0x212000AB = some (.obSet 2 0xAB 0) ∧
    decodeTableWord 32 0x22100000 = some (.obGet 1 0) ∧ decodeTableWord 32 0x23200000 = some (.obLen 2) ∧
    decodeTableWord 32 0x24100000 = some (.obLoadBits 1) ∧ decodeTableWord 32 0x25120000 = some (.obCopy 1 2) := by
  decide +kernel
theorem word_ic :
    decodeTableWord 32 0x30000005 = some (.icSetPrefix 5) ∧ decodeTableWord 32 0x31000000 = some (.icSetOffset 0) ∧
    decodeTableWord 32 0x32300000 = some (.icEncode 3 0) ∧ decodeTableWord 32 0x33200000 = some (.icDecode 2) ∧
    decodeTableWord 32 0x34000000 = some .icReset := by decide +kernel
theorem word_hc_ht :
    decodeTableWord 32 0x40100000 = some (.hcEncode 1 0 0) ∧ decodeTableWord 32 0x41230000 = some (.hcDecode 2 3 0 0 0) ∧
    decodeTableWord 32 0x50010000 = some (.htGet 0 1 0) ∧ decodeTableWord 32 0x51320000 = some (.htPut 3 2 0 0 0 0) ∧
    decodeTableWord 32 0x52000000 = some (.htUpdCap 0) ∧ decodeTableWord 32 0x53000000 = some .htIsFull := by
  decide +kernel
theorem word_refused :
    decodeTableWord 32 0x02000000 = none ∧ decodeTableWord 32 0x14000100 = none ∧ decodeTableWord 32 0x23500000 = none ∧
    decodeTableWord 32 0x50110000 = none ∧ decodeTableWord 32 0x24010000 = none ∧ decodeTableWord 32 0x53000001 = none := by
  decide +kernel
theorem words_carry_operands : decode Config.default ⟨0x51010000#32, 1, 6, 2, 14⟩ = .ok (.htPut 0 1 1 6 2 14) ∧
    decode Config.default ⟨0x41010000#32, 1, 2, 3, 9⟩ = .ok (.hcDecode 0 1 1 2 3) := by decide +kernel

/-! ## The commands -/

theorem test_rdcsr_capacity : after [.sysRdcsr 0x31] response = some (0, 4096, 0) := by decide +kernel
theorem test_rdcsr_unassigned : after [.sysRdcsr 0x03, .sysRdcsr 0x00] response = some (0, 2, 0) := by decide +kernel
theorem test_appendbit : after [.bbAppendBit true] (fun s => (response s, s.bb)) =
    some ((0, 1, 0), ⟨[(0, 0x80#8)], 64, 1⟩) := by decide +kernel
theorem test_appendoct : after [.bbAppendOct 0xA5, .bbAppendBit true, .bbAppendOct 0xFF] (fun s => (response s, s.bb)) =
    some ((0, 17, 0), ⟨[(0, 0xA5#8), (1, 0xFF#8), (2, 0x80#8)], 64, 17⟩) := by decide +kernel
theorem test_at : after [.bbAppendOct 0xA5, .bbAt 1] response = some (0, 0, 0) ∧
    after [.bbAppendOct 0xA5, .bbAt 7] response = some (0, 1, 0) := by decide +kernel
theorem test_at_range : after [.bbAppendOct 0xA5, .bbAt 8] response = some (3, 0, 0) := by decide +kernel
theorem test_put_sets_and_keeps : after [.bbAppendOct 0x00, .bbPut true 3, .bbPut false 3] (fun s => s.bb.store) =
    some [(0, 0x10#8)] := by decide +kernel
theorem test_put_range : after [.bbPut false 0] response = some (3, 0, 0) := by decide +kernel
theorem test_len : after [.bbLen] response = some (0, 0, 64) := by decide +kernel
theorem test_clear_keeps_capacity : after (List.replicate 100 (.bbAppendBit true) ++ [.bbClear, .bbLen]) response =
    some (0, 0, 128) := by decide +kernel
theorem test_init_floor : after [.obInit 0 5] response = some (0, 16, 0) := by decide +kernel
theorem test_init_capacity : after [.obInit 0 4097] response = some (5, 0, 0) := by decide +kernel
theorem test_set_last : after [.obSet 0 0xAB 15, .obGet 0 15] response = some (0, 0xAB, 0) := by decide +kernel
theorem test_set_dropped : after [.obSet 0 0xAB 16] (fun s => (response s, s.fault, front 0 16 s)) =
    some ((0, 0, 0), 0, List.replicate 16 0) := by decide +kernel
theorem test_get_range : after [.obGet 0 16] response = some (4, 0, 0) := by decide +kernel
theorem test_oblen : after [.obInit 2 100, .obLen 2] response = some (0, 100, 0) := by decide +kernel
theorem test_loadbits : after [.bbAppendOct 0x1F, .bbAppendOct 0x9A, .bbAppendBit true, .obLoadBits 1]
    (fun s => (response s, s.ob 1)) = some ((0, 2, 0), [0x1F#8, 0x9A#8]) := by decide +kernel
theorem test_loadbits_empty : after [.obLoadBits 1] response = some (0, 16, 0) := by decide +kernel
theorem test_copy : after [.obInit 0 20, .obSet 0 7 19, .obCopy 1 0, .obGet 1 19] response = some (0, 7, 0) := by
  decide +kernel
theorem test_setprefix : after [.icSetPrefix 5, .sysRdcsr 0x20] response = some (0, 5, 0) := by decide +kernel
theorem test_setprefix_nine : after [.icSetPrefix 9] response = some (6, 0, 0) := by decide +kernel
theorem test_setoffset : after [.icSetPrefix 5, .icSetOffset 10, .icEncode 0 3]
    (fun s => (s.octet 0 10, s.ic.offset)) = some (some 0x03#8, 11) := by decide +kernel
theorem test_encode : after [.icSetPrefix 5, .icEncode 0 1337] (fun s => (response s, front 0 3 s, s.ic.offset)) =
    some ((0, 3, 3), [0x1F, 0x9A, 0x0A], 3) := by decide +kernel
theorem test_encode_exhausted : after [.icSetPrefix 5, .icSetOffset 14, .icEncode 0 1337]
    (fun s => (response s, front 0 14 s, s.obLen 0, s.ic.offset)) =
      some ((7, 0, 0), List.replicate 14 0, 16, 14) := by decide +kernel
theorem test_decode : after (fill 0 [0xFF, 0x9A, 0x0A] ++ [.icSetPrefix 5, .icDecode 0]) response =
    some (0, 1337, 3) := by decide +kernel
theorem test_decode_overflow : after (fill 0 [0x1F, 0xFF, 0xFF, 0xFF, 0xFF, 0x7F] ++ [.icSetPrefix 5, .icDecode 0]) response =
    some (10, 0, 0) := by decide +kernel
theorem test_icreset : after [.icSetPrefix 5, .icSetOffset 3, .icReset, .icEncode 0 1] response = some (6, 0, 0) := by
  decide +kernel
theorem test_hcencode : after (fill 0 [0x33, 0x30, 0x32] ++ [.hcEncode 0 0 3]) (fun s => (response s, s.bb.store)) =
    some ((0, 16, 0), [(0, 0x64#8), (1, 0x02#8)]) := by decide +kernel
theorem test_hcencode_too_long : after [.hcEncode 0 0 1025] response = some (12, 0, 0) := by decide +kernel
theorem test_hcdecode : after (fill 0 [0x64, 0x02] ++ [.hcDecode 0 1 0 2 0]) (fun s => (response s, front 1 4 s)) =
    some ((0, 3, 0), [0x33, 0x30, 0x32, 0]) := by decide +kernel
theorem test_hcdecode_faults : after [.hcDecode 0 1 0 0 0] response = some (13, 0, 0) ∧
    after (fill 0 [0x64, 0x02] ++ [.hcDecode 0 1 0 2 14]) (fun s => (response s, front 1 16 s)) =
      some ((14, 0, 0), List.replicate 16 0) := by decide +kernel
theorem test_htget_static : after [.htGet 0 1 2] (fun s => (response s, (s.ob 0).take 7, (s.ob 1).take 3)) =
    some ((0, 7, 3), ascii ":method", ascii "GET") := by decide +kernel
theorem test_htget_range : after [.htGet 0 1 62] response = some (15, 0, 0) := by decide +kernel
theorem test_htput : after (fill 0 (ascii "server") ++ fill 1 (ascii "TestServer/1.0") ++ [.htPut 0 1 0 6 0 14])
    (fun s => (response s, s.ht.dyn)) = some ((0, 1, 52), [asciiPair "server" "TestServer/1.0"]) := by decide +kernel
theorem test_htput_oversized : after [.htUpdCap 40, .htPut 0 1 0 9 0 0] (fun s => (response s, s.ht.dyn)) =
    some ((0, 0, 0), []) := by decide +kernel
theorem test_updcap_evicts : after [.htPut 0 1 0 1 0 1, .htPut 0 1 0 2 0 2, .htUpdCap 69] (fun s => (response s, s.ht.count)) =
    some ((0, 1, 36), 1) := by decide +kernel
theorem test_updcap_range : after [.htUpdCap 65537] response = some (17, 0, 0) := by decide +kernel
theorem test_isfull_zero_capacity : after [.htUpdCap 0, .htIsFull] response = some (0, 1, 0) := by decide +kernel
theorem test_isfull_reset : after [.htIsFull] response = some (0, 0, 0) := by decide +kernel

/-- R200: the nine octets of "text/html" take 51 code bits and 5 of padding. -/
theorem test_huffman_scenario : (huffBits codeRom (ascii "text/html")).length = 51 ∧
    (huffPadded codeRom (ascii "text/html")).length = 56 := by decide +kernel

/-! ## Witnesses: for each statement with hypotheses, states and operands that meet them, clause by clause -/

/-- Whether an outcome is a next state, and that state. -/
def isNext (o : Host.Outcome State Fault Refusal) : Bool :=
  match o with
  | .next _ => true
  | _ => false

def nextOf (o : Host.Outcome State Fault Refusal) : State :=
  match o with
  | .next t => t
  | _ => State.reset

theorem eq_next {o : Host.Outcome State Fault Refusal} (h : isNext o = true) : o = .next (nextOf o) := by
  cases o <;> simp_all [isNext, nextOf]

/-- Encode three octets of buffer 0, load them into buffer 1, decode them into buffer 2. -/
def rt1 : State := nextOf (exec (.hcEncode 0 0 3) State.reset)
def rt2 : State := nextOf (exec (.obLoadBits 1) rt1)
def rt3 : State := nextOf (exec (.hcDecode 1 2 0 (rt1.r0 / 8) 0) rt2)

/-- Buffer 0 of the reset state starts with the Huffman code of "302" (`95_test_vectors.md` V-H2), two octets that decode to three. -/
def coded302 : State := { State.reset with obs := State.reset.obs.set 0 (0x64#8 :: 0x02#8 :: List.replicate 14 0#8) }

theorem resetOf_hc (c : Config) : (State.resetOf c).hc = buildTrie c.codeRom c.trieNodes := rfl

/-- The reset state meets the invariant. -/
theorem witness_resetInv : State.reset.Inv where
  cfg := by decide +kernel
  rc_le := by decide +kernel
  r0_lt := by decide +kernel
  r1_lt := by decide +kernel
  zero_result := fun h => absurd rfl h
  fault_lt := by decide +kernel
  fault_bits := fun c h => by simp [State.reset, State.resetOf] at h
  recorded := fun h => absurd rfl h
  bb := ⟨by decide +kernel, by decide +kernel, ⟨0, rfl⟩, by decide +kernel, by decide +kernel, by decide +kernel, by decide +kernel⟩
  obs_count := by decide +kernel
  obs_len := by decide +kernel
  width_le := by decide +kernel
  offset_lt := by decide +kernel
  hc := resetOf_hc Config.default
  ht := ⟨rfl, by decide +kernel, by decide +kernel, rfl⟩

theorem witness_tight : tight.Valid ∧ BitBuffer.Inv tight tightReset.bb ∧ BitBuffer.Inv tight tightFull.bb :=
  ⟨by decide +kernel,
    ⟨by decide +kernel, by decide +kernel, ⟨0, rfl⟩, by decide +kernel, by decide +kernel, by decide +kernel, by decide +kernel⟩,
    ⟨by decide +kernel, by decide +kernel, ⟨0, rfl⟩, by decide +kernel, by decide +kernel, by decide +kernel, by decide +kernel⟩⟩

theorem witness_DecodingTheEncodingGivesTheCommand :
    (Instr.htPut 3 0 (2 ^ 32 - 1) 0 7 (2 ^ 32 - 1)).wf Config.default = true ∧
    (Instr.htGet 0 3 62).wf Config.default = true ∧ (Instr.bbPut true 0).wf Config.default = true := by decide +kernel

theorem witness_DecodedCommandReencodesToTheWord :
    decode Config.default ⟨0x23300000#32, 9, 8, 7, 6⟩ = .ok (.obLen 3) := by decide +kernel

theorem witness_NoWordMatchesTwoRows : ∃ r ∈ rows, r.selects 0x21100074#32 = true := by decide +kernel

theorem witness_UnassignedWordsRaiseIllegalCmd (p : Packet) : (present p).stream[(present p).index]? = some (.packet p) ∧
    (∀ r ∈ rows, r.selects 0x02000000#32 = false) ∧ cmdOpcode 0x00000000#32 = 0#8 ∧ cmdZero 0x14008000#32 = 0x80#8 ∧
    (cmdOpcode 0x30100000#32 = 0x30#8 ∧ cmdObA 0x30100000#32 = 1#4) ∧
    (cmdOpcode 0x21010000#32 = 0x21#8 ∧ cmdObB 0x21010000#32 = 1#4) ∧
    (cmdOpcode 0x53000001#32 = 0x53#8 ∧ cmdImm8 0x53000001#32 = 1#8) ∧
    (cmdOpcode 0x13000002#32 = 0x13#8 ∧ cmdImm8 0x13000002#32 = 2#8) := by
  refine ⟨rfl, ?_⟩
  decide +kernel

theorem witness_SelectorChecksRaiseIllegalCmd (x : Nat) :
    (∀ i ∈ [Instr.obLen 4, .obCopy 0 4, .obCopy 15 0, .htGet 2 2 1], i.selectorsLegal State.reset.cfg = false ∧
      (present ⟨(encode i).cmd, x, x, x, x⟩).stream[(present ⟨(encode i).cmd, x, x, x, x⟩).index]? =
        some (.packet ⟨(encode i).cmd, x, x, x, x⟩)) ∧ (3#4 : ObSel).toNat < Config.default.nob := by
  refine ⟨fun i h => ⟨?_, rfl⟩, by decide +kernel⟩
  revert i
  decide +kernel

theorem witness_StepRunsTheDecodedCommand :
    (present (word 0x53000000#32)).stream[(present (word 0x53000000#32)).index]? = some (.packet (word 0x53000000#32)) ∧
    decode (present (word 0x53000000#32)).cfg (word 0x53000000#32) = .ok .htIsFull := ⟨rfl, by decide +kernel⟩

theorem witness_EveryPacketAdvancesTheIndexByOne :
    (present (word 0x14000000#32)).stream[(present (word 0x14000000#32)).index]? = some (.packet (word 0x14000000#32)) ∧
    ∃ t, step (present (word 0x14000000#32)) = .next t := ⟨rfl, _, rfl⟩

theorem witness_WaitingChangesNothing : State.reset.stream.length ≤ State.reset.index := by decide +kernel

theorem witness_ResetLeavesTheListedValues : Config.default.Valid ∧ Config.default.codeRom = codeRom ∧
    Config.Valid { Config.default with trieNodes := 512 } := ⟨by decide +kernel, rfl, by decide +kernel⟩

theorem witness_ResetInputRestoresTheResetState :
    ({ tightFull with stream := [.reset] } : State).stream[({ tightFull with stream := [.reset] } : State).index]? =
      some .reset := rfl

theorem witness_StateInvariantHoldsAfterReset : Config.default.Valid ∧ tight.Valid := by decide +kernel

theorem witness_EveryStepKeepsTheStateInvariant : State.reset.Inv ∧ ∃ t, step State.reset = .next t :=
  ⟨witness_resetInv, _, rfl⟩

/-- A command that ends with OK, one that faults, and one that faults with INT_DEST_EXHAUSTED, each from a concrete state. -/
theorem witness_exec : (∃ t, exec .bbLen State.reset = .next t ∧ t.rc = 0) ∧
    (∃ t, exec (.bbAt 0) State.reset = .next t ∧ t.rc = 3#8) ∧
    (∃ t, exec (.bbAppendBit true) tightFull = .next t ∧ t.rc = 2#8) ∧
    (∃ t, exec (.icEncode 0 1337) (coded 32 5 14 (List.replicate 16 0#8)) = .next t ∧ t.rc = 7#8) :=
  ⟨⟨_, rfl, by decide +kernel⟩, ⟨_, rfl, by decide +kernel⟩, ⟨_, rfl, by decide +kernel⟩, ⟨_, rfl, by decide +kernel⟩⟩

theorem witness_CompletionCodeResultsAndFaultAgree : (∃ t, exec .bbLen State.reset = .next t) ∧
    ∃ t, exec (.bbAt 0) State.reset = .next t := ⟨⟨_, rfl⟩, ⟨_, rfl⟩⟩

theorem witness_FaultBitsStaySetUntilReset :
    ({ State.reset with fault := 2 } : State).stream[({ State.reset with fault := 2 } : State).index]? ≠ some .reset ∧
    (∃ t, step { State.reset with fault := 2 } = .next t) ∧
    ({ State.reset with fault := 2 } : State).fault.testBit 1 = true := ⟨nofun, ⟨_, rfl⟩, by decide +kernel⟩

theorem witness_NoFaultRecordedMeansEveryCommandCompleted : 18 ≤ State.reset.cfg.xlen ∧
    ∃ t, execAll ([.bbLen] ++ .htIsFull :: [.obLen 0]) State.reset = some t ∧ t.noFaultRecorded :=
  ⟨by decide +kernel, _, rfl, rfl⟩

theorem witness_NoCommandChangesTheConfigurationOrTheTrie : ∃ t, exec (.htUpdCap 0) State.reset = .next t := ⟨_, rfl⟩

theorem witness_FaultingCommandsChangeOnlyWhatIsListed :
    (∃ t, exec (.bbAt 0) State.reset = .next t ∧ t.rc ≠ 0 ∧ t.rc ≠ 7#8 ∧ t.rc ≠ 2#8 ∧ t.rc ≠ 14#8) ∧
    (∃ t, exec (.icEncode 0 1337) (coded 32 5 14 (List.replicate 16 0#8)) = .next t ∧ t.rc = 7#8) ∧
    (∃ t, exec (.bbAppendBit true) tightFull = .next t ∧ t.rc = 2#8 ∧ (∀ v, Instr.bbAppendBit true ≠ .bbAppendOct v) ∧
      (∀ a st n, Instr.bbAppendBit true ≠ .hcEncode a st n) ∧ ∀ a b st n d, Instr.bbAppendBit true ≠ .hcDecode a b st n d) ∧
    ∃ t, exec (.hcDecode 0 1 0 2 14) coded302 = .next t ∧ t.rc = 14#8 :=
  ⟨⟨_, rfl, by decide +kernel⟩, ⟨_, rfl, by decide +kernel⟩, ⟨_, rfl, by decide +kernel, nofun, nofun, nofun⟩,
    nextOf (exec (.hcDecode 0 1 0 2 14) coded302), eq_next (by decide +kernel), by decide +kernel⟩

theorem witness_EachFamilyTouchesOnlyItsComponents : ∃ t, exec (.obInit 0 20) State.reset = .next t := ⟨_, rfl⟩

theorem witness_OctetBufferLengthsChangeOnlyByThreeCommands :
    (∃ t, exec (.obSet 0 1 0) State.reset = .next t) ∧ (∀ n, Instr.obSet 0 1 0 ≠ .obInit 0 n) ∧
    Instr.obSet 0 1 0 ≠ .obLoadBits 0 ∧ ∀ src, Instr.obSet 0 1 0 ≠ .obCopy 0 src :=
  ⟨⟨_, rfl⟩, nofun, nofun, nofun⟩

theorem witness_BitBufferShrinksOnlyByClearing : State.reset.cfg.Valid ∧ State.reset.bb.Inv State.reset.cfg ∧
    (∃ t, exec (.bbAppendBit true) State.reset = .next t) ∧ Instr.bbAppendBit true ≠ .bbClear ∧
    ∀ a b st n d, Instr.bbAppendBit true ≠ .hcDecode a b st n d :=
  ⟨witness_resetInv.cfg, witness_resetInv.bb, ⟨_, rfl⟩, nofun, nofun⟩

theorem witness_OnlyRdcsrDependsOnTheFaultRegister : Instr.bbLen ≠ .sysRdcsr 0 ∧ (∃ t, exec .bbLen State.reset = .next t) ∧
    ∃ u, exec .bbLen { State.reset with fault := 6 } = .next u := ⟨nofun, ⟨_, rfl⟩, ⟨_, rfl⟩⟩

theorem witness_RdcsrReadsTheNumberedRegisters : State.reset.obs.length = State.reset.cfg.nob ∧ State.reset.cfg.Valid ∧
    (3#4 : ObSel).toNat < State.reset.cfg.nob ∧
    (∀ reg ∈ [0x01#8, 0x33#8, 0x3F#8, 0x44#8, 0xFF#8],
      reg ∉ [0x00#8, 0x02#8, 0x10#8, 0x11#8, 0x20#8, 0x21#8, 0x30#8, 0x31#8, 0x32#8] ∧
      ¬ (0x40 ≤ reg.toNat ∧ reg.toNat < 0x40 + State.reset.cfg.nob)) := by decide +kernel

theorem witness_AppendBitAppendsOrFailsUnchanged :
    (tightReset.cfg.Valid ∧ tightReset.bb.Inv tightReset.cfg ∧
      ¬ (tightReset.bb.len = tightReset.bb.cap ∧ 2 * tightReset.bb.cap > tightReset.cfg.bbPhysBits)) ∧
    (tightFull.bb.Inv tightFull.cfg ∧ tightFull.bb.len = tightFull.bb.cap ∧
      2 * tightFull.bb.cap > tightFull.cfg.bbPhysBits) :=
  ⟨⟨witness_tight.1, witness_tight.2.1, by decide +kernel⟩, witness_tight.2.2, by decide +kernel⟩

theorem witness_noRoom : ¬ tightFull.bb.HasRoom tightFull.cfg.bbPhysBits 8 := by
  rintro ⟨k, h1, h2⟩
  have h1 : 8 * 2 ^ k ≤ 8 := h1
  have h2 : 8 + 8 ≤ 8 * 2 ^ k := h2
  omega

theorem witness_AppendOctAppendsEightBitsOrTheLeadingOnes :
    (tightReset.cfg.Valid ∧ tightReset.bb.Inv tightReset.cfg ∧ tightReset.bb.HasRoom tightReset.cfg.bbPhysBits 8) ∧
    (tightFull.cfg.Valid ∧ tightFull.bb.Inv tightFull.cfg ∧ ¬ tightFull.bb.HasRoom tightFull.cfg.bbPhysBits 8 ∧
      8 ∣ tightFull.bb.len) :=
  ⟨⟨witness_tight.1, witness_tight.2.1, 0, by decide +kernel⟩, witness_tight.1, witness_tight.2.2, witness_noRoom,
    by decide +kernel⟩

theorem witness_AtReadsTheBitBelowTheLength : 7 < tightFull.bb.len ∧ tightFull.bb.len ≤ 8 := by decide +kernel

theorem witness_PutSetsButNeverClears : Memory.wf tightFull.bb.store ∧ 7 < tightFull.bb.len ∧ tightFull.bb.len ≤ 8 := by
  decide +kernel

theorem witness_ClearZeroesEveryBitAndKeepsTheCapacity : tightFull.bb.Inv tightFull.cfg := witness_tight.2.2

theorem witness_AppendedBitsReadBackInOrder : State.reset.cfg.Valid ∧ State.reset.bb.Inv State.reset.cfg ∧
    State.reset.bb.len = 0 ∧ State.reset.bb.HasRoom State.reset.cfg.bbPhysBits 32768 :=
  ⟨witness_resetInv.cfg, witness_resetInv.bb, rfl, 9, by decide +kernel⟩

theorem witness_InitZeroesTheBufferAtTheRaisedCapacity : (3#4 : ObSel).toNat < State.reset.obs.length ∧
    15 < State.reset.cfg.obFloor ∧ State.reset.cfg.obFloor ≤ State.reset.cfg.obPhys ∧ 4096 ≤ State.reset.cfg.obPhys ∧
    State.reset.cfg.obPhys < 4097 := by decide +kernel

theorem witness_SetWritesInRangeAndDropsOutOfRange : (0#4 : ObSel).toNat < State.reset.obs.length ∧
    15 < State.reset.obLen 0 ∧ State.reset.obLen 0 ≤ 16 := by decide +kernel

theorem witness_GetReadsInRangeAndFaultsOutOfRange : (0#4 : ObSel).toNat < State.reset.obs.length ∧
    State.reset.octet 0 15 = some 0#8 ∧ State.reset.obLen 0 ≤ 16 := by decide +kernel

theorem witness_ObLenReportsTheLength : (3#4 : ObSel).toNat < State.reset.obs.length := by decide +kernel

/-- LoadBits: an empty BitBuffer; octets that just fit; one octet too many (OB_PHYS = 16, a BitBuffer of 136 bits). -/
theorem witness_LoadBitsTakesTheWholeOctets : (0#4 : ObSel).toNat < State.reset.obs.length ∧ State.reset.bb.len = 0 ∧
    (tightFull.bb.len ≠ 0 ∧ tightFull.bb.len / 8 ≤ tightFull.cfg.obPhys) ∧
    (let s : State := { State.reset with cfg := { Config.default with obPhys := 16 }, bb := ⟨[], 256, 136⟩ };
      s.bb.len ≠ 0 ∧ s.cfg.obPhys < s.bb.len / 8 ∧ (0#4 : ObSel).toNat < s.obs.length) := by decide +kernel

theorem witness_CopyGivesTheDestinationTheSourcesOctets : (0#4 : ObSel).toNat < State.reset.obs.length ∧
    (3#4 : ObSel).toNat < State.reset.obs.length := by decide +kernel

theorem witness_SetPrefixAcceptsZeroToEight : (8#8 : Octet).toNat ≤ 8 ∧ 8 < (9#8 : Octet).toNat := by decide +kernel

theorem witness_IcResetUnsetsThePrefix : (3#4 : ObSel).toNat < State.reset.obs.length := by decide +kernel

theorem witness_IntSeqIsTheShortestRepresentation : 1 ≤ 5 ∧ 5 ≤ 8 ∧ 30 < 2 ^ 5 - 1 ∧ 2 ^ 5 - 1 ≤ 31 ∧ 31 = 2 ^ 5 - 1 ∧
    2 ^ 5 - 1 < 32 := by decide

theorem witness_EncodeWritesTheWholeIntegerOrFaults :
    (0#4 : ObSel).toNat < (coded 32 5 13 (List.replicate 16 0#8)).obs.length ∧ (coded 32 0 0 []).ic.width = 0 ∧
    (0#4 : ObSel).toNat < (coded 32 0 0 []).obs.length ∧
    13 + (intSeq 1337 5).length = (coded 32 5 13 (List.replicate 16 0#8)).obLen 0 ∧
    (coded 32 5 14 (List.replicate 16 0#8)).obLen 0 < 14 + (intSeq 1337 5).length := by decide +kernel

/-- One octet; two octets, the value `mask`; eight octets, the longest accepted form. -/
theorem witness_DecodeAcceptsTheRepresentations :
    (coded 64 5 0 [0xEA]).cfg.Valid ∧ (0#4 : ObSel).toNat < (coded 64 5 0 [0xEA]).obs.length ∧
    ((coded 64 5 0 [0xEA]).octet 0 0 = some 0xEA#8 ∧ (0xEA#8).toNat % 2 ^ 5 < 2 ^ 5 - 1) ∧
    (Continues (coded 64 5 0 [0x1F, 0x00]).cfg.maxWord [0x1F, 0x00] 0 5 0x1F [] ∧
      2 ^ 5 - 1 + groupSum ([] ++ [0x00#8]) ≤ (coded 64 5 0 []).cfg.maxWord) ∧
    (Continues (2 ^ 64 - 1) [0x1F, 0x80, 0x80, 0x80, 0x80, 0x80, 0x80, 0x01] 0 5 0x1F [0x80, 0x80, 0x80, 0x80, 0x80, 0x80] ∧
      128 ^ 6 ≤ 2 ^ 64 - 1 ∧ (0x01#8).getLsbD 7 = false) := by
  refine ⟨by decide +kernel, by decide +kernel, by decide +kernel, ⟨⟨⟨?_, ?_⟩, ?_, ?_, ?_, ?_, ?_⟩, ?_⟩,
    ⟨⟨⟨?_, ?_⟩, ?_, ?_, ?_, ?_, ?_⟩, ?_⟩⟩ <;> decide +kernel

/-- BAD_PREFIX; a cursor at the end; eight octets that all say "more"; a buffer that ends inside; a value of 2^32 with XLEN 32; a
multiplier of 128^5 with XLEN 32. -/
theorem witness_DecodeFaultsInTheOrderOfTheRule :
    (coded 32 0 0 []).ic.width = 0 ∧ (coded 32 5 1 [0x1F]).obLen 0 ≤ 1 ∧
    Continues (2 ^ 64 - 1) [0x1F, 0x80, 0x80, 0x80, 0x80, 0x80, 0x80, 0x80] 0 5 0x1F
      [0x80, 0x80, 0x80, 0x80, 0x80, 0x80, 0x80] ∧
    (Continues (2 ^ 32 - 1) [0x1F] 0 5 0x1F [] ∧ (coded 32 5 0 [0x1F]).obLen 0 ≤ 0 + 1 + 0) ∧
    (Continues (2 ^ 32 - 1) [0x1F, 0x80, 0x80, 0x80, 0x80, 0x10] 0 5 0x1F [0x80, 0x80, 0x80, 0x80] ∧
      2 ^ 32 - 1 < 2 ^ 5 - 1 + groupSum ([0x80#8, 0x80#8, 0x80#8, 0x80#8] ++ [0x10#8])) ∧
    (Continues (2 ^ 32 - 1) [0x1F, 0x80, 0x80, 0x80, 0x80, 0x80, 0x00] 0 5 0x1F [0x80, 0x80, 0x80, 0x80, 0x80] ∧
      2 ^ 32 - 1 < 128 ^ 5) := by
  refine ⟨by decide +kernel, by decide +kernel, ⟨⟨?_, ?_⟩, ?_, ?_, ?_, ?_, ?_⟩, ⟨⟨⟨?_, ?_⟩, ?_, ?_, ?_, ?_, ?_⟩, ?_⟩,
    ⟨⟨⟨?_, ?_⟩, ?_, ?_, ?_, ?_, ?_⟩, ?_⟩, ⟨⟨⟨?_, ?_⟩, ?_, ?_, ?_, ?_, ?_⟩, ?_⟩⟩ <;> decide +kernel

/-- The round trip's two clauses: XLEN 32, and XLEN 64 with the first value that no longer decodes. -/
theorem witness_IntegerRoundTrip :
    (let s := coded 32 5 0 (List.replicate 16 0#8);
      s.cfg.Valid ∧ (0#4 : ObSel).toNat < s.obs.length ∧ 1 ≤ s.ic.width ∧ s.ic.width ≤ 8 ∧ 2 ^ 32 - 1 < 2 ^ s.cfg.xlen ∧
      s.ic.offset + (intSeq 1337 s.ic.width).length ≤ s.obLen 0 ∧ s.cfg.xlen ≤ 49) ∧
    (let s := coded 64 5 0 (List.replicate 16 0#8);
      s.cfg.Valid ∧ (0#4 : ObSel).toNat < s.obs.length ∧ 31 + 2 ^ 49 < 2 ^ s.cfg.xlen ∧ 49 < s.cfg.xlen ∧
      2 ^ s.ic.width - 1 + 2 ^ 49 ≤ 31 + 2 ^ 49 ∧ s.ic.offset + (intSeq (31 + 2 ^ 49) s.ic.width).length ≤ s.obLen 0) := by
  decide +kernel

theorem witness_TrieBuildNeedsFiveHundredThirteenNodes : 1 ≤ 1 ∧ 513 ≤ 513 := by decide

theorem witness_HuffmanWalkInvertsThePaddedEncoding : 513 ≤ Config.default.trieNodes := by decide +kernel

theorem witness_HuffmanEncodeAppendsThePaddedCode :
    (State.reset.cfg.Valid ∧ State.reset.bb.Inv State.reset.cfg ∧ (0#4 : ObSel).toNat < State.reset.obs.length) ∧
    State.reset.cfg.huffMaxIn < 1025 ∧ (1024 ≤ State.reset.cfg.huffMaxIn ∧ State.reset.obLen 0 < 0 + 1024) ∧
    (State.reset.obLen 0 < 0 + 17 ∧ 0 + 16 ≤ State.reset.obLen 0) ∧
    State.reset.bb.HasRoom State.reset.cfg.bbPhysBits
      (huffPadded State.reset.cfg.codeRom (((State.reset.ob 0).drop 0).take 16)).length ∧
    (tightFull.cfg.Valid ∧ tightFull.bb.Inv tightFull.cfg ∧ 0 + 1 ≤ tightFull.obLen 0) ∧
    8 < (huffPadded tightFull.cfg.codeRom (((tightFull.ob 0).drop 0).take 1)).length :=
  ⟨⟨witness_resetInv.cfg, witness_resetInv.bb, by decide +kernel⟩, by decide +kernel, by decide +kernel, by decide +kernel,
    ⟨3, by decide +kernel⟩, ⟨witness_tight.1, witness_tight.2.2, by decide +kernel⟩, by decide +kernel⟩

/-- The decoder's clauses: not ready (an arena of 1 slot), a range of length 0 or past the end, no room for the input, and room, with output
that ends at the destination's last octet or one octet past it. -/
theorem witness_HuffmanDecodeWritesTheWalkOfTheRange :
    (State.resetOf { Config.default with trieNodes := 1 }).hc.ready = false ∧
    Config.Valid { Config.default with trieNodes := 1 } ∧
    (State.reset.cfg.Valid ∧ State.reset.bb.Inv State.reset.cfg ∧ (0#4 : ObSel).toNat < State.reset.obs.length ∧
      (3#4 : ObSel).toNat < State.reset.obs.length) ∧ State.reset.hc.ready = true ∧ State.reset.obLen 0 < 16 + 1 ∧
    0 + 2 ≤ State.reset.obLen 0 ∧
    BitBuffer.HasRoom State.reset.cfg.bbPhysBits ⟨[], State.reset.bb.cap, 0⟩ (8 * 2) ∧
    (let out := coded302.hc.trie.walk ((((coded302.ob 0).drop 0).take 2).flatMap fun x =>
        (List.range 8).map fun j => x.getLsbD (7 - j));
      coded302.hc.ready = true ∧ coded302.bb = State.reset.bb ∧ 0 + 2 ≤ coded302.obLen 0 ∧
      coded302.obLen 1 < 14 + out.length ∧ 13 + out.length ≤ coded302.obLen 1) ∧
    ¬ BitBuffer.HasRoom tightFull.cfg.bbPhysBits ⟨[], tightFull.bb.cap, 0⟩ (8 * 2) := by
  refine ⟨by decide +kernel, by decide +kernel, ⟨witness_resetInv.cfg, witness_resetInv.bb, by decide +kernel⟩,
    by decide +kernel, by decide +kernel, by decide +kernel, ⟨0, by decide +kernel⟩, by decide +kernel, ?_⟩
  rintro ⟨k, h1, h2⟩
  have h1 : 8 * 2 ^ k ≤ 8 := h1
  have h2 : 0 + 8 * 2 ≤ 8 * 2 ^ k := h2
  omega

/-- The three commands of the round trip complete from reset, on the sixteen octets of buffer 0. -/
theorem witness_HuffmanRoundTripThroughTheBuffers : State.reset.Inv ∧ State.reset.cfg.codeRom = codeRom ∧
    State.reset.bb.len = 0 ∧
    ∃ s1 s2 s3, exec (.hcEncode 0 0 3) State.reset = .next s1 ∧ s1.rc = 0 ∧ exec (.obLoadBits 1) s1 = .next s2 ∧ s2.rc = 0 ∧
      exec (.hcDecode 1 2 0 (s1.r0 / 8) 0) s2 = .next s3 ∧ 0 + 3 ≤ s2.obLen 2 := by
  exact ⟨witness_resetInv, rfl, rfl, rt1, rt2, rt3, eq_next (by decide +kernel), by decide +kernel,
    eq_next (by decide +kernel), by decide +kernel, eq_next (by decide +kernel), by decide +kernel⟩

theorem witness_GetDeliversThePairAtTheUnifiedIndex :
    (State.reset.cfg.Valid ∧ State.reset.ht.Inv State.reset.cfg ∧ (0#4 : ObSel).toNat < State.reset.obs.length ∧
      (1#4 : ObSel).toNat < State.reset.obs.length ∧ (0#4 : ObSel) ≠ 1#4) ∧ 61 + State.reset.ht.count < 62 ∧
    State.reset.cfg.staticRom[1 - 1]? = some (asciiPair ":authority" "") ∧
    State.reset.cfg.staticRom[61 - 1]? = some (asciiPair "www-authenticate" "") ∧
    (asciiPair "www-authenticate" "").name.length ≤ State.reset.obLen 0 ∧
    (let s : State := { State.reset with ht := ⟨[asciiPair "server" "x"], 39, 4096, 1⟩ };
      s.ht.Inv s.cfg ∧ s.ht.dyn[62 - 62]? = some (asciiPair "server" "x")) ∧
    State.reset.cfg.staticRom[20 - 1]? = some (asciiPair "access-control-allow-origin" "") ∧
    State.reset.obLen 0 < (asciiPair "access-control-allow-origin" "").name.length :=
  ⟨⟨witness_resetInv.cfg, witness_resetInv.ht, by decide +kernel⟩, by decide +kernel, by decide +kernel, by decide +kernel,
    by decide +kernel, ⟨⟨by decide +kernel, by decide +kernel, by decide +kernel, rfl⟩, by decide +kernel⟩,
    by decide +kernel, by decide +kernel⟩

theorem witness_PutInsertsInFrontAndEvictsTheOldest :
    (State.reset.ht.Inv State.reset.cfg ∧ (0#4 : ObSel).toNat < State.reset.obs.length ∧
      (1#4 : ObSel).toNat < State.reset.obs.length) ∧ State.reset.obLen 0 < 10 + 7 ∧ State.reset.obLen 1 < 17 + 0 ∧
    10 + 6 ≤ State.reset.obLen 0 ∧ 16 + 0 ≤ State.reset.obLen 1 ∧
    (let s : State := { State.reset with ht := ⟨[], 0, 37, 0⟩ };
      s.ht.Inv s.cfg ∧ s.ht.capacity < 32 + 6 + 0) :=
  ⟨⟨witness_resetInv.ht, by decide +kernel⟩, by decide +kernel, by decide +kernel, by decide +kernel, by decide +kernel,
    ⟨rfl, by decide +kernel, by decide +kernel, rfl⟩, by decide +kernel⟩

theorem witness_UpdCapEvictsOnlyWhatDoesNotFit : State.reset.ht.Inv State.reset.cfg ∧
    State.reset.cfg.htMaxCapacity < 65537 ∧ 65536 ≤ State.reset.cfg.htMaxCapacity ∧
    State.reset.ht.size ≤ 0 :=
  ⟨witness_resetInv.ht, by decide +kernel⟩

theorem witness_IsFullComparesSizeWithCapacity :
    ({ State.reset with ht := ⟨[], 0, 0, 0⟩ } : State).ht.capacity ≤ ({ State.reset with ht := ⟨[], 0, 0, 0⟩ } : State).ht.size ∧
    State.reset.ht.size < State.reset.ht.capacity := by decide +kernel

/-- Two puts that complete with OK and one that faults (its range ends one octet past the buffer): both pairs are listed, the last
first, and the budget of 66 octets keeps the last alone. -/
theorem witness_DynamicTableIsFirstInFirstOut :
    (∃ t, execAll [.htPut 0 1 0 1 0 2, .htPut 0 1 0 3 0 0, .htPut 0 1 10 7 0 0, .htUpdCap 66] State.reset = some t ∧
      t.ht.dyn = [⟨List.replicate 3 0#8, []⟩]) ∧
    pairsPut [.htPut 0 1 0 1 0 2, .htPut 0 1 0 3 0 0, .htPut 0 1 10 7 0 0, .htUpdCap 66] State.reset =
      [⟨List.replicate 3 0#8, []⟩, ⟨[0#8], List.replicate 2 0#8⟩] :=
  ⟨⟨_, rfl, by decide +kernel⟩, by decide +kernel⟩

/-- Unused words hold anything, used ones are read (R91): BB.LEN uses none, HC.ENCODE the first two. -/
theorem witness_UnusedOperandWordsAreIgnored :
    decode Config.default ⟨0x14000000#32, 9, 8, 7, 6⟩ = .ok .bbLen ∧
    decode Config.default ⟨0x40300000#32, 9, 8, 7, 6⟩ = .ok (.hcEncode 3 9 8) ∧
    (Instr.hcEncode 3 9 8).wf Config.default = true ∧ (encode (.hcEncode 3 9 8)).cmd = 0x40300000#32 := by decide +kernel

end Sys2Proof.Tests
end

section
/-! PROOFS. The state invariant (`10_state.md` R20 to R45): it holds after reset and every step keeps it.

`State.Sound` is what `State.Inv` says of everything but the response registers.  Each operation of the commands keeps it, and
completing or raising a fault from a sound state gives `State.Inv` back, so every command needs only: the part it writes is
in order, and its result words fit. -/

namespace Sys2Proof

/-! ## What a valid configuration bounds -/

section valid
variable {c : Config}

theorem Config.Valid.xlen_ge (h : c.Valid) : 8 ≤ c.xlen := h.1.1

theorem Config.Valid.obPhys_lt (h : c.Valid) : c.obPhys < 2 ^ c.xlen := by
  obtain ⟨_, _, ⟨_, _, hlt⟩, _⟩ := h
  exact hlt

theorem Config.Valid.bbPhysBits_lt (h : c.Valid) : c.bbPhysBits < 2 ^ c.xlen := by
  obtain ⟨_, _, _, _, ⟨_, hlt⟩, _⟩ := h
  exact hlt

theorem Config.Valid.htMaxCapacity_lt (h : c.Valid) : c.htMaxCapacity < 2 ^ c.xlen := by
  obtain ⟨_, _, _, _, _, _, ⟨_, hlt⟩, _⟩ := h
  exact hlt

theorem Config.Valid.le_pow_xlen (h : c.Valid) : 2 ^ 8 ≤ 2 ^ c.xlen :=
  Nat.pow_le_pow_right (by decide) h.xlen_ge

end valid

end Sys2Proof

namespace Sys2Proof.Machine

/-! ## The invariant without the response registers -/

/-- What `State.Inv` says of everything but RC, R0 and R1, which every command writes anew. -/
structure State.Sound (s : State) : Prop where
  cfg : s.cfg.Valid
  fault_lt : s.fault < 2 ^ s.cfg.xlen
  fault_bits : ∀ c, s.fault.testBit c = true → 1 ≤ c ∧ c ≤ 17
  bb : s.bb.Inv s.cfg
  obs_count : s.obs.length = s.cfg.nob
  obs_len : ∀ d ∈ s.obs, d.length ≤ s.cfg.obPhys
  width_le : s.ic.width ≤ 8
  offset_lt : s.ic.offset < 2 ^ s.cfg.xlen
  hc : s.hc = buildTrie s.cfg.codeRom s.cfg.trieNodes
  ht : s.ht.Inv s.cfg

theorem State.Inv.sound {s : State} (h : s.Inv) : s.Sound :=
  ⟨h.cfg, h.fault_lt, h.fault_bits, h.bb, h.obs_count, h.obs_len, h.width_le, h.offset_lt, h.hc, h.ht⟩

/-! ## FAULT -/

/-- A bit of FAULT after a fault is taken: the one it had, or the cause's (R282). -/
theorem testBit_faultWith (xlen f : Nat) (c : Cause) (k : Nat) :
    (faultWith xlen f c).testBit k = (f.testBit k || (decide (c.code < xlen) && decide (c.code = k))) := by
  unfold faultWith
  split <;> simp [Nat.testBit_two_pow, *]

theorem faultWith_lt {xlen f : Nat} (h : f < 2 ^ xlen) (c : Cause) : faultWith xlen f c < 2 ^ xlen := by
  unfold faultWith
  split
  · exact Nat.or_lt_two_pow h (Nat.pow_lt_pow_right (by decide) (by assumption))
  · exact h

theorem Cause.rc_toNat (c : Cause) : c.rc.toNat = c.code := by cases c <;> rfl

section sound
variable {s : State}

/-! ## What keeps a state sound -/

theorem State.Sound.setBb (h : s.Sound) {bb : BitBuffer} (hb : bb.Inv s.cfg) : (s.setBb bb).Sound :=
  ⟨h.cfg, h.fault_lt, h.fault_bits, hb, h.obs_count, h.obs_len, h.width_le, h.offset_lt, h.hc, h.ht⟩

theorem State.Sound.setIc (h : s.Sound) {w o : Nat} (hw : w ≤ 8) (ho : o < 2 ^ s.cfg.xlen) :
    (s.setIc ⟨w, o⟩).Sound :=
  ⟨h.cfg, h.fault_lt, h.fault_bits, h.bb, h.obs_count, h.obs_len, hw, ho, h.hc, h.ht⟩

theorem State.Sound.setHt (h : s.Sound) {ht : HeaderTable} (hi : ht.Inv s.cfg) : (s.setHt ht).Sound :=
  ⟨h.cfg, h.fault_lt, h.fault_bits, h.bb, h.obs_count, h.obs_len, h.width_le, h.offset_lt, h.hc, hi⟩

theorem State.Sound.setOb (h : s.Sound) (a : ObSel) {d : OctetBuffer} (hd : d.length ≤ s.cfg.obPhys) :
    (s.setOb a d).Sound where
  cfg := h.cfg
  fault_lt := h.fault_lt
  fault_bits := h.fault_bits
  bb := h.bb
  obs_count := by simpa using h.obs_count
  obs_len d' hd' := by
    rcases List.mem_or_eq_of_mem_set hd' with hd' | rfl
    · exact h.obs_len d' hd'
    · exact hd
  width_le := h.width_le
  offset_lt := h.offset_lt
  hc := h.hc
  ht := h.ht

theorem State.Sound.drawFree (h : s.Sound) (n : Nat) : (s.drawFree n).Sound :=
  ⟨h.cfg, h.fault_lt, h.fault_bits, h.bb, h.obs_count, h.obs_len, h.width_le, h.offset_lt, h.hc, h.ht⟩

theorem State.Sound.advance (h : s.Sound) : s.advance.Sound :=
  ⟨h.cfg, h.fault_lt, h.fault_bits, h.bb, h.obs_count, h.obs_len, h.width_le, h.offset_lt, h.hc, h.ht⟩

/-- A command that completes with result words that fit. -/
theorem State.Sound.done (h : s.Sound) {v w : Nat} (hv : v < 2 ^ s.cfg.xlen) (hw : w < 2 ^ s.cfg.xlen) :
    (s.done v w).Inv where
  cfg := h.cfg
  rc_le := Nat.zero_le 17
  r0_lt := hv
  r1_lt := hw
  zero_result hne := absurd rfl hne
  fault_lt := h.fault_lt
  fault_bits := h.fault_bits
  recorded hne := absurd rfl hne
  bb := h.bb
  obs_count := h.obs_count
  obs_len := h.obs_len
  width_le := h.width_le
  offset_lt := h.offset_lt
  hc := h.hc
  ht := h.ht

/-- A command that faults (R282). -/
theorem State.Sound.raise (h : s.Sound) (c : Cause) : (s.raise c).Inv where
  cfg := h.cfg
  rc_le := c.rc_toNat ▸ c.code_range.2
  r0_lt := Nat.two_pow_pos _
  r1_lt := Nat.two_pow_pos _
  zero_result _ := ⟨rfl, rfl⟩
  fault_lt := faultWith_lt h.fault_lt c
  fault_bits k hk := by
    have hk : (faultWith s.cfg.xlen s.fault c).testBit k = true := hk
    rw [testBit_faultWith] at hk
    rcases Bool.or_eq_true_iff.1 hk with hk | hk
    · exact h.fault_bits k hk
    · have : c.code = k := by simp at hk; exact hk.2
      exact this ▸ c.code_range
  recorded _ hlt := by
    have hlt : c.code < s.cfg.xlen := c.rc_toNat ▸ hlt
    simp [testBit_faultWith, Cause.rc_toNat, hlt]
  bb := h.bb
  obs_count := h.obs_count
  obs_len := h.obs_len
  width_le := h.width_le
  offset_lt := h.offset_lt
  hc := h.hc
  ht := h.ht

/-! ## What fits a word in a sound state -/

theorem State.Sound.le_octet_lt (h : s.Sound) {v : Nat} (hv : v < 2 ^ 8) : v < 2 ^ s.cfg.xlen :=
  hv.trans_le h.cfg.le_pow_xlen

theorem State.Sound.zero_lt (h : s.Sound) : 0 < 2 ^ s.cfg.xlen := h.le_octet_lt (by decide)

/-- A flag as a result word. -/
theorem State.Sound.flag_lt (h : s.Sound) (p : Prop) [Decidable p] : (if p then 1 else 0) < 2 ^ s.cfg.xlen :=
  h.le_octet_lt (by split <;> decide)

theorem State.Sound.cap_lt (h : s.Sound) : s.bb.cap < 2 ^ s.cfg.xlen :=
  h.bb.cap_le.trans_lt h.cfg.bbPhysBits_lt

theorem State.Sound.len_lt (h : s.Sound) : s.bb.len < 2 ^ s.cfg.xlen := h.bb.len_le.trans_lt h.cap_lt

theorem State.Sound.lt_of_le_obPhys (h : s.Sound) {v : Nat} (hv : v ≤ s.cfg.obPhys) : v < 2 ^ s.cfg.xlen :=
  hv.trans_lt h.cfg.obPhys_lt

theorem State.Sound.obLen_le (h : s.Sound) (a : ObSel) : s.obLen a ≤ s.cfg.obPhys := by
  by_cases ha : a.toNat < s.obs.length
  · rw [State.obLen, State.ob_eq_getElem ha]
    exact h.obs_len _ (List.getElem_mem ha)
  · simp [State.obLen, State.ob, ha]

/-- A table has no more entries than octets of `table_size`, each overhead being 32 or more (R231). -/
theorem HeaderTable.Inv.count_le_size {c : Config} {t : HeaderTable} (h : t.Inv c) : t.count ≤ t.size := by
  rw [h.count_eq, h.size_eq, ← List.length_map (f := Pair.overhead)]
  refine List.length_le_sum_of_one_le _ fun n hn => ?_
  obtain ⟨p, _, rfl⟩ := List.mem_map.1 hn
  simp only [Pair.overhead, Config.htEntryOverhead]
  omega

theorem State.Sound.lt_of_le_capacity (h : s.Sound) {v : Nat} (hv : v ≤ s.ht.capacity) : v < 2 ^ s.cfg.xlen :=
  (hv.trans h.ht.cap_le).trans_lt h.cfg.htMaxCapacity_lt

theorem State.Sound.size_lt (h : s.Sound) : s.ht.size < 2 ^ s.cfg.xlen := h.lt_of_le_capacity h.ht.size_le

theorem State.Sound.count_lt (h : s.Sound) : s.ht.count < 2 ^ s.cfg.xlen :=
  h.ht.count_le_size.trans_lt h.size_lt

/-- One line of the table of R265: this register's value, or a later line's. -/
theorem lt_of_csr_line {p : Prop} [Decidable p] {x v b : Nat} {rest : Option Nat}
    (hv : (if p then some x else rest) = some v) (hx : x < b) (hrest : rest = some v → v < b) : v < b := by
  split at hv
  · exact Option.some.inj hv ▸ hx
  · exact hrest hv

/-- Every control register's value fits a word (R41, R265). -/
theorem State.Sound.csr_lt (h : s.Sound) {reg : Octet} {v : Nat} (hv : s.csr reg = some v) : v < 2 ^ s.cfg.xlen := by
  refine lt_of_csr_line hv h.fault_lt fun hv => ?_
  refine lt_of_csr_line hv (h.flag_lt _) fun hv => ?_
  refine lt_of_csr_line hv h.len_lt fun hv => ?_
  refine lt_of_csr_line hv h.cap_lt fun hv => ?_
  refine lt_of_csr_line hv (h.le_octet_lt (h.width_le.trans_lt (by decide))) fun hv => ?_
  refine lt_of_csr_line hv h.offset_lt fun hv => ?_
  refine lt_of_csr_line hv h.size_lt fun hv => ?_
  refine lt_of_csr_line hv (h.lt_of_le_capacity le_rfl) fun hv => ?_
  refine lt_of_csr_line hv h.count_lt fun hv => ?_
  split at hv
  · obtain ⟨d, hd, rfl⟩ := Option.map_eq_some_iff.1 hv
    exact h.lt_of_le_obPhys (h.obs_len d (List.mem_of_getElem? hd))
  · simp at hv

/-! ## The commands, family by family -/

variable {t : State}

/-- BB.PUT below `BB.len` (R125). -/
theorem BitBuffer.bitSet_inv {c : Config} {bb : BitBuffer} (h : bb.Inv c) {p : Nat} (hp : p < bb.len) :
    (bb.bitSet p).Inv c where
  wf := Memory.write_wf h.wf _ _
  inside x hx := by
    have hcap := h.len_le
    rcases Memory.mem_write hx with hx | hx
    · rw [BitBuffer.bitSet_cap, hx]; omega
    · exact h.inside x hx
  doubled := h.doubled
  whole := h.whole
  cap_le := h.cap_le
  len_le := h.len_le
  zero q hq hl := by
    have hl : bb.len ≤ q := hl
    simp [BitBuffer.bitRead_bitSet h.wf, h.zero q hq hl, show q ≠ p by omega]

/-- A run of appends keeps the invariant, whether all of it fits or not, and counts the bits of a run that fits (R121). -/
theorem BitBuffer.appendAll_inv {c : Config} (hc : c.Valid) {bb bb' : BitBuffer} (h : bb.Inv c) {bits : List Bool} {b : Bool}
    (e : bb.appendAll c.bbPhysBits bits = (bb', b)) : bb'.Inv c ∧ (b = true → bits.length ≤ bb'.len) := by
  obtain ⟨n, _, hA, hall, _⟩ := BitBuffer.appendAll_spec hc h bits
  rw [e] at hA hall
  refine ⟨hA.inv, fun hb => ?_⟩
  have hlen := congrArg List.length hA.bits_eq
  rw [hall hb, List.take_length, List.length_append, BitBuffer.bits_length, BitBuffer.bits_length] at hlen
  exact hlen ▸ Nat.le_add_left _ _

theorem State.Sound.appendBits (h : s.Sound) {bits : List Bool} (e : appendBits bits s = .next t) : t.Inv := by
  obtain ⟨bb, ⟨ha, rfl⟩ | ⟨ha, rfl⟩⟩ := appendBits_next e
  all_goals have hb := h.setBb (BitBuffer.appendAll_inv h.cfg h.bb ha).1
  · exact hb.done hb.len_lt hb.zero_lt
  · exact hb.raise _

theorem State.Sound.execBbPut (h : s.Sound) {bit : Bool} {pos : Nat} (e : execBbPut bit pos s = .next t) : t.Inv := by
  rcases execBbPut_next e with ⟨hp, rfl⟩ | rfl
  · cases bit
    · exact (h.setBb h.bb).done h.zero_lt h.zero_lt
    · exact (h.setBb (BitBuffer.bitSet_inv h.bb hp)).done h.zero_lt h.zero_lt
  · exact h.raise _

theorem State.Sound.execObInit (h : s.Sound) {a : ObSel} {n : Nat} (e : execObInit a n s = .next t) : t.Inv := by
  rcases execObInit_next e with ⟨_, hle, rfl⟩ | ⟨c, rfl, _⟩
  · exact (h.setOb a (by simpa using hle)).done (h.lt_of_le_obPhys hle) h.zero_lt
  · exact h.raise _

theorem State.Sound.execObSet (h : s.Sound) {a : ObSel} {v : Octet} {k : Nat} (e : execObSet a v k s = .next t) :
    t.Inv := by
  rcases execObSet_next e with ⟨_, _, rfl⟩ | ⟨_, rfl⟩ | rfl
  · exact (h.setOb a ((List.length_set ..).le.trans (h.obLen_le a))).done h.zero_lt h.zero_lt
  · exact h.done h.zero_lt h.zero_lt
  · exact h.raise _

theorem State.Sound.execObLoadBits (h : s.Sound) {a : ObSel} (e : execObLoadBits a s = .next t) : t.Inv := by
  rcases execObLoadBits_next e with ⟨_, _, rfl⟩ | ⟨_, hle, rfl⟩ | ⟨c, rfl, _⟩
  · exact h.done (h.lt_of_le_obPhys (h.obLen_le a)) h.zero_lt
  · exact (h.setOb a (by simpa [BitBuffer.octets] using hle)).done (h.lt_of_le_obPhys hle) h.zero_lt
  · exact h.raise _

theorem State.Sound.execObCopy (h : s.Sound) {a b : ObSel} (e : execObCopy a b s = .next t) : t.Inv := by
  rcases execObCopy_next e with ⟨_, _, rfl⟩ | rfl
  · exact (h.setOb a (h.obLen_le b)).done (h.lt_of_le_obPhys (h.obLen_le b)) h.zero_lt
  · exact h.raise _

/-- The tail that IC.ENCODE spoils keeps the buffer's length (R164). -/
theorem spoilTail_length (d : OctetBuffer) (o ctr : Nat) :
    (d.take o ++ freeRun ctr (d.length - o)).length = d.length := by
  simp [freeRun]; omega

theorem State.Sound.execIcEncode (h : s.Sound) {a : ObSel} {v : Nat} (e : execIcEncode a v s = .next t) : t.Inv := by
  have hob := h.obLen_le a
  rcases execIcEncode_next e with ⟨_, _, hroom, rfl⟩ | ⟨_, _, _, rfl⟩ | ⟨c, rfl, _⟩
  · have hoff := h.lt_of_le_obPhys (hroom.trans hob)
    have hw := h.setOb a (d := writeRun (s.ob a) s.ic.offset (intSeq v s.ic.width)) ((writeRun_length _ _ _).le.trans hob)
    exact (hw.setIc h.width_le hoff).done hoff (h.lt_of_le_obPhys (by omega))
  · exact ((h.setOb a ((spoilTail_length _ _ _).le.trans hob)).drawFree _).raise _
  · exact h.raise _

theorem State.Sound.execIcDecode (h : s.Sound) {a : ObSel} (e : execIcDecode a s = .next t) : t.Inv := by
  rcases execIcDecode_next e with ⟨v, nxt, _, _, hp, rfl⟩ | ⟨c, rfl, _⟩
  · have hpos := h.zero_lt
    have hmask : 2 ^ s.ic.width ≤ s.cfg.maxWord + 1 := by
      have := (Nat.pow_le_pow_right (n := 2) (by decide) h.width_le).trans h.cfg.le_pow_xlen
      rw [Config.maxWord]; omega
    obtain ⟨hv, hn⟩ := intParse_ok hmask hp
    have hn := h.lt_of_le_obPhys (hn.trans (h.obLen_le a))
    refine (h.setIc h.width_le hn).done ?_ hn
    rw [Config.maxWord] at hv
    exact show v < 2 ^ s.cfg.xlen by omega
  · exact h.raise _

theorem State.Sound.execHcEncode (h : s.Sound) {a : ObSel} {st n : Nat} (e : execHcEncode a st n s = .next t) :
    t.Inv := by
  rcases execHcEncode_next e with ⟨bb, ha, rfl⟩ | ⟨bb, ha, rfl⟩ | ⟨c, rfl, _⟩
  · obtain ⟨hi, hlen⟩ := BitBuffer.appendAll_inv h.cfg h.bb ha
    have hb := h.setBb hi
    exact hb.done ((hlen rfl).trans_lt hb.len_lt) hb.zero_lt
  · exact (h.setBb (BitBuffer.appendAll_inv h.cfg h.bb ha).1).raise _
  · exact h.raise _

theorem State.Sound.execHcDecode (h : s.Sound) {a b : ObSel} {st n d : Nat} (e : execHcDecode a b st n d s = .next t) :
    t.Inv := by
  have hclear := BitBuffer.clear_inv h.bb
  have hob := h.obLen_le b
  rcases execHcDecode_next e with ⟨bb, ha, _, hroom, rfl⟩ | ⟨bb, _, c, ha, rfl, _⟩ | ⟨c, rfl, _⟩
  · have hb := h.setBb (BitBuffer.appendAll_inv h.cfg hclear ha).1
    exact (hb.setOb b ((writeRun_length _ _ _).le.trans hob)).done (h.lt_of_le_obPhys (by omega)) h.zero_lt
  · exact (h.setBb (BitBuffer.appendAll_inv h.cfg hclear ha).1).raise _
  · exact h.raise _

theorem State.Sound.execHtGet (h : s.Sound) {a b : ObSel} {u : Nat} (e : execHtGet a b u s = .next t) : t.Inv := by
  rcases execHtGet_next e with ⟨p, _, _, _, _, hn, hv, rfl⟩ | ⟨c, rfl, _⟩
  · have hw := h.setOb a (d := writeRun (s.ob a) 0 p.name) ((writeRun_length _ _ _).le.trans (h.obLen_le a))
    exact (hw.setOb b ((writeRun_length _ _ _).le.trans (h.obLen_le b))).done
      (h.lt_of_le_obPhys (hn.trans (h.obLen_le a))) (h.lt_of_le_obPhys (hv.trans (h.obLen_le b)))
  · exact h.raise _

/-- A command that leaves a table within its invariant and answers its two counters. -/
theorem State.Sound.setHt_done (h : s.Sound) {ht : HeaderTable} (hi : ht.Inv s.cfg) :
    ((s.setHt ht).done ht.count ht.size).Inv :=
  have hs := h.setHt hi
  hs.done hs.count_lt hs.size_lt

theorem State.Sound.execHtPut (h : s.Sound) {a b : ObSel} {ns nl vs vl : Nat}
    (e : execHtPut a b ns nl vs vl s = .next t) : t.Inv := by
  rcases execHtPut_next e with ⟨_, _, rfl⟩ | ⟨c, rfl, _⟩
  · exact h.setHt_done (evict_inv (insertPair_size h.ht.size_eq _) (insertPair_count h.ht.count_eq _) h.ht.cap_le)
  · exact h.raise _

theorem State.Sound.execHtUpdCap (h : s.Sound) {n : Nat} (e : execHtUpdCap n s = .next t) : t.Inv := by
  rcases execHtUpdCap_next e with ⟨hle, ht, rfl, ⟨_, rfl⟩ | ⟨_, rfl⟩⟩ | rfl
  · exact h.setHt_done (emptyTable_inv hle)
  · exact h.setHt_done (evict_inv h.ht.size_eq h.ht.count_eq hle)
  · exact h.raise _

/-! ## The step -/

/-- Every well-formed command, from a sound state, ends in a state that meets the invariant. -/
theorem State.Sound.exec (h : s.Sound) {i : Instr} (hw : i.wf s.cfg = true) (e : exec i s = .next t) : t.Inv := by
  cases i with
  | sysRdcsr reg =>
    rcases execSysRdcsr_next e with ⟨v, hv, rfl⟩ | rfl
    · exact h.done (h.csr_lt hv) h.zero_lt
    · exact h.raise _
  | bbAppendBit bit => exact h.appendBits e
  | bbAppendOct v => exact h.appendBits e
  | bbAt pos =>
    rcases execBbAt_next e with ⟨_, rfl⟩ | rfl
    · exact h.done (h.flag_lt _) h.zero_lt
    · exact h.raise _
  | bbPut bit pos => exact h.execBbPut e
  | bbLen => exact execBbLen_next e ▸ h.done h.len_lt h.cap_lt
  | bbClear => exact execBbClear_next e ▸ (h.setBb (BitBuffer.clear_inv h.bb)).done h.zero_lt h.zero_lt
  | obInit a n => exact h.execObInit e
  | obSet a v k => exact h.execObSet e
  | obGet a k =>
    rcases execObGet_next e with ⟨v, _, rfl⟩ | ⟨c, rfl, _⟩
    · exact h.done (h.le_octet_lt v.isLt) h.zero_lt
    · exact h.raise _
  | obLen a =>
    rcases execObLen_next e with ⟨_, rfl⟩ | rfl
    · exact h.done (h.lt_of_le_obPhys (h.obLen_le a)) h.zero_lt
    · exact h.raise _
  | obLoadBits a => exact h.execObLoadBits e
  | obCopy a b => exact h.execObCopy e
  | icSetPrefix w =>
    rcases execIcSetPrefix_next e with ⟨hle, rfl⟩ | rfl
    · exact (h.setIc hle h.offset_lt).done h.zero_lt h.zero_lt
    · exact h.raise _
  | icSetOffset o =>
    have ho : o < 2 ^ s.cfg.xlen := by simpa [Instr.wf, Instr.selectorsLegal, Instr.wordsFit, wordFits] using hw
    exact execIcSetOffset_next e ▸ (h.setIc h.width_le ho).done h.zero_lt h.zero_lt
  | icEncode a v => exact h.execIcEncode e
  | icDecode a => exact h.execIcDecode e
  | icReset => exact execIcReset_next e ▸ (h.setIc (Nat.zero_le 8) h.zero_lt).done h.zero_lt h.zero_lt
  | hcEncode a st n => exact h.execHcEncode e
  | hcDecode a b st n d => exact h.execHcDecode e
  | htGet a b u => exact h.execHtGet e
  | htPut a b ns nl vs vl => exact h.execHtPut e
  | htUpdCap n => exact h.execHtUpdCap e
  | htIsFull => exact execHtIsFull_next e ▸ h.done (h.flag_lt _) h.zero_lt

end sound

/-! ## Reset -/

theorem BitBuffer.reset_inv {c : Config} (hc : c.Valid) : (BitBuffer.reset c).Inv c := by
  obtain ⟨_, _, _, ⟨h8, _, hle⟩, _⟩ := hc
  exact ⟨Memory.wf_nil, by simp [BitBuffer.reset], ⟨0, by simp [BitBuffer.reset]⟩, h8, hle, Nat.zero_le _,
    by simp [BitBuffer.reset, BitBuffer.bitRead, Memory.read]⟩

theorem HeaderTable.reset_inv {c : Config} (hc : c.Valid) : HeaderTable.reset.Inv c := by
  obtain ⟨_, _, _, _, _, _, ⟨hle, _⟩, _⟩ := hc
  exact ⟨rfl, Nat.zero_le _, hle, rfl⟩

theorem State.resetOf_sound {c : Config} (hc : c.Valid) : (State.resetOf c).Sound where
  cfg := hc
  fault_lt := Nat.two_pow_pos _
  fault_bits k hk := by simp [State.resetOf] at hk
  bb := BitBuffer.reset_inv hc
  obs_count := List.length_replicate
  obs_len d hd := by
    obtain ⟨_, _, ⟨_, hle, _⟩, _⟩ := hc
    rw [List.eq_of_mem_replicate hd, List.length_replicate]
    exact hle
  width_le := Nat.zero_le 8
  offset_lt := Nat.two_pow_pos _
  hc := rfl
  ht := HeaderTable.reset_inv hc

/-- The invariant says nothing of the host's stream and of the count of free values. -/
theorem State.Inv.withHost {s : State} (h : s.Inv) (ctr index : Nat) (stream : List HostInput) :
    State.Inv { s with freeCtr := ctr, stream := stream, index := index } :=
  ⟨h.cfg, h.rc_le, h.r0_lt, h.r1_lt, h.zero_result, h.fault_lt, h.fault_bits, h.recorded, h.bb, h.obs_count, h.obs_len,
    h.width_le, h.offset_lt, h.hc, h.ht⟩

/-- Settles O12: the reset state is sound, and its response registers are those of a completed command with results 0. -/
theorem stateInvariantHoldsAfterReset : Obligations.StateInvariantHoldsAfterReset := by
  intro c hc
  have hs := State.resetOf_sound hc
  exact hs.done hs.zero_lt hs.zero_lt

/-- Settles O13, by the four things a step can be: a wait, a reset, a rejected packet, a well-formed command. -/
theorem everyStepKeepsTheStateInvariant : Obligations.EveryStepKeepsTheStateInvariant := by
  intro s t h e
  rcases step_cases e with ⟨_, rfl⟩ | ⟨_, rfl⟩ | ⟨_, _, rfl⟩ | ⟨_, i, _, hw, he⟩
  · exact h
  · exact (stateInvariantHoldsAfterReset _ h.cfg).withHost _ _ _
  · exact h.sound.advance.raise _
  · exact h.sound.advance.exec hw he

end Sys2Proof.Machine
end

section
/-! PROOFS. What every step and every command does to the whole machine (`10_state.md` R20 to R25, R81): the step itself, the fields
no command changes, FAULT from one step to the next, and the response registers and FAULT as registers no command reads. -/

namespace Sys2Proof.Machine

/-- Settles O7: the two matches of the step, on the input and on the decoder's answer, are decided. -/
theorem stepRunsTheDecodedCommand : Obligations.StepRunsTheDecodedCommand := by
  intro s p i hp hd
  have hp : s.nextInput = some (.packet p) := hp
  simp only [step, hp, hd]
  rfl

/-- Settles O18, by the two ways a command can end. -/
theorem noCommandChangesTheConfigurationOrTheTrie : Obligations.NoCommandChangesTheConfigurationOrTheTrie := by
  intro i s t e
  rcases exec_next e with ⟨u, v, w, rfl, hcfg, hhc, hstream, hindex, _⟩ | ⟨u, c, rfl, hcfg, hhc, hstream, hindex, _⟩
  · exact ⟨hcfg, hhc, hstream, hindex⟩
  · exact ⟨hcfg, hhc, hstream, hindex⟩

/-- Settles O8: a packet is rejected or its command runs, from the state with the index advanced. -/
theorem everyPacketAdvancesTheIndexByOne : Obligations.EveryPacketAdvancesTheIndexByOne := by
  intro s t p hp e
  have hp : s.nextInput = some (.packet p) := hp
  rcases step_cases e with ⟨hn, _⟩ | ⟨hn, _⟩ | ⟨_, _, rfl⟩ | ⟨_, i, _, _, he⟩
  · simp [hp] at hn
  · simp [hp] at hn
  · exact ⟨rfl, rfl, rfl⟩
  · obtain ⟨hcfg, _, hstream, hindex⟩ := noCommandChangesTheConfigurationOrTheTrie i _ t he
    exact ⟨hindex, hstream, hcfg⟩

/-! ## FAULT -/

/-- Taking a fault clears no bit of FAULT (R25, R283). -/
theorem State.raise_fault_testBit {s : State} {k : Nat} (h : s.fault.testBit k = true) (c : Cause) :
    (s.raise c).fault.testBit k = true := by
  simp [testBit_faultWith, h]

theorem exec_fault_testBit {i : Instr} {s t : State} (e : exec i s = .next t) {k : Nat} (h : s.fault.testBit k = true) :
    t.fault.testBit k = true := by
  rcases exec_next e with ⟨u, v, w, rfl, _, _, _, _, hf⟩ | ⟨u, c, rfl, _, _, _, _, hf⟩
  · exact hf ▸ h
  · exact State.raise_fault_testBit (hf ▸ h) c

/-- Settles O16, by the four things a step can be; a reset is excluded. -/
theorem faultBitsStaySetUntilReset : Obligations.FaultBitsStaySetUntilReset := by
  intro s t k hreset e h
  rcases step_cases e with ⟨_, rfl⟩ | ⟨hr, _⟩ | ⟨_, _, rfl⟩ | ⟨_, i, _, _, he⟩
  · exact h
  · exact absurd hr hreset
  · exact State.raise_fault_testBit (s := s.advance) h _
  · exact exec_fault_testBit (s := s.advance) he h

/-! ## The response registers -/

/-- Settles O23: every condition a command tests is on other fields, and completing or faulting writes all three registers. -/
theorem noCommandReadsTheResponseRegisters : Obligations.NoCommandReadsTheResponseRegisters := by
  intro i s rc r0 r1
  cases i <;> rfl

/-! ## FAULT is read by SYS.RDCSR only

Two outcomes are the same but for FAULT when both are next states that agree in every other field.  The two ends of a command,
`ok` and `fail`, are related so, and the checks in between ask the same of both states. -/

/-- The state with another value in FAULT. -/
def State.putFault (s : State) (f : Nat) : State := { s with fault := f }

section putFault
variable (s : State) (f : Nat) (a : ObSel)

@[simp] theorem State.putFault_cfg : (s.putFault f).cfg = s.cfg := rfl
@[simp] theorem State.putFault_bb : (s.putFault f).bb = s.bb := rfl
@[simp] theorem State.putFault_ic : (s.putFault f).ic = s.ic := rfl
@[simp] theorem State.putFault_ob : (s.putFault f).ob a = s.ob a := rfl
@[simp] theorem State.putFault_octet (k : Nat) : (s.putFault f).octet a k = s.octet a k := rfl
@[simp] theorem State.putFault_range (st n : Nat) : (s.putFault f).range a st n = s.range a st n := rfl
@[simp] theorem State.putFault_resolve (u : Nat) : (s.putFault f).resolve u = s.resolve u := rfl

theorem State.putFault_csr {reg : Octet} (h : reg ≠ 0x00#8) : (s.putFault f).csr reg = s.csr reg := by
  unfold State.csr
  rw [if_neg h, if_neg h]
  rfl

end putFault

/-- Both outcomes are next states, the same but for FAULT. -/
inductive SameButFault : (o o' : Host.Outcome State Fault Refusal) → Prop
  | next (t : State) (f : Nat) : SameButFault (.next t) (.next (t.putFault f))

namespace SameButFault

variable {s : State} {f : Nat} {a b : ObSel} {k k' l l' : Host.Outcome State Fault Refusal}

theorem ok (s : State) (f v w : Nat) : SameButFault (ok s v w) (ok (s.putFault f) v w) := .next (s.done v w) f

theorem fail (s : State) (f : Nat) (c : Cause) : SameButFault (fail s c) (fail (s.putFault f) c) :=
  .next (s.raise c) (faultWith s.cfg.xlen f c)

theorem ite {p : Prop} [Decidable p] (h : p → SameButFault k k') (h' : ¬ p → SameButFault l l') :
    SameButFault (if p then k else l) (if p then k' else l') := by
  split
  · exact h ‹_›
  · exact h' ‹_›

theorem withOb (h : SameButFault k k') : SameButFault (withOb s a k) (withOb (s.putFault f) a k') :=
  .ite (fun _ => h) fun _ => .fail s f _

theorem withObs (h : SameButFault k k') : SameButFault (withObs s a b k) (withObs (s.putFault f) a b k') :=
  .ite (fun _ => h) fun _ => .fail s f _

variable (s f)

theorem execSysRdcsr {reg : Octet} (h : reg ≠ 0) :
    SameButFault (execSysRdcsr reg s) (execSysRdcsr reg (s.putFault f)) := by
  unfold Machine.execSysRdcsr
  rw [State.putFault_csr s f h]
  cases s.csr reg with
  | none => exact .fail s f _
  | some v => exact .ok s f _ _

theorem appendBits (bits : List Bool) : SameButFault (appendBits bits s) (appendBits bits (s.putFault f)) := by
  unfold Machine.appendBits
  simp only [State.putFault_bb, State.putFault_cfg]
  rcases s.bb.appendAll s.cfg.bbPhysBits bits with ⟨bb, _ | _⟩
  · exact .fail (s.setBb bb) f _
  · exact .ok (s.setBb bb) f _ _

theorem execObInit (n : Nat) : SameButFault (execObInit a n s) (execObInit a n (s.putFault f)) :=
  .withOb <| .ite (fun _ => .fail s f _) fun _ => .ok (s.setOb a _) f _ _

theorem execObSet (v : Octet) (n : Nat) : SameButFault (execObSet a v n s) (execObSet a v n (s.putFault f)) :=
  .withOb <| .ite (fun _ => .ok (s.setOb a _) f _ _) fun _ => .ok s f _ _

theorem execObGet (n : Nat) : SameButFault (execObGet a n s) (execObGet a n (s.putFault f)) := by
  refine .withOb ?_
  rw [State.putFault_octet]
  cases s.octet a n with
  | none => exact .fail s f _
  | some v => exact .ok s f _ _

theorem execObLoadBits : SameButFault (execObLoadBits a s) (execObLoadBits a (s.putFault f)) :=
  .withOb <| .ite (fun _ => .ok s f _ _) fun _ => .ite (fun _ => .fail s f _) fun _ => .ok (s.setOb a _) f _ _

theorem execIcEncode (v : Nat) : SameButFault (execIcEncode a v s) (execIcEncode a v (s.putFault f)) :=
  .withOb <| .ite (fun _ => .fail s f _) fun _ =>
    .ite (fun _ => .fail (spoilTail a s) f _) fun _ => .ok ((s.setOb a _).setIc _) f _ _

theorem execIcDecode : SameButFault (execIcDecode a s) (execIcDecode a (s.putFault f)) := by
  refine .withOb (.ite (fun _ => .fail s f _) fun _ => ?_)
  simp only [State.putFault_cfg, State.putFault_ob, State.putFault_ic]
  cases intParse s.cfg.maxWord (s.ob a) s.ic.offset s.ic.width with
  | error c => exact .fail s f _
  | ok r => exact .ok (s.setIc _) f _ _

theorem execHcEncode (st n : Nat) : SameButFault (execHcEncode a st n s) (execHcEncode a st n (s.putFault f)) := by
  refine .withOb (.ite (fun _ => .fail s f _) fun _ => .ite (fun _ => .fail s f _) fun _ => ?_)
  simp only [State.putFault_cfg, State.putFault_bb, State.putFault_range]
  rcases s.bb.appendAll s.cfg.bbPhysBits (huffPadded s.cfg.codeRom (s.range a st n)) with ⟨bb, _ | _⟩
  · exact .fail (s.setBb bb) f _
  · exact .ok (s.setBb bb) f _ _

theorem execHcDecode (st n d : Nat) :
    SameButFault (execHcDecode a b st n d s) (execHcDecode a b st n d (s.putFault f)) := by
  refine .withObs (.ite (fun _ => .fail s f _) fun _ => .ite (fun _ => .fail s f _) fun _ => ?_)
  simp only [State.putFault_cfg, State.putFault_bb, State.putFault_range]
  rcases s.bb.clear.appendAll s.cfg.bbPhysBits ((s.range a st n).flatMap octetBits) with ⟨bb, _ | _⟩
  · exact .fail (s.setBb bb) f _
  · exact .ite (fun _ => .fail (s.setBb bb) f _) fun _ => .ok ((s.setBb bb).setOb b _) f _ _

theorem execHtGet (u : Nat) : SameButFault (execHtGet a b u s) (execHtGet a b u (s.putFault f)) := by
  refine .withObs (.ite (fun _ => .fail s f _) fun _ => ?_)
  rw [State.putFault_resolve]
  cases s.resolve u with
  | none => exact .fail s f _
  | some p => exact .ite (fun _ => .fail s f _) fun _ => .ok ((s.setOb a _).setOb b _) f _ _

theorem execHtPut (ns nl vs vl : Nat) :
    SameButFault (execHtPut a b ns nl vs vl s) (execHtPut a b ns nl vs vl (s.putFault f)) :=
  .withObs <| .ite (fun _ => .fail s f _) fun _ => .ok (s.setHt _) f _ _

/-- Every command but SYS.RDCSR 0 ends the same, whatever FAULT holds. -/
theorem exec {i : Instr} (hi : i ≠ .sysRdcsr 0) : SameButFault (exec i s) (exec i (s.putFault f)) := by
  cases i with
  | sysRdcsr reg => exact execSysRdcsr s f fun h => hi (h ▸ rfl)
  | bbAppendBit bit => exact appendBits s f _
  | bbAppendOct v => exact appendBits s f _
  | bbAt pos => exact .ite (fun _ => .fail s f _) fun _ => .ok s f _ _
  | bbPut bit pos => exact .ite (fun _ => .fail s f _) fun _ => .ok (s.setBb _) f _ _
  | bbLen => exact .ok s f _ _
  | bbClear => exact .ok (s.setBb _) f _ _
  | obInit a n => exact execObInit s f n
  | obSet a v n => exact execObSet s f v n
  | obGet a n => exact execObGet s f n
  | obLen a => exact .withOb (.ok s f _ _)
  | obLoadBits a => exact execObLoadBits s f
  | obCopy a b => exact .withObs (.ok (s.setOb a _) f _ _)
  | icSetPrefix w => exact .ite (fun _ => .fail s f _) fun _ => .ok (s.setIc _) f _ _
  | icSetOffset o => exact .ok (s.setIc _) f _ _
  | icEncode a v => exact execIcEncode s f v
  | icDecode a => exact execIcDecode s f
  | icReset => exact .ok (s.setIc _) f _ _
  | hcEncode a st n => exact execHcEncode s f st n
  | hcDecode a b st n d => exact execHcDecode s f st n d
  | htGet a b u => exact execHtGet s f u
  | htPut a b ns nl vs vl => exact execHtPut s f ns nl vs vl
  | htUpdCap n => exact .ite (fun _ => .fail s f _) fun _ => .ok (s.setHt _) f _ _
  | htIsFull => exact .ok s f _ _

end SameButFault

/-- Settles O24: the two runs end in next states that are the same but for FAULT. -/
theorem onlyRdcsrDependsOnTheFaultRegister : Obligations.OnlyRdcsrDependsOnTheFaultRegister := by
  intro i s t u f hi e e'
  have h := SameButFault.exec s f hi
  rw [e, show exec i (s.putFault f) = .next u from e'] at h
  cases h
  rfl

end Sys2Proof.Machine
end

section
/-! PROOFS. The dynamic table along a run (`10_state.md` R39, R66; `45_headertable.md` R230, R234): each command leaves the
front part of the list of the pair it put, if any, and the entries there were, and `<+:` is transitive. -/

namespace Sys2Proof.Machine

/-- Every command but HT.PUT and HT.UPDCAP leaves the table as it was (R230). -/
theorem exec_ht {i : Instr} {s t : State} (hi : i.opcode ∉ [0x51#8, 0x52#8]) (e : exec i s = .next t) : t.ht = s.ht := by
  cases i with
  | sysRdcsr reg => rcases execSysRdcsr_next e with ⟨_, _, rfl⟩ | rfl <;> rfl
  | bbAppendBit bit => rcases execBbAppendBit_next e with ⟨_, _, rfl⟩ | rfl <;> rfl
  | bbAppendOct v => rcases execBbAppendOct_next e with ⟨_, ⟨_, rfl⟩ | ⟨_, rfl⟩⟩ <;> rfl
  | bbAt pos => rcases execBbAt_next e with ⟨_, rfl⟩ | rfl <;> rfl
  | bbPut bit pos => rcases execBbPut_next e with ⟨_, rfl⟩ | rfl <;> rfl
  | bbLen => exact execBbLen_next e ▸ rfl
  | bbClear => exact execBbClear_next e ▸ rfl
  | obInit a n => rcases execObInit_next e with ⟨_, _, rfl⟩ | ⟨_, rfl, _⟩ <;> rfl
  | obSet a v n => rcases execObSet_next e with ⟨_, _, rfl⟩ | ⟨_, rfl⟩ | rfl <;> rfl
  | obGet a n => rcases execObGet_next e with ⟨_, _, rfl⟩ | ⟨_, rfl, _⟩ <;> rfl
  | obLen a => rcases execObLen_next e with ⟨_, rfl⟩ | rfl <;> rfl
  | obLoadBits a => rcases execObLoadBits_next e with ⟨_, _, rfl⟩ | ⟨_, _, rfl⟩ | ⟨_, rfl, _⟩ <;> rfl
  | obCopy a b => rcases execObCopy_next e with ⟨_, _, rfl⟩ | rfl <;> rfl
  | icSetPrefix w => rcases execIcSetPrefix_next e with ⟨_, rfl⟩ | rfl <;> rfl
  | icSetOffset o => exact execIcSetOffset_next e ▸ rfl
  | icEncode a v => rcases execIcEncode_next e with ⟨_, _, _, rfl⟩ | ⟨_, _, _, rfl⟩ | ⟨_, rfl, _⟩ <;> rfl
  | icDecode a => rcases execIcDecode_next e with ⟨_, _, _, _, _, rfl⟩ | ⟨_, rfl, _⟩ <;> rfl
  | icReset => exact execIcReset_next e ▸ rfl
  | hcEncode a st n => rcases execHcEncode_next e with ⟨_, _, rfl⟩ | ⟨_, _, rfl⟩ | ⟨_, rfl, _⟩ <;> rfl
  | hcDecode a b st n d =>
    rcases execHcDecode_next e with ⟨_, _, _, _, rfl⟩ | ⟨_, _, _, _, rfl, _⟩ | ⟨_, rfl, _⟩ <;> rfl
  | htGet a b u => rcases execHtGet_next e with ⟨_, _, _, _, _, _, _, rfl⟩ | ⟨_, rfl, _⟩ <;> rfl
  | htPut a b ns nl vs vl => exact absurd (by simp [Instr.opcode]) hi
  | htUpdCap n => exact absurd (by simp [Instr.opcode]) hi
  | htIsFull => exact execHtIsFull_next e ▸ rfl

theorem Cause.rc_ne_ok (c : Cause) : c.rc ≠ rcOk := by cases c <;> decide

/-- One command: the entries after it are the front part of the pair it put followed by the entries before it. -/
theorem exec_dyn_prefix {i : Instr} {s t : State} (e : exec i s = .next t) :
    t.ht.dyn <+: (pairPut i s t).toList ++ s.ht.dyn := by
  cases i with
  | htPut a b ns nl vs vl =>
    rcases execHtPut_next e with ⟨_, _, rfl⟩ | ⟨c, rfl, _⟩
    · exact evict_prefix _
    · simp [pairPut, Cause.rc_ne_ok]
  | htUpdCap n =>
    rcases execHtUpdCap_next e with ⟨_, ht, rfl, ⟨_, rfl⟩ | ⟨_, rfl⟩⟩ | rfl
    · exact List.nil_prefix
    · exact evict_prefix _
    · exact List.prefix_rfl
  | _ => exact exec_ht (by simp [Instr.opcode]) e ▸ List.prefix_rfl

/-- Settles O57, by induction on the run. -/
theorem dynamicTableIsFirstInFirstOut : Obligations.DynamicTableIsFirstInFirstOut := by
  intro is
  induction is with
  | nil =>
    intro s t e
    obtain rfl : s = t := Option.some.inj e
    exact List.prefix_rfl
  | cons i is ih =>
    intro s t e
    rw [execAll] at e
    rw [pairsPut]
    cases hi : exec i s with
    | next u =>
      simp only [hi] at e ⊢
      rw [List.append_assoc]
      exact (ih u t e).trans ((List.prefix_append_right_inj _).2 (exec_dyn_prefix hi))
    | fault r => simp [hi] at e
    | refused r => simp [hi] at e

end Sys2Proof.Machine
end

section
/-! PROOFS. The trie that reset builds from the code ROM of R220 (`43_huffmancodec.md` R194 to R196), and the reset state (R45).  The
kernel builds it once, in an arena of 513 slots; the laws of Laws/Trie.lean carry that to every other size. -/

namespace Sys2Proof.Machine

theorem rom_build : (buildTrie codeRom 513).ready = true ∧ (buildTrie codeRom 513).used = 513 ∧
    (buildTrie codeRom 513).trie.nodes = 513 ∧ (buildTrie codeRom 513).trie.isLeaf = false := by
  decide +kernel

/-- The walk of EOS's own code emits nothing. -/
theorem rom_walk_eos : (buildTrie codeRom 513).trie.walk (codeBits (codeOf codeRom 256)) = [] := by
  decide +kernel

/-- The walk of an octet's code emits that octet (R195). -/
theorem rom_walk_octet {m : Nat} (hm : m < 256) :
    (buildTrie codeRom 513).trie.walk (codeBits (codeOf codeRom m)) = [BitVec.ofNat 8 m] := by
  obtain ⟨_, _, _, hleaf⟩ := rom_build
  have hm := List.all_eq_true.1 rom_leadsTo m (List.mem_range.2 hm)
  have hwalk := Trie.walkFrom_leadsTo hleaf _ [] _ [] hm
  rw [List.append_nil] at hwalk
  rw [Trie.walk, hwalk]
  simp [Trie.walkFrom, hleaf]

/-- More slots than the codes need change nothing. -/
theorem buildTrie_of_enough {slots : Nat} (h : 513 ≤ slots) : buildTrie codeRom slots = buildTrie codeRom 513 :=
  Trie.insertAll_more h codeRom 0 Trie.fresh 1 (by decide) rom_build.1

/-- With fewer slots the build stops when all of them are used (R194, R196). -/
theorem buildTrie_of_few {slots : Nat} (h1 : 1 ≤ slots) (h : slots < 513) :
    (buildTrie codeRom slots).ready = false ∧ (buildTrie codeRom slots).used = slots := by
  obtain ⟨hready, hused, _, _⟩ := rom_build
  obtain ⟨_, _, hfew⟩ := Trie.insertAll_slots codeRom 0 Trie.fresh 1 h1 hready
  exact hfew (hused.symm ▸ h)

/-- Settles O48, by the two sizes of the arena: fewer than 513 slots, or enough. -/
theorem trieBuildNeedsFiveHundredThirteenNodes : Obligations.TrieBuildNeedsFiveHundredThirteenNodes := by
  intro slots h1
  by_cases h : 513 ≤ slots
  · obtain ⟨hready, hused, hnodes, _⟩ := rom_build
    rw [buildTrie_of_enough h]
    refine ⟨by simp [hready, h], by rw [hused, Nat.min_eq_right h], fun _ => ⟨hnodes, fun m hm => ?_⟩⟩
    split
    · exact rom_walk_octet ‹_›
    · obtain rfl : m = 256 := by omega
      exact rom_walk_eos
  · obtain ⟨hready, hused⟩ := buildTrie_of_few h1 (by omega)
    exact ⟨by simp [hready, h], by rw [hused]; omega, fun h' => absurd h' h⟩

/-- Settles O10: the fields as written, every octet of empty storage 0, and HC_READY from the build. -/
theorem resetLeavesTheListedValues : Obligations.ResetLeavesTheListedValues := by
  intro c hc hrom
  have hhc : (State.resetOf c).hc = buildTrie codeRom c.trieNodes := hrom ▸ rfl
  obtain ⟨_, _, _, _, _, _, _, hnodes, _⟩ := hc
  refine ⟨rfl, rfl, rfl, rfl, rfl, rfl, fun p _ => ?_, List.length_replicate, fun i hi => ?_, rfl, rfl, hhc, ?_,
    rfl, rfl, rfl, rfl⟩
  · exact BitVec.getLsbD_zero
  · exact List.getElem?_replicate_of_lt hi
  · rw [hhc]
    exact (trieBuildNeedsFiveHundredThirteenNodes c.trieNodes hnodes).1

end Sys2Proof.Machine
end

section
/-! PROOFS. Which components a command may change (`20_memory.md` R83, `40_bitbuffer.md` R120, `45_headertable.md` R230): a frame per
opcode, closed under the state's updates, and every command is a chain of those updates. -/

namespace Sys2Proof.Machine

/-- The opcodes of the commands that write the BitBuffer (R120, R193, R198). -/
def bbWriters : List (BitVec 8) := [0x10#8, 0x11#8, 0x13#8, 0x15#8, 0x40#8, 0x41#8]

/-- The opcodes of the commands that write octets of the OctetBuffers (R140, R164, R198, R233). -/
def obWriters : List (BitVec 8) := [0x20#8, 0x21#8, 0x24#8, 0x25#8, 0x32#8, 0x41#8, 0x50#8]

/-- The opcodes of the commands that write the IntegerCodec's registers (R164 to R168). -/
def icWriters : List (BitVec 8) := [0x30#8, 0x31#8, 0x32#8, 0x33#8, 0x34#8]

/-- From `s` to `t` only components changed that a command with opcode `op` may write; the table is `exec_ht`'s. -/
structure FamilyFrame (op : BitVec 8) (s t : State) : Prop where
  bb : op ∉ bbWriters → t.bb = s.bb
  obs : op ∉ obWriters → t.obs = s.obs
  ic : op ∉ icWriters → t.ic = s.ic
  freeCtr : op ≠ 0x32#8 → t.freeCtr = s.freeCtr

namespace FamilyFrame

variable {op : BitVec 8} {s t : State}

theorem refl : FamilyFrame op s s := ⟨fun _ => rfl, fun _ => rfl, fun _ => rfl, fun _ => rfl⟩

theorem done {v w : Nat} (h : FamilyFrame op s t) : FamilyFrame op s (t.done v w) := { h with }

theorem raise {c : Cause} (h : FamilyFrame op s t) : FamilyFrame op s (t.raise c) := { h with }

theorem setHt {ht : HeaderTable} (h : FamilyFrame op s t) : FamilyFrame op s (t.setHt ht) := { h with }

theorem setBb {bb : BitBuffer} (hop : bbWriters.contains op = true) (h : FamilyFrame op s t) :
    FamilyFrame op s (t.setBb bb) :=
  { h with bb := fun hn => absurd (List.contains_iff_mem.1 hop) hn }

theorem setOb {a : ObSel} {d : OctetBuffer} (hop : obWriters.contains op = true) (h : FamilyFrame op s t) :
    FamilyFrame op s (t.setOb a d) :=
  { h with obs := fun hn => absurd (List.contains_iff_mem.1 hop) hn }

theorem setIc {ic : IntegerCodec} (hop : icWriters.contains op = true) (h : FamilyFrame op s t) :
    FamilyFrame op s (t.setIc ic) :=
  { h with ic := fun hn => absurd (List.contains_iff_mem.1 hop) hn }

theorem drawFree {n : Nat} (hop : op = 0x32#8) (h : FamilyFrame op s t) : FamilyFrame op s (t.drawFree n) :=
  { h with freeCtr := fun hn => absurd hop hn }

end FamilyFrame

/-- Every command stays within the frame of its opcode: each next state it answers is a chain of updates that opcode may make. -/
theorem exec_familyFrame {i : Instr} {s t : State} (e : exec i s = .next t) : FamilyFrame i.opcode s t := by
  cases i with
  | sysRdcsr reg =>
    rcases execSysRdcsr_next e with ⟨_, _, rfl⟩ | rfl
    exacts [.done .refl, .raise .refl]
  | bbAppendBit bit =>
    rcases execBbAppendBit_next e with ⟨_, _, rfl⟩ | rfl
    exacts [.done (.setBb rfl .refl), .raise .refl]
  | bbAppendOct v =>
    rcases execBbAppendOct_next e with ⟨_, ⟨_, rfl⟩ | ⟨_, rfl⟩⟩
    exacts [.done (.setBb rfl .refl), .raise (.setBb rfl .refl)]
  | bbAt pos =>
    rcases execBbAt_next e with ⟨_, rfl⟩ | rfl
    exacts [.done .refl, .raise .refl]
  | bbPut bit pos =>
    rcases execBbPut_next e with ⟨_, rfl⟩ | rfl
    exacts [.done (.setBb rfl .refl), .raise .refl]
  | bbLen => exact execBbLen_next e ▸ .done .refl
  | bbClear => exact execBbClear_next e ▸ .done (.setBb rfl .refl)
  | obInit a n =>
    rcases execObInit_next e with ⟨_, _, rfl⟩ | ⟨_, rfl, _⟩
    exacts [.done (.setOb rfl .refl), .raise .refl]
  | obSet a v n =>
    rcases execObSet_next e with ⟨_, _, rfl⟩ | ⟨_, rfl⟩ | rfl
    exacts [.done (.setOb rfl .refl), .done .refl, .raise .refl]
  | obGet a n =>
    rcases execObGet_next e with ⟨_, _, rfl⟩ | ⟨_, rfl, _⟩
    exacts [.done .refl, .raise .refl]
  | obLen a =>
    rcases execObLen_next e with ⟨_, rfl⟩ | rfl
    exacts [.done .refl, .raise .refl]
  | obLoadBits a =>
    rcases execObLoadBits_next e with ⟨_, _, rfl⟩ | ⟨_, _, rfl⟩ | ⟨_, rfl, _⟩
    exacts [.done .refl, .done (.setOb rfl .refl), .raise .refl]
  | obCopy a b =>
    rcases execObCopy_next e with ⟨_, _, rfl⟩ | rfl
    exacts [.done (.setOb rfl .refl), .raise .refl]
  | icSetPrefix w =>
    rcases execIcSetPrefix_next e with ⟨_, rfl⟩ | rfl
    exacts [.done (.setIc rfl .refl), .raise .refl]
  | icSetOffset o => exact execIcSetOffset_next e ▸ .done (.setIc rfl .refl)
  | icEncode a v =>
    rcases execIcEncode_next e with ⟨_, _, _, rfl⟩ | ⟨_, _, _, rfl⟩ | ⟨_, rfl, _⟩
    exacts [.done (.setIc rfl (.setOb rfl .refl)), .raise (.drawFree rfl (.setOb rfl .refl)), .raise .refl]
  | icDecode a =>
    rcases execIcDecode_next e with ⟨_, _, _, _, _, rfl⟩ | ⟨_, rfl, _⟩
    exacts [.done (.setIc rfl .refl), .raise .refl]
  | icReset => exact execIcReset_next e ▸ .done (.setIc rfl .refl)
  | hcEncode a st n =>
    rcases execHcEncode_next e with ⟨_, _, rfl⟩ | ⟨_, _, rfl⟩ | ⟨_, rfl, _⟩
    exacts [.done (.setBb rfl .refl), .raise (.setBb rfl .refl), .raise .refl]
  | hcDecode a b st n d =>
    rcases execHcDecode_next e with ⟨_, _, _, _, rfl⟩ | ⟨_, _, _, _, rfl, _⟩ | ⟨_, rfl, _⟩
    exacts [.done (.setOb rfl (.setBb rfl .refl)), .raise (.setBb rfl .refl), .raise .refl]
  | htGet a b u =>
    rcases execHtGet_next e with ⟨_, _, _, _, _, _, _, rfl⟩ | ⟨_, rfl, _⟩
    exacts [.done (.setOb rfl (.setOb rfl .refl)), .raise .refl]
  | htPut a b ns nl vs vl =>
    rcases execHtPut_next e with ⟨_, _, rfl⟩ | ⟨_, rfl, _⟩
    exacts [.done (.setHt .refl), .raise .refl]
  | htUpdCap n =>
    rcases execHtUpdCap_next e with ⟨_, _, rfl, _⟩ | rfl
    exacts [.done (.setHt .refl), .raise .refl]
  | htIsFull => exact execHtIsFull_next e ▸ .done .refl

/-- Settles O20, by the frame of the command's opcode and, for the table, `exec_ht`. -/
theorem eachFamilyTouchesOnlyItsComponents : Obligations.EachFamilyTouchesOnlyItsComponents := by
  intro i s t e
  obtain ⟨hbb, hobs, hic, hfree⟩ := exec_familyFrame e
  exact ⟨hbb, hobs, hic, fun hi => exec_ht hi e, hfree⟩

end Sys2Proof.Machine
end

section
/-! PROOFS. HT.GET (`45_headertable.md` R233) and the unified index it resolves (`20_memory.md` R67). -/

namespace Sys2Proof.Machine

variable {s : State} {a b : ObSel} {u : Nat} {p : Pair}

/-! ## The unified index -/

/-- The index ranges of R67 in numbers. -/
theorem State.resolve_eq (s : State) (u : Nat) : s.resolve u =
    if 1 ≤ u ∧ u ≤ 61 then s.cfg.staticRom[u - 1]?
    else if 62 ≤ u ∧ u ≤ 61 + s.ht.count then s.ht.dyn[u - 62]? else none := rfl

/-- Index 0 and the indices past the last dynamic entry are invalid (R67). -/
theorem State.resolve_outside (h : u = 0 ∨ 61 + s.ht.count < u) : s.resolve u = none := by
  rw [State.resolve_eq, if_neg (by omega), if_neg (by omega)]

/-- Indices 1 to 61 read the static table (R67). -/
theorem State.resolve_static (h1 : 1 ≤ u) (h61 : u ≤ 61) : s.resolve u = s.cfg.staticRom[u - 1]? := by
  rw [State.resolve_eq, if_pos ⟨h1, h61⟩]

/-- Indices from 62 on read the dynamic table, newest first, when `dynamic_length` counts its entries (R67, R40). -/
theorem State.resolve_dynamic (hcount : s.ht.count = s.ht.dyn.length) (h62 : 62 ≤ u) :
    s.resolve u = s.ht.dyn[u - 62]? := by
  rw [State.resolve_eq, if_neg (by omega)]
  split
  · rfl
  · exact (List.getElem?_eq_none (by omega)).symm

/-! ## The command -/

section get
variable (ha : a.toNat < s.obs.length) (hb : b.toNat < s.obs.length) (hab : a ≠ b)
include ha hb hab

theorem execHtGet_unresolved (h : s.resolve u = none) : execHtGet a b u s = fail s .htIndexRange := by
  rw [execHtGet, withObs_of_lt ha hb, if_neg hab, h]

theorem execHtGet_small (h : s.resolve u = some p) (hsmall : s.obLen a < p.name.length ∨ s.obLen b < p.value.length) :
    execHtGet a b u s = fail s .htDestSmall := by
  rw [execHtGet, withObs_of_lt ha hb, if_neg hab, h]
  exact if_pos hsmall

theorem execHtGet_fits (h : s.resolve u = some p) (hn : p.name.length ≤ s.obLen a) (hv : p.value.length ≤ s.obLen b) :
    execHtGet a b u s =
      ok ((s.setOb a (writeRun (s.ob a) 0 p.name)).setOb b (writeRun (s.ob b) 0 p.value)) p.name.length p.value.length := by
  rw [execHtGet, withObs_of_lt ha hb, if_neg hab, h]
  exact if_neg (by omega)

end get

@[simp] theorem State.done_ob (s : State) (v w : Nat) (a : ObSel) : (s.done v w).ob a = s.ob a := rfl

/-- Writing two different buffers: each holds what was written to it. -/
theorem State.setOb_setOb_ob_fst {d d' : OctetBuffer} (ha : a.toNat < s.obs.length) (hab : a ≠ b) :
    ((s.setOb a d).setOb b d').ob a = d := by
  rw [State.setOb_ob_other _ _ _ _ hab.symm, State.setOb_ob_self _ _ _ (State.hasOb_iff.2 ha)]

theorem State.setOb_setOb_ob_snd {d d' : OctetBuffer} (hb : b.toNat < s.obs.length) :
    ((s.setOb a d).setOb b d').ob b = d' :=
  State.setOb_ob_self _ _ _ (by rw [State.setOb_hasOb]; exact State.hasOb_iff.2 hb)

/-- Settles O53: the index resolves or not, and the pair fits its two buffers or not. -/
theorem getDeliversThePairAtTheUnifiedIndex : Obligations.GetDeliversThePairAtTheUnifiedIndex := by
  intro s a b u _ hht ha hb hab
  refine ⟨fun h => execHtGet_unresolved ha hb hab (State.resolve_outside h), fun p hp => ?_⟩
  have hres : s.resolve u = some p := by
    rcases hp with ⟨h1, h61, hp⟩ | ⟨h62, hp⟩
    · rw [State.resolve_static h1 h61, hp]
    · rw [State.resolve_dynamic hht.count_eq h62, hp]
  refine ⟨execHtGet_small ha hb hab hres, fun hn hv => ⟨_, execHtGet_fits ha hb hab hres hn hv, rfl, ?_, ?_, ?_, ?_⟩⟩
  · simp
  · rw [State.done_ob, State.setOb_setOb_ob_fst ha hab]
    exact writeRun_writtenAt ((Nat.zero_add _).trans_le hn)
  · rw [State.done_ob, State.setOb_setOb_ob_snd hb]
    exact writeRun_writtenAt ((Nat.zero_add _).trans_le hv)
  · intro x hxa hxb
    rw [State.done_ob, State.setOb_ob_other _ _ _ _ (Ne.symm hxb), State.setOb_ob_other _ _ _ _ (Ne.symm hxa)]

end Sys2Proof.Machine
end

section
/-! PROOFS. Encoding and decoding (`30_encoding.md` R90 to R101).  A word is its five fields, and a row of R95 selects a word by them:
`selects_iff`.  What the encoder writes for the command a row builds is said once, over the 24 rows (`rows_describe`); with the
row of each command (`exists_row`) this gives the exact characterisation of the decoder, and the other statements from it. -/

namespace Sys2Proof

open Machine (operandWords)

/-! ## A command word and its fields -/

/-- Two words with the same five fields are the same word (R92). -/
theorem cmd_ext {w v : BitVec 32} (ho : cmdOpcode w = cmdOpcode v) (ha : cmdObA w = cmdObA v) (hb : cmdObB w = cmdObB v)
    (hz : cmdZero w = cmdZero v) (hi : cmdImm8 w = cmdImm8 v) : w = v := by
  have field (s n : Nat) (h : w.extractLsb' s n = v.extractLsb' s n) (k : Nat) (hk : k < n) :
      w.getLsbD (s + k) = v.getLsbD (s + k) := by
    simpa [hk] using congrArg (fun x => BitVec.getLsbD x k) h
  apply BitVec.eq_of_getLsbD_eq
  intro k hk
  by_cases h8 : k < 8
  · simpa using field 0 8 hi k h8
  by_cases h16 : k < 16
  · simpa [show 8 + (k - 8) = k by omega] using field 8 8 hz (k - 8) (by omega)
  by_cases h20 : k < 20
  · simpa [show 16 + (k - 16) = k by omega] using field 16 4 hb (k - 16) (by omega)
  by_cases h24 : k < 24
  · simpa [show 20 + (k - 20) = k by omega] using field 20 4 ha (k - 20) (by omega)
  · simpa [show 24 + (k - 24) = k by omega] using field 24 8 ho (k - 24) (by omega)

/-- A word matches when each field matches. -/
theorem and_eq_iff_fields {w m v : BitVec 32} : w &&& m = v ↔
    cmdOpcode w &&& cmdOpcode m = cmdOpcode v ∧ cmdObA w &&& cmdObA m = cmdObA v ∧ cmdObB w &&& cmdObB m = cmdObB v ∧
      cmdZero w &&& cmdZero m = cmdZero v ∧ cmdImm8 w &&& cmdImm8 m = cmdImm8 v := by
  constructor
  · intro h
    exact ⟨field_of_mask h _ _, field_of_mask h _ _, field_of_mask h _ _, field_of_mask h _ _, field_of_mask h _ _⟩
  · rintro ⟨ho, ha, hb, hz, hi⟩
    apply cmd_ext
    · rw [← ho]; exact BitVec.extractLsb'_and
    · rw [← ha]; exact BitVec.extractLsb'_and
    · rw [← hb]; exact BitVec.extractLsb'_and
    · rw [← hz]; exact BitVec.extractLsb'_and
    · rw [← hi]; exact BitVec.extractLsb'_and

/-- The masks and matches of R95, field by field: the opcode and `zero` are always tested, a selector field unless it is used, and
a tested field but the opcode is 0. -/
theorem row_fields {r : Row} (hr : r ∈ rows) :
    (cmdOpcode r.mask = 0xFF#8 ∧ cmdZero r.mask = 0xFF#8 ∧
      cmdObA r.mask = (if r.usesObA then 0#4 else 0xF#4) ∧ cmdObB r.mask = (if r.usesObB then 0#4 else 0xF#4)) ∧
    cmdObA r.matchBits = 0#4 ∧ cmdObB r.matchBits = 0#4 ∧ cmdZero r.matchBits = 0#8 ∧ cmdImm8 r.matchBits = 0#8 := by
  revert r
  decide

/-- A selector under its part of the mask: tested against 0 unless the row uses it. -/
theorem and_selectorMask_eq_zero {used : Bool} {a : ObSel} :
    a &&& (if used then 0#4 else 0xF#4) = 0#4 ↔ (used = false → a = 0#4) := by
  have whole : a &&& 0xF#4 = a := BitVec.and_allOnes
  cases used
  · simp [whole]
  · simp

/-- When a row selects a word, field by field (R95). -/
theorem selects_iff {r : Row} (hr : r ∈ rows) {w : BitVec 32} : r.selects w = true ↔
    cmdOpcode w = cmdOpcode r.matchBits ∧ (r.usesObA = false → cmdObA w = 0#4) ∧ (r.usesObB = false → cmdObB w = 0#4) ∧
      cmdZero w = 0#8 ∧ cmdImm8 w &&& cmdImm8 r.mask = 0#8 := by
  obtain ⟨⟨mo, mz, ma, mb⟩, va, vb, vz, vi⟩ := row_fields hr
  have whole (v : BitVec 8) : v &&& 0xFF#8 = v := BitVec.and_allOnes
  rw [Row.selects, beq_iff_eq, and_eq_iff_fields, mo, mz, ma, mb, va, vb, vz, vi, whole, whole, and_selectorMask_eq_zero,
    and_selectorMask_eq_zero]

/-! ## The command a row builds -/

/-- As an immediate, a bit is the lowest bit of the field it was read from (R96). -/
theorem bitImm_getElem_zero (v : Octet) : bitImm v[0] = v &&& 1#8 := by
  revert v
  decide

/-- The selectors pass the checks of a row (R98, R99, R101). -/
def Row.Accepts (r : Row) (c : Config) (a b : ObSel) : Prop :=
  (r.usesObA = true → ObSel.legal c a = true) ∧ (r.usesObB = true → ObSel.legal c b = true) ∧ (r.differ = true → a ≠ b)

/-- The first `n` operand words are the same. -/
def Fields.SameWords (n : Nat) (f g : Fields) : Prop :=
  (1 ≤ n → f.a0 = g.a0) ∧ (2 ≤ n → f.a1 = g.a1) ∧ (3 ≤ n → f.a2 = g.a2) ∧ (4 ≤ n → f.a3 = g.a3)

/-- What the columns of a row say of the commands it builds: the command word the encoder writes for them, the operand words, and
the checks; and they read no operand word past the ones they use. -/
structure Row.Describes (r : Row) : Prop where
  cmd : ∀ f, (encode (r.build f)).cmd = packCmd (cmdOpcode r.matchBits) (if r.usesObA then f.obA else 0#4)
    (if r.usesObB then f.obB else 0#4) (f.imm8 &&& ~~~cmdImm8 r.mask)
  a0 : ∀ f, (encode (r.build f)).a0 = if 1 ≤ operandWords (r.build f) then f.a0 else 0
  a1 : ∀ f, (encode (r.build f)).a1 = if 2 ≤ operandWords (r.build f) then f.a1 else 0
  a2 : ∀ f, (encode (r.build f)).a2 = if 3 ≤ operandWords (r.build f) then f.a2 else 0
  a3 : ∀ f, (encode (r.build f)).a3 = if 4 ≤ operandWords (r.build f) then f.a3 else 0
  legal : ∀ f c, (r.build f).selectorsLegal c = true ↔ r.Accepts c f.obA f.obB
  congr : ∀ f g, f.obA = g.obA → f.obB = g.obB → f.imm8 = g.imm8 → f.SameWords (operandWords (r.build g)) g →
    r.build f = r.build g

theorem rows_describe {r : Row} (hr : r ∈ rows) : r.Describes := by
  simp only [rows, rowsSysBb, rowsOb, rowsIc, rowsHcHt, List.cons_append, List.nil_append, List.mem_cons,
    List.not_mem_nil, or_false] at hr
  have whole (v : Octet) : v &&& 0xFF#8 = v := BitVec.and_allOnes
  rcases hr with rfl | rfl | rfl | rfl | rfl | rfl | rfl | rfl | rfl | rfl | rfl | rfl | rfl | rfl | rfl | rfl | rfl |
    rfl | rfl | rfl | rfl | rfl | rfl | rfl <;>
  exact {
    cmd := fun f => by simp [encode, Instr.opcode, cmdImm8, cmdOpcode, Fields.bit, bitImm_getElem_zero, whole]
    a0 := fun _ => rfl
    a1 := fun _ => rfl
    a2 := fun _ => rfl
    a3 := fun _ => rfl
    legal := fun f c => by simp [Instr.selectorsLegal, Row.Accepts, and_assoc]
    congr := fun f g ha hb hi hwords => by simp_all [Fields.SameWords, operandWords, Fields.bit] }

/-- The fields and the operand words of a command's packet. -/
def Instr.encodedFields (i : Instr) : Fields where
  obA := cmdObA (encode i).cmd
  obB := cmdObB (encode i).cmd
  imm8 := cmdImm8 (encode i).cmd
  a0 := (encode i).a0
  a1 := (encode i).a1
  a2 := (encode i).a2
  a3 := (encode i).a3

/-- Every command is the one some row builds from the command's own packet (R94, R95). -/
theorem exists_row (i : Instr) : ∃ r ∈ rows, r.build i.encodedFields = i := by
  have bit (b : Bool) : (bitImm b)[0] = b := by cases b <;> rfl
  cases i <;>
  simp [rows, rowsSysBb, rowsOb, rowsIc, rowsHcHt, Instr.encodedFields, encode, Fields.bit, bit, packCmd_obA, packCmd_obB,
    packCmd_imm8]

/-- Clearing the bits under a mask leaves a value with no bit under it as it was. -/
theorem and_not_eq_self {n : Nat} {v m : BitVec n} (h : v &&& m = 0#n) : v &&& ~~~m = v := by
  apply BitVec.eq_of_getLsbD_eq
  intro k hk
  have hbit : (v.getLsbD k && m.getLsbD k) = false := by rw [← BitVec.getLsbD_and, h, BitVec.getLsbD_zero]
  rw [BitVec.getLsbD_and, BitVec.getLsbD_not, decide_eq_true hk, Bool.true_and]
  cases hv : v.getLsbD k
  · rfl
  · rw [hv, Bool.true_and] at hbit
    rw [hbit]
    rfl

/-- A row selects the command words of what it builds. -/
theorem selects_encode_build {r : Row} (hr : r ∈ rows) (f : Fields) : r.selects (encode (r.build f)).cmd = true := by
  rw [selects_iff hr, (rows_describe hr).cmd, packCmd_opcode, packCmd_obA, packCmd_obB, packCmd_zero, packCmd_imm8]
  refine ⟨rfl, fun h => by simp [h], fun h => by simp [h], rfl, ?_⟩
  rw [BitVec.and_assoc, BitVec.and_comm (~~~_), BitVec.and_not_self]
  exact BitVec.and_zero

/-- What a selected row builds from a packet's fields has the packet's command word. -/
theorem encode_build_cmd {r : Row} (hr : r ∈ rows) {c : Config} {p : Packet} (h : r.selects p.cmd = true) :
    (encode (r.build (fieldsOf c p))).cmd = p.cmd := by
  obtain ⟨ho, ha, hb, hz, hi⟩ := (selects_iff hr).1 h
  rw [(rows_describe hr).cmd]
  apply cmd_ext
  · rw [packCmd_opcode, ho]
  · rw [packCmd_obA]
    cases hu : r.usesObA
    · exact (ha hu).symm
    · rfl
  · rw [packCmd_obB]
    cases hu : r.usesObB
    · exact (hb hu).symm
    · rfl
  · rw [packCmd_zero, hz]
  · rw [packCmd_imm8]
    exact and_not_eq_self hi

/-! ## The decoder -/

/-- The row of a command, on any packet with its command word: it selects the word, its checks are the command's, and it reads the
command from the packet when the operand words the command uses are there. -/
theorem exists_selecting_row {c : Config} {p : Packet} {i : Instr} (h : p.cmd = (encode i).cmd) :
    ∃ r ∈ rows, r.selects p.cmd = true ∧
      (i.selectorsLegal c = true ↔ r.Accepts c (cmdObA p.cmd) (cmdObB p.cmd)) ∧
      ((fieldsOf c p).SameWords (operandWords i) i.encodedFields → r.build (fieldsOf c p) = i) := by
  obtain ⟨r, hr, hi⟩ := exists_row i
  have hd := rows_describe hr
  refine ⟨r, hr, ?_, ?_, fun hwords => ?_⟩
  · rw [h, ← hi]
    exact selects_encode_build hr _
  · have hlegal := hd.legal i.encodedFields c
    rw [hi] at hlegal
    rw [h]
    exact hlegal
  · have hcongr := hd.congr (fieldsOf c p) i.encodedFields (congrArg cmdObA h) (congrArg cmdObB h) (congrArg cmdImm8 h)
    rw [hi] at hcongr
    exact hcongr hwords

/-- What the decoder answers has the command word it was given (R95, R97). -/
theorem decode_cmd {c : Config} {p : Packet} {i : Instr} (h : decode c p = .ok i) : (encode i).cmd = p.cmd := by
  obtain ⟨r, hr, hsel, _, _, _, rfl⟩ := decode_ok h
  exact encode_build_cmd hr hsel

/-- The operand words of what the decoder answers: the packet's where the command uses them, else 0 (R91, R95). -/
theorem decode_words {c : Config} {p : Packet} {i : Instr} (h : decode c p = .ok i) :
    (encode i).a0 = (if 1 ≤ operandWords i then p.a0 % 2 ^ c.xlen else 0) ∧
    (encode i).a1 = (if 2 ≤ operandWords i then p.a1 % 2 ^ c.xlen else 0) ∧
    (encode i).a2 = (if 3 ≤ operandWords i then p.a2 % 2 ^ c.xlen else 0) ∧
    (encode i).a3 = (if 4 ≤ operandWords i then p.a3 % 2 ^ c.xlen else 0) := by
  obtain ⟨r, hr, _, _, _, _, rfl⟩ := decode_ok h
  have hd := rows_describe hr
  exact ⟨hd.a0 _, hd.a1 _, hd.a2 _, hd.a3 _⟩

/-- Settles O58: one way by the row that was selected, the other by the row of the command. -/
theorem unusedOperandWordsAreIgnored : Obligations.UnusedOperandWordsAreIgnored := by
  intro c p i
  constructor
  · intro h
    obtain ⟨h0, h1, h2, h3⟩ := decode_words h
    exact ⟨decode_wf h, (decode_cmd h).symm, fun hn => by rw [h0, if_pos hn], fun hn => by rw [h1, if_pos hn],
      fun hn => by rw [h2, if_pos hn], fun hn => by rw [h3, if_pos hn]⟩
  · rintro ⟨hwf, hcmd, hwords⟩
    obtain ⟨hlegal, _⟩ := Bool.and_eq_true_iff.1 hwf
    obtain ⟨r, hr, hsel, hchecks, hbuild⟩ := exists_selecting_row (c := c) hcmd
    obtain ⟨ha, hb, hd⟩ := hchecks.1 hlegal
    rw [decode_row hr hsel ha hb hd, hbuild hwords]

/-- The operand words of an encoding fit when the command's do; the unused ones are 0 (R90, R91). -/
theorem encode_words_lt {c : Config} {i : Instr} (h : i.wordsFit c = true) :
    (encode i).a0 < 2 ^ c.xlen ∧ (encode i).a1 < 2 ^ c.xlen ∧ (encode i).a2 < 2 ^ c.xlen ∧ (encode i).a3 < 2 ^ c.xlen := by
  cases i <;> simp_all [Instr.wordsFit, wordFits, encode]

/-- Settles O1: the command's own packet has its command word and its operand words, which fit. -/
theorem decodingTheEncodingGivesTheCommand : Obligations.DecodingTheEncodingGivesTheCommand := by
  intro c i hwf
  obtain ⟨_, hfit⟩ := Bool.and_eq_true_iff.1 hwf
  obtain ⟨h0, h1, h2, h3⟩ := encode_words_lt hfit
  exact (unusedOperandWordsAreIgnored c (encode i) i).2 ⟨hwf, rfl, fun _ => Nat.mod_eq_of_lt h0,
    fun _ => Nat.mod_eq_of_lt h1, fun _ => Nat.mod_eq_of_lt h2, fun _ => Nat.mod_eq_of_lt h3⟩

/-- Settles O2: the answer is well formed, so its encoding decodes to it, and each word is used or 0. -/
theorem decodedCommandReencodesToTheWord : Obligations.DecodedCommandReencodesToTheWord := by
  intro c p i h
  obtain ⟨h0, h1, h2, h3⟩ := decode_words h
  rw [h0, h1, h2, h3]
  exact ⟨decode_wf h, decode_cmd h, decodingTheEncodingGivesTheCommand c i (decode_wf h), ite_eq_or_eq .., ite_eq_or_eq ..,
    ite_eq_or_eq .., ite_eq_or_eq ..⟩

/-! ## The table of R95 -/

/-- Settles O3: a word that matches two rows has the opcode of both, and the opcodes differ. -/
theorem noWordMatchesTwoRows : Obligations.NoWordMatchesTwoRows := by
  refine ⟨rfl, fun r hr => (row_fields hr).1.1, fun w m n hm hn => ?_⟩
  have hop := (selects_opcode (List.getElem_mem m.isLt) hm).symm.trans (selects_opcode (List.getElem_mem n.isLt) hn)
  have hpair := List.pairwise_iff_getElem.1 rows_opcodes_differ
  rcases lt_trichotomy m n with h | h | h
  · exact absurd hop (hpair _ _ m.isLt n.isLt h)
  · exact h
  · exact absurd hop.symm (hpair _ _ n.isLt m.isLt h)

/-- The opcodes of R94, and what the rows of an opcode say of the other fields: which test obA, obB or all of imm8, and which leave
its lowest bit free (the columns of R95). -/
theorem row_columns {r : Row} (hr : r ∈ rows) :
    cmdOpcode r.matchBits ∈ [0x01#8, 0x10#8, 0x11#8, 0x12#8, 0x13#8, 0x14#8, 0x15#8, 0x20#8, 0x21#8, 0x22#8, 0x23#8, 0x24#8,
      0x25#8, 0x30#8, 0x31#8, 0x32#8, 0x33#8, 0x34#8, 0x40#8, 0x41#8, 0x50#8, 0x51#8, 0x52#8, 0x53#8] ∧
    (cmdOpcode r.matchBits ∈ [0x01#8, 0x10#8, 0x11#8, 0x12#8, 0x13#8, 0x14#8, 0x15#8, 0x30#8, 0x31#8, 0x34#8, 0x52#8, 0x53#8] →
      r.usesObA = false) ∧
    (cmdOpcode r.matchBits ∉ [0x25#8, 0x41#8, 0x50#8, 0x51#8] → r.usesObB = false) ∧
    (cmdOpcode r.matchBits ∉ [0x01#8, 0x10#8, 0x11#8, 0x13#8, 0x21#8, 0x30#8] → cmdImm8 r.mask = 0xFF#8) ∧
    (cmdOpcode r.matchBits ∈ [0x10#8, 0x13#8] → cmdImm8 r.mask = 0xFE#8) := by
  revert r
  decide

/-- A value with no bit but the lowest is 0 or 1. -/
theorem eq_zero_or_one_of_and_eq_zero {v : Octet} (h : v &&& 0xFE#8 = 0#8) : v = 0#8 ∨ v = 1#8 := by
  revert v
  decide

/-- A packet that decodes to no command raises ILLEGAL_CMD and changes nothing else (R97 to R100, R282). -/
theorem Machine.step_illegal {s : Machine.State} {p : Packet} (hp : s.stream[s.index]? = some (.packet p))
    (h : ∀ i, decode s.cfg p ≠ .ok i) : Machine.step s = .next ({ s with index := s.index + 1 }.withFault 1) := by
  have hp : s.nextInput = some (.packet p) := hp
  cases hd : decode s.cfg p with
  | ok i => exact absurd hd (h i)
  | error e =>
    rw [Machine.step, hp]
    simp only [hd]
    exact Machine.fail_eq s.advance .illegalCmd

/-- Settles O4: a word that decodes matches a row, whose columns rule out each of the other kinds. -/
theorem unassignedWordsRaiseIllegalCmd : Obligations.UnassignedWordsRaiseIllegalCmd := by
  intro s p hp hbad
  refine Machine.step_illegal hp fun i hi => ?_
  obtain ⟨r, hr, hsel, _⟩ := decode_ok hi
  obtain ⟨hop, ha, hb, hz, himm⟩ := (selects_iff hr).1 hsel
  obtain ⟨opcodes, noObA, noObB, noImm, onlyBit⟩ := row_columns hr
  rw [← hop] at opcodes noObA noObB noImm onlyBit
  rcases hbad with hnone | hopcode | hzero | ⟨hmem, hobA⟩ | ⟨hmem, hobB⟩ | ⟨hmem, himm0⟩ | ⟨hmem, himm0, himm1⟩
  · simp [hnone r hr] at hsel
  · exact hopcode opcodes
  · exact hzero hz
  · exact hobA (ha (noObA hmem))
  · exact hobB (hb (noObB hmem))
  · rw [noImm hmem] at himm
    exact himm0 ((BitVec.and_allOnes (x := cmdImm8 p.cmd)).symm.trans himm)
  · rw [onlyBit hmem] at himm
    exact (eq_zero_or_one_of_and_eq_zero himm).elim himm0 himm1

/-- The selector checks depend on the command word alone: what decodes has selectors that pass, whichever command had the word
(R98, R99). -/
theorem selectorsLegal_of_decode {c : Config} {p : Packet} {i j : Instr} (h : p.cmd = (encode i).cmd)
    (hj : decode c p = .ok j) : i.selectorsLegal c = true := by
  obtain ⟨r, hr, hsel, hchecks, _⟩ := exists_selecting_row (c := c) h
  obtain ⟨r', hr', hsel', ha, hb, hd, _⟩ := decode_ok hj
  obtain rfl : r = r' := Option.some.inj ((find_row hr hsel).symm.trans (find_row hr' hsel'))
  exact hchecks.2 ⟨ha, hb, hd⟩

/-- Settles O5: the first part by `selectorsLegal_of_decode`, the last by O1. -/
theorem selectorChecksRaiseIllegalCmd : Obligations.SelectorChecksRaiseIllegalCmd := by
  refine ⟨fun s p i hp hcmd hlegal => Machine.step_illegal hp fun j hj => ?_, fun c a b u h => ?_,
    fun c a x y z w ha hx hy hz hw => ⟨?_, ?_, ?_⟩⟩
  · simp [selectorsLegal_of_decode hcmd hj] at hlegal
  · rcases h with h | h | h <;> simp [Instr.selectorsLegal, ObSel.legal, h]
  all_goals
    apply decodingTheEncodingGivesTheCommand
    simp [Instr.wf, Instr.selectorsLegal, Instr.wordsFit, ObSel.legal, wordFits, ha, hx, hy, hz, hw]

/-- Settles O6: eight packets, decoded. -/
theorem writtenWordsDecodeAsTheSpecSays : Obligations.WrittenWordsDecodeAsTheSpecSays := by
  unfold Obligations.WrittenWordsDecodeAsTheSpecSays
  decide +kernel

end Sys2Proof
end

section
/-! PROOFS. The BitBuffer commands (`40_bitbuffer.md` R120 to R128).  What a run of appends leaves, read bit by bit, is said once of
`BitBuffer.Appended`, and each command is its append, its one bit set, or its clear. -/

namespace Sys2Proof.Machine

variable {c : Config} {bb bb' : BitBuffer} {bits : List Bool} {s t : State}

/-! ## Reading what an append left -/

theorem BitBuffer.Appended.len_eq (h : bb.Appended c bits bb') : bb'.len = bb.len + bits.length := by
  rw [← BitBuffer.bits_length, h.bits_eq, List.length_append, BitBuffer.bits_length]

/-- Appending changes no bit below the old length. -/
theorem BitBuffer.Appended.bitRead_old (h : bb.Appended c bits bb') {p : Nat} (hp : p < bb.len) :
    bb'.bitRead p = bb.bitRead p := by
  have hlen := h.len_eq
  have hget := BitBuffer.bits_getElem? bb' (i := p) (by omega)
  rw [h.bits_eq, List.getElem?_append_left (by rwa [BitBuffer.bits_length]), BitBuffer.bits_getElem? bb hp] at hget
  exact (Option.some.inj hget).symm

/-- The appended bits stand in order from the old length on. -/
theorem BitBuffer.Appended.bitRead_new (h : bb.Appended c bits bb') {i : Nat} (hi : i < bits.length) :
    bb'.bitRead (bb.len + i) = bits[i] := by
  have hlen := h.len_eq
  have hget := BitBuffer.bits_getElem? bb' (i := bb.len + i) (by omega)
  rw [h.bits_eq, List.getElem?_append_right (by rw [BitBuffer.bits_length]; omega), BitBuffer.bits_length,
    Nat.add_sub_cancel_left, List.getElem?_eq_getElem hi] at hget
  exact (Option.some.inj hget).symm

/-- A single append that succeeds appends its bit (R121). -/
theorem BitBuffer.append_appended (hc : c.Valid) (h : bb.Inv c) {b : Bool} (ha : bb.append c.bbPhysBits b = some bb') :
    bb.Appended c [b] bb' := by
  obtain ⟨hinv, hlen, hbits, ⟨_, hcap⟩ | ⟨hfull, hcap, _⟩⟩ := BitBuffer.append_some hc h ha
  · exact ⟨hbits, hinv, .inl hcap⟩
  · have := h.cap_pos hc
    exact ⟨hbits, hinv, .inr (by omega)⟩

/-- In a buffer that is full and cannot double, a run of appends stops at its first bit (R121). -/
theorem BitBuffer.appendAll_of_full {phys : Nat} (hfull : bb.len = bb.cap) (hphys : phys < 2 * bb.cap) (hbits : bits ≠ []) :
    bb.appendAll phys bits = (bb, false) := by
  cases bits with
  | nil => exact absurd rfl hbits
  | cons b bits => rw [BitBuffer.appendAll, BitBuffer.append_none.2 ⟨hfull, hphys⟩]

/-! ## Nothing is lost but by a clear (R120) -/

/-- From `bb` to `bb'` neither the capacity nor the length shrank, and no 1 bit below the length was lost. -/
structure BitBuffer.Keeps (bb bb' : BitBuffer) : Prop where
  cap_le : bb.cap ≤ bb'.cap
  len_le : bb.len ≤ bb'.len
  ones : ∀ p < bb.len, bb.bitRead p = true → bb'.bitRead p = true

theorem BitBuffer.Keeps.refl (bb : BitBuffer) : bb.Keeps bb := ⟨le_rfl, le_rfl, fun _ _ h => h⟩

theorem BitBuffer.Appended.keeps (h : bb.Appended c bits bb') : bb.Keeps bb' where
  cap_le := by
    rcases h.cap_min with hcap | ⟨hcap, _⟩
    · exact hcap.ge
    · exact hcap.le
  len_le := h.len_eq ▸ Nat.le_add_right _ _
  ones _ hp hone := (h.bitRead_old hp).trans hone

theorem BitBuffer.bitSet_keeps (h : Memory.wf bb.store) (p : Nat) : bb.Keeps (bb.bitSet p) where
  cap_le := le_rfl
  len_le := le_rfl
  ones q _ hone := by rw [BitBuffer.bitRead_bitSet h, hone, Bool.or_true]

/-- A run of appends keeps what was there, whether all of it fits or not. -/
theorem BitBuffer.appendAll_keeps (hc : c.Valid) (h : bb.Inv c) {b : Bool}
    (e : bb.appendAll c.bbPhysBits bits = (bb', b)) : bb.Keeps bb' := by
  obtain ⟨n, _, hA, _, _⟩ := BitBuffer.appendAll_spec hc h bits
  rw [e] at hA
  exact hA.keeps

theorem appendBits_keeps (hc : s.cfg.Valid) (h : s.bb.Inv s.cfg) (e : appendBits bits s = .next t) : s.bb.Keeps t.bb := by
  obtain ⟨bb, ⟨ha, rfl⟩ | ⟨ha, rfl⟩⟩ := appendBits_next e
  · exact BitBuffer.appendAll_keeps hc h ha
  · exact BitBuffer.appendAll_keeps hc h ha

/-- No command but BB.CLEAR and HC.DECODE loses anything of the BitBuffer: three append, BB.PUT sets a bit, and the others leave
it as it was. -/
theorem exec_keeps {i : Instr} (hc : s.cfg.Valid) (h : s.bb.Inv s.cfg) (e : exec i s = .next t) (hclear : i ≠ .bbClear)
    (hdecode : ∀ a b st n d, i ≠ .hcDecode a b st n d) : s.bb.Keeps t.bb := by
  cases i with
  | bbAppendBit bit => exact appendBits_keeps hc h e
  | bbAppendOct v => exact appendBits_keeps hc h e
  | bbPut bit pos =>
    rcases execBbPut_next e with ⟨_, rfl⟩ | rfl
    · cases bit
      · exact .refl _
      · exact BitBuffer.bitSet_keeps h.wf pos
    · exact .refl _
  | bbClear => exact absurd rfl hclear
  | hcEncode a st n =>
    rcases execHcEncode_next e with ⟨bb, ha, rfl⟩ | ⟨bb, ha, rfl⟩ | ⟨_, rfl, _⟩
    · exact BitBuffer.appendAll_keeps hc h ha
    · exact BitBuffer.appendAll_keeps hc h ha
    · exact .refl _
  | hcDecode a b st n d => exact absurd rfl (hdecode a b st n d)
  | _ => exact (exec_familyFrame e).bb (by simp [Instr.opcode, bbWriters]) ▸ .refl _

/-- The clear inside HC.DECODE keeps the capacity too, and what is appended after it can only double it (R198). -/
theorem execHcDecode_cap_le {a b : ObSel} {st n d : Nat} (hc : s.cfg.Valid) (h : s.bb.Inv s.cfg)
    (e : execHcDecode a b st n d s = .next t) : s.bb.cap ≤ t.bb.cap := by
  have hclear := BitBuffer.clear_inv h
  rcases execHcDecode_next e with ⟨bb, ha, _, _, rfl⟩ | ⟨bb, _, _, ha, rfl, _⟩ | ⟨_, rfl, _⟩
  · exact (BitBuffer.appendAll_keeps hc hclear ha).cap_le
  · exact (BitBuffer.appendAll_keeps hc hclear ha).cap_le
  · exact le_rfl

/-- Settles O22: the two commands that clear keep the capacity, every other one keeps all three. -/
theorem bitBufferShrinksOnlyByClearing : Obligations.BitBufferShrinksOnlyByClearing := by
  intro i s t hc h e
  refine ⟨?_, fun hclear hdecode => ?_⟩
  · cases i with
    | bbClear => exact execBbClear_next e ▸ le_rfl
    | hcDecode a b st n d => exact execHcDecode_cap_le hc h e
    | _ => exact (exec_keeps hc h e nofun nofun).cap_le
  · obtain ⟨_, hlen, hones⟩ := exec_keeps hc h e hclear hdecode
    exact ⟨hlen, hones⟩

/-! ## Appending -/

theorem appendBits_of_true (h : s.bb.appendAll s.cfg.bbPhysBits bits = (bb, true)) :
    appendBits bits s = ok (s.setBb bb) bb.len 0 := by
  rw [appendBits, h]

theorem appendBits_of_false (h : s.bb.appendAll s.cfg.bbPhysBits bits = (bb, false)) :
    appendBits bits s = fail (s.setBb bb) .allocFail := by
  rw [appendBits, h]

/-- BB.APPENDBIT is the one append of R121 (R122). -/
theorem execBbAppendBit_of_append {bit : Bool} (h : s.bb.append s.cfg.bbPhysBits bit = some bb) :
    execBbAppendBit bit s = ok (s.setBb bb) bb.len 0 :=
  appendBits_of_true (by simp only [BitBuffer.appendAll, h])

/-- Settles O26, by whether the append of R121 succeeds. -/
theorem appendBitAppendsOrFailsUnchanged : Obligations.AppendBitAppendsOrFailsUnchanged := by
  intro s bit hc h
  refine ⟨fun hroom => ?_, fun ⟨hfull, hphys⟩ => ?_⟩
  · cases ha : s.bb.append s.cfg.bbPhysBits bit with
    | none => exact absurd (BitBuffer.append_none.1 ha) hroom
    | some bb =>
      obtain ⟨_, hlen, _, hcap⟩ := BitBuffer.append_some hc h ha
      refine ⟨bb, ?_, BitBuffer.append_appended hc h ha, ?_⟩
      · exact hlen ▸ execBbAppendBit_of_append ha
      · rcases hcap with ⟨hlt, hcap⟩ | ⟨hfull, hcap, _⟩
        · rw [if_neg hlt.ne, hcap]
        · rw [if_pos hfull, hcap]
  · exact appendBits_of_false (BitBuffer.appendAll_of_full hfull hphys (List.cons_ne_nil _ _))

/-- Settles O27: with room or without; when nothing was appended to a buffer that ends up full, it was full before. -/
theorem appendOctAppendsEightBitsOrTheLeadingOnes : Obligations.AppendOctAppendsEightBitsOrTheLeadingOnes := by
  intro s v hc h bits
  refine ⟨fun hroom => ?_, fun hroom => ?_⟩
  · obtain ⟨bb, e, hA, hlen⟩ := BitBuffer.appendAll_room hc h (bits := bits) hroom
    exact ⟨bb, hlen ▸ appendBits_of_true e, hA⟩
  · obtain ⟨bb, n, hn, e, hA, hfull, hphys, hlen⟩ := BitBuffer.appendAll_no_room hc h (bits := bits) hroom
    refine ⟨bb, n, hn, appendBits_of_false e, hA, hfull, hphys, fun h8 => ?_⟩
    have hn : n < 8 := hn
    have hwhole := hA.inv.whole
    obtain rfl : n = 0 := by omega
    have hle := h.len_le
    have hcap : bb.cap = s.bb.cap := by rcases hA.cap_min with hcap | ⟨hcap, _⟩ <;> omega
    have hself := BitBuffer.appendAll_of_full (bits := bits) (show s.bb.len = s.bb.cap by omega) (hcap ▸ hphys) nofun
    exact ⟨rfl, (Prod.ext_iff.1 (e.symm.trans hself)).1⟩

/-! ## Reading and setting one bit -/

/-- The bit of R62 as a result word. -/
theorem BitBuffer.bitRead_word (bb : BitBuffer) (p : Nat) :
    (if bb.bitRead p then 1 else 0) = (Memory.read bb.store (p / 8)).toNat / 2 ^ (7 - p % 8) % 2 := by
  rw [← Nat.toNat_testBit]
  exact (Bool.cond_eq_ite (bb.bitRead p) 1 0).symm

theorem execBbAt_of_lt {pos : Nat} (h : pos < s.bb.len) :
    execBbAt pos s = ok s (if s.bb.bitRead pos then 1 else 0) 0 := if_neg (Nat.not_le.2 h)

/-- Settles O28: the position is below the length or not. -/
theorem atReadsTheBitBelowTheLength : Obligations.AtReadsTheBitBelowTheLength := by
  intro s pos
  refine ⟨fun h => ?_, fun h => if_pos h⟩
  rw [← BitBuffer.bitRead_word]
  exact execBbAt_of_lt h

/-- Settles O29: the position is below the length or not, and the bit is 0, which writes nothing, or 1. -/
theorem putSetsButNeverClears : Obligations.PutSetsButNeverClears := by
  intro s bit pos hwf
  refine ⟨fun h => ⟨if bit then s.bb.bitSet pos else s.bb, if_neg (Nat.not_le.2 h), ?_⟩, fun h => if_pos h⟩
  cases bit with
  | false => exact ⟨rfl, rfl, hwf, fun _ => rfl, fun q => by simp⟩
  | true =>
    refine ⟨rfl, rfl, Memory.write_wf hwf _ _, nofun, fun q => ?_⟩
    show (s.bb.bitSet pos).bitRead q = _
    rw [BitBuffer.bitRead_bitSet hwf]
    by_cases hq : q = pos <;> simp [hq]

/-- Settles O30: the response is the two fields. -/
theorem lenReportsLengthAndCapacity : Obligations.LenReportsLengthAndCapacity := fun s => ok_eq s _ _

/-! ## Clearing -/

/-- A clear leaves no cell: every one lies inside the capacity (R127). -/
theorem BitBuffer.clear_eq (h : bb.Inv c) : bb.clear = ⟨[], bb.cap, 0⟩ := by
  have hwhole := h.whole
  have hnil : Memory.zeroRange bb.store 0 (bb.cap / 8) = [] := by
    refine List.filter_eq_nil_iff.2 fun x hx => ?_
    have := h.inside x hx
    simp
    omega
  rw [BitBuffer.clear, hnil]

/-- Settles O31: nothing is left in the storage, so every bit reads 0. -/
theorem clearZeroesEveryBitAndKeepsTheCapacity : Obligations.ClearZeroesEveryBitAndKeepsTheCapacity := by
  intro s h
  exact ⟨s.bb.clear, rfl, rfl, rfl, by rw [BitBuffer.clear_eq h], fun p _ => BitBuffer.bitRead_clear h p⟩

/-! ## Appending command by command (R128) -/

/-- A run of BB.APPENDBIT commands leaves the buffer a run of appends leaves, when all of it fits. -/
theorem execAll_appendBit (s : State) (h : s.bb.appendAll s.cfg.bbPhysBits bits = (bb, true)) :
    ∃ t, execAll (bits.map .bbAppendBit) s = some t ∧ t.bb = bb := by
  induction bits generalizing s with
  | nil => exact ⟨s, rfl, (Prod.ext_iff.1 h).1⟩
  | cons b bits ih =>
    rw [BitBuffer.appendAll] at h
    cases ha : s.bb.append s.cfg.bbPhysBits b with
    | none => simp [ha] at h
    | some bb1 =>
      rw [ha] at h
      have hexec : exec (.bbAppendBit b) s = .next ((s.setBb bb1).done bb1.len 0) := execBbAppendBit_of_append ha
      rw [List.map_cons, execAll, hexec]
      exact ih _ h

/-- Settles O32: the run leaves the bits in the buffer, where BB.LEN counts them and BB.AT finds them. -/
theorem appendedBitsReadBackInOrder : Obligations.AppendedBitsReadBackInOrder := by
  intro s bits hc h hempty hroom
  obtain ⟨bb, e, hA, hlen⟩ := BitBuffer.appendAll_room hc h hroom
  obtain ⟨t, hrun, rfl⟩ := execAll_appendBit s e
  rw [hempty, Nat.zero_add] at hlen
  refine ⟨t, hrun, hlen ▸ rfl, fun i hi => ?_⟩
  have hbit := hA.bitRead_new hi
  rw [hempty, Nat.zero_add] at hbit
  rw [← hbit]
  exact execBbAt_of_lt (hlen ▸ hi)

end Sys2Proof.Machine
end

section
/-! PROOFS. HC.DECODE (`43_huffmancodec.md` R197, R198): one lemma per way it can end, in the order of its checks. -/

namespace Sys2Proof.Machine

variable {s : State} {a b : ObSel} {start len dest : Nat} {bb : BitBuffer}

section decode
variable (ha : a.toNat < s.obs.length) (hb : b.toNat < s.obs.length)
include ha hb

theorem execHcDecode_not_ready (h : s.hc.ready = false) : execHcDecode a b start len dest s = fail s .huffNotReady := by
  rw [execHcDecode, withObs_of_lt ha hb, if_pos h]

variable (hready : s.hc.ready = true)
include hready

theorem execHcDecode_bad_length (h : len = 0 ∨ s.obLen a < start + len) :
    execHcDecode a b start len dest s = fail s .huffBadLength := by
  rw [execHcDecode, withObs_of_lt ha hb, if_neg (by simp [hready]), if_pos (h.imp_right Nat.not_le.2)]

variable (hlen : len ≠ 0) (hrange : start + len ≤ s.obLen a)
include hlen hrange

theorem execHcDecode_no_room
    (h : s.bb.clear.appendAll s.cfg.bbPhysBits ((s.range a start len).flatMap octetBits) = (bb, false)) :
    execHcDecode a b start len dest s = fail (s.setBb bb) .allocFail := by
  rw [execHcDecode, withObs_of_lt ha hb, if_neg (by simp [hready]), if_neg (by simp [hlen, hrange]), h]

theorem execHcDecode_exhausted
    (h : s.bb.clear.appendAll s.cfg.bbPhysBits ((s.range a start len).flatMap octetBits) = (bb, true))
    (hout : s.obLen b < dest + (s.hc.trie.walk bb.bits).length) :
    execHcDecode a b start len dest s = fail (s.setBb bb) .huffOutExhausted := by
  rw [execHcDecode, withObs_of_lt ha hb, if_neg (by simp [hready]), if_neg (by simp [hlen, hrange]), h]
  exact if_pos hout

theorem execHcDecode_fits
    (h : s.bb.clear.appendAll s.cfg.bbPhysBits ((s.range a start len).flatMap octetBits) = (bb, true))
    (hout : dest + (s.hc.trie.walk bb.bits).length ≤ s.obLen b) :
    execHcDecode a b start len dest s =
      ok ((s.setBb bb).setOb b (writeRun (s.ob b) dest (s.hc.trie.walk bb.bits))) (s.hc.trie.walk bb.bits).length 0 := by
  rw [execHcDecode, withObs_of_lt ha hb, if_neg (by simp [hready]), if_neg (by simp [hlen, hrange]), h]
  exact if_neg (by omega)

end decode

/-- The bits of a range inside a buffer: eight of each octet. -/
theorem State.range_bits_length (h : start + len ≤ s.obLen a) :
    ((s.range a start len).flatMap octetBits).length = 8 * len := by
  rw [flatMap_octetBits_length, State.range, readRange_length h]

/-- Settles O51: the input fits the cleared, hence empty, BitBuffer or not, and the walk's output fits the destination or not. -/
theorem huffmanDecodeWritesTheWalkOfTheRange : Obligations.HuffmanDecodeWritesTheWalkOfTheRange := by
  intro s a b start len dest hc h ha hb inp bits out empty run
  have hclear : s.bb.clear = empty := BitBuffer.clear_eq h
  have hempty : empty.Inv s.cfg := hclear ▸ BitBuffer.clear_inv h
  refine ⟨execHcDecode_not_ready ha hb, execHcDecode_bad_length ha hb, fun hready hlen hrange hroom => ?_,
    fun hready hlen hrange hroom => ?_⟩
  all_goals have hbits : bits.length = 8 * len := State.range_bits_length hrange
  all_goals rw [← hbits] at hroom
  · obtain ⟨bb, n, hn, e, hA, hfull, hphys, _⟩ := BitBuffer.appendAll_no_room hc hempty hroom
    rw [← hclear] at e
    exact ⟨bb, n, hbits ▸ hn, execHcDecode_no_room ha hb hready hlen hrange e, hA, hfull, hphys⟩
  · obtain ⟨bb, e, hA, _⟩ := BitBuffer.appendAll_room hc hempty hroom
    rw [← hclear] at e
    have hout : s.hc.trie.walk bb.bits = out := congrArg s.hc.trie.walk hA.bits_eq
    refine ⟨bb, hA, fun hsmall => ?_, fun hfits => ⟨writeRun (s.ob b) dest out, ?_, writeRun_writtenAt hfits⟩⟩
    · exact execHcDecode_exhausted ha hb hready hlen hrange e (hout ▸ hsmall)
    · exact hout ▸ execHcDecode_fits ha hb hready hlen hrange e (hout ▸ hfits)

end Sys2Proof.Machine
end

section
/-! PROOFS. The OctetBuffer commands (`41_octetbuffer.md` R140 to R147): one lemma per way a command on existing buffers can end, and
the commands that change a length. -/

namespace Sys2Proof.Machine

variable {s t : State} {a b : ObSel}

/-! ## What a write does to the lengths (R140) -/

theorem State.obLen_of_obs_eq (h : t.obs = s.obs) : t.obLen b = s.obLen b := by
  simp only [State.obLen, State.ob, h]

theorem State.setOb_obLen_other {d : OctetBuffer} (h : a ≠ b) : (s.setOb a d).obLen b = s.obLen b :=
  congrArg List.length (State.setOb_ob_other s a b d h)

/-- Writing a buffer in place, with as many octets as it had, changes no length. -/
theorem State.setOb_obLen_of_length {d : OctetBuffer} (hd : d.length = s.obLen a) : (s.setOb a d).obLen b = s.obLen b := by
  by_cases hab : a = b
  · subst hab
    by_cases ha : a.toNat < s.obs.length
    · rw [State.obLen, State.setOb_ob_self s a d (State.hasOb_iff.2 ha), hd]
    · rw [State.setOb, List.set_eq_of_length_le (Nat.not_lt.1 ha)]
  · exact State.setOb_obLen_other hab

/-- Running out of room spoils octets of the target and keeps every length (R164). -/
theorem spoilTail_obLen : (spoilTail a s).obLen b = s.obLen b :=
  State.setOb_obLen_of_length (spoilTail_length _ _ _)

/-- Settles O21: the three commands leave every other buffer, four commands write octets in place, and the rest write none. -/
theorem octetBufferLengthsChangeOnlyByThreeCommands : Obligations.OctetBufferLengthsChangeOnlyByThreeCommands := by
  intro i s t b e hinit hload hcopy
  cases i with
  | obInit a n =>
    rcases execObInit_next e with ⟨_, _, rfl⟩ | ⟨_, rfl, _⟩
    · exact State.setOb_obLen_other fun hab => hinit n (hab ▸ rfl)
    · rfl
  | obSet a v n =>
    rcases execObSet_next e with ⟨_, _, rfl⟩ | ⟨_, rfl⟩ | rfl
    · exact State.setOb_obLen_of_length List.length_set
    · rfl
    · rfl
  | obLoadBits a =>
    rcases execObLoadBits_next e with ⟨_, _, rfl⟩ | ⟨_, _, rfl⟩ | ⟨_, rfl, _⟩
    · rfl
    · exact State.setOb_obLen_other fun hab => hload (hab ▸ rfl)
    · rfl
  | obCopy a src =>
    rcases execObCopy_next e with ⟨_, _, rfl⟩ | rfl
    · exact State.setOb_obLen_other fun hab => hcopy src (hab ▸ rfl)
    · rfl
  | icEncode a v =>
    rcases execIcEncode_next e with ⟨_, _, _, rfl⟩ | ⟨_, _, _, rfl⟩ | ⟨_, rfl, _⟩
    · exact State.setOb_obLen_of_length (writeRun_length _ _ _)
    · exact spoilTail_obLen
    · rfl
  | hcDecode a c st n d =>
    rcases execHcDecode_next e with ⟨bb, _, _, _, rfl⟩ | ⟨_, _, _, _, rfl, _⟩ | ⟨_, rfl, _⟩
    · exact State.setOb_obLen_of_length (s := s.setBb bb) (writeRun_length _ _ _)
    · rfl
    · rfl
  | htGet a c u =>
    rcases execHtGet_next e with ⟨p, _, _, hac, _, _, _, rfl⟩ | ⟨_, rfl, _⟩
    · have hname : ∀ x, (s.setOb a (writeRun (s.ob a) 0 p.name)).obLen x = s.obLen x := fun _ =>
        State.setOb_obLen_of_length (writeRun_length _ _ _)
      exact (State.setOb_obLen_of_length ((writeRun_length _ _ _).trans (hname c).symm)).trans (hname b)
    · rfl
  | _ => exact State.obLen_of_obs_eq ((exec_familyFrame e).obs (by simp [Instr.opcode, obWriters]))

/-! ## The whole octets of the BitBuffer (R61, R145) -/

/-- Bit `j` of octet `k`, counted from the most significant (R61, R62). -/
theorem BitBuffer.bitRead_octet (bb : BitBuffer) (k : Nat) {j : Nat} (hj : j < 8) :
    bb.bitRead (8 * k + j) = (Memory.read bb.store k).getLsbD (7 - j) := by
  rw [BitBuffer.bitRead, show (8 * k + j) / 8 = k by omega, show (8 * k + j) % 8 = j by omega]

theorem BitBuffer.octets_length (bb : BitBuffer) (n : Nat) : (bb.octets n).length = n := by simp [BitBuffer.octets]

theorem BitBuffer.octets_getElem (bb : BitBuffer) {n k : Nat} (hk : k < (bb.octets n).length) :
    (bb.octets n)[k] = Memory.read bb.store k := by simp [BitBuffer.octets]

/-! ## The commands on a buffer that exists -/

section existing
variable (ha : a.toNat < s.obs.length)
include ha

theorem execObInit_fits {n : Nat} (h : max n s.cfg.obFloor ≤ s.cfg.obPhys) : execObInit a n s =
    ok (s.setOb a (List.replicate (max n s.cfg.obFloor) 0#8)) (max n s.cfg.obFloor) 0 := by
  rw [execObInit, withOb_of_lt ha]
  exact if_neg (Nat.not_lt.2 h)

theorem execObInit_too_large {n : Nat} (h : s.cfg.obPhys < max n s.cfg.obFloor) :
    execObInit a n s = fail s .obCapacity := by
  rw [execObInit, withOb_of_lt ha]
  exact if_pos h

theorem execObSet_in_range {v : Octet} {k : Nat} (h : k < s.obLen a) :
    execObSet a v k s = ok (s.setOb a ((s.ob a).set k v)) 0 0 := by
  rw [execObSet, withOb_of_lt ha, if_pos h]

theorem execObSet_out_of_range {v : Octet} {k : Nat} (h : s.obLen a ≤ k) : execObSet a v k s = ok s 0 0 := by
  rw [execObSet, withOb_of_lt ha, if_neg (Nat.not_lt.2 h)]

theorem execObGet_in_range {v : Octet} {k : Nat} (h : s.octet a k = some v) : execObGet a k s = ok s v.toNat 0 := by
  rw [execObGet, withOb_of_lt ha, h]

theorem execObGet_out_of_range {k : Nat} (h : s.obLen a ≤ k) : execObGet a k s = fail s .obReadRange := by
  have hnone : s.octet a k = none := List.getElem?_eq_none h
  rw [execObGet, withOb_of_lt ha, hnone]

theorem execObLen_eq : execObLen a s = ok s (s.obLen a) 0 := by
  rw [execObLen, withOb_of_lt ha]

theorem execObLoadBits_empty (h : s.bb.len = 0) : execObLoadBits a s = ok s (s.obLen a) 0 := by
  rw [execObLoadBits, withOb_of_lt ha, if_pos h]

theorem execObLoadBits_fits (hne : s.bb.len ≠ 0) (h : s.bb.len / 8 ≤ s.cfg.obPhys) :
    execObLoadBits a s = ok (s.setOb a (s.bb.octets (s.bb.len / 8))) (s.bb.len / 8) 0 := by
  rw [execObLoadBits, withOb_of_lt ha, if_neg hne]
  exact if_neg (Nat.not_lt.2 h)

theorem execObLoadBits_too_large (hne : s.bb.len ≠ 0) (h : s.cfg.obPhys < s.bb.len / 8) :
    execObLoadBits a s = fail s .obCapacity := by
  rw [execObLoadBits, withOb_of_lt ha, if_neg hne]
  exact if_pos h

theorem execObCopy_eq (hb : b.toNat < s.obs.length) : execObCopy a b s = ok (s.setOb a (s.ob b)) (s.obLen b) 0 := by
  rw [execObCopy, withObs_of_lt ha hb]

/-- A buffer written with its own octets: nothing changes. -/
theorem State.setOb_ob_obs : (s.setOb a (s.ob a)).obs = s.obs := by
  rw [State.setOb_obs, State.ob_eq_getElem ha, List.set_getElem_self]

end existing

/-- Settles O37: the BitBuffer is empty, or its whole octets fit the buffer's storage or not. -/
theorem loadBitsTakesTheWholeOctets : Obligations.LoadBitsTakesTheWholeOctets := by
  intro s a ha
  refine ⟨execObLoadBits_empty ha, fun hne h => ⟨_, execObLoadBits_fits ha hne h, ?_, fun k hk j hj => ?_⟩,
    execObLoadBits_too_large ha⟩
  · exact BitBuffer.octets_length _ _
  · rw [BitBuffer.octets_getElem, BitBuffer.bitRead_octet _ _ hj]

/-- Settles O33: the raised capacity is the larger of the capacity and the floor, and fits the buffer's storage or not. -/
theorem initZeroesTheBufferAtTheRaisedCapacity : Obligations.InitZeroesTheBufferAtTheRaisedCapacity := by
  intro s a capacity ha len
  have hlen : max capacity s.cfg.obFloor = len := max_def_lt _ _
  exact ⟨fun h => hlen ▸ execObInit_fits ha (hlen ▸ h), fun h => execObInit_too_large ha (hlen ▸ h)⟩

/-- Settles O34: in range the write is a run of one octet. -/
theorem setWritesInRangeAndDropsOutOfRange : Obligations.SetWritesInRangeAndDropsOutOfRange := by
  intro s a v index ha
  refine ⟨fun h => ⟨writeRun (s.ob a) index [v], execObSet_in_range ha h, writeRun_writtenAt h⟩, execObSet_out_of_range ha⟩

/-- Settles O35: the index has an octet or not. -/
theorem getReadsInRangeAndFaultsOutOfRange : Obligations.GetReadsInRangeAndFaultsOutOfRange :=
  fun _ _ _ ha => ⟨fun _ => execObGet_in_range ha, execObGet_out_of_range ha⟩

/-- Settles O36: the check of the buffer passes. -/
theorem obLenReportsTheLength : Obligations.ObLenReportsTheLength := fun _ _ => execObLen_eq

/-- Settles O38: the destination holds what was written, every other buffer what it held. -/
theorem copyGivesTheDestinationTheSourcesOctets : Obligations.CopyGivesTheDestinationTheSourcesOctets := by
  intro s a b ha hb
  refine ⟨_, execObCopy_eq ha hb, rfl, ?_, fun x hx => ?_, ?_⟩
  · exact State.setOb_ob_self s a _ (State.hasOb_iff.2 ha)
  · exact State.setOb_ob_other s a x _ hx.symm
  · rintro rfl
    exact State.setOb_ob_obs ha

end Sys2Proof.Machine
end

section
/-! PROOFS. The IntegerCodec (`42_integercodec.md` R160 to R171): what the encoder writes, how a reading that has got past some
octets ends, one lemma per way a command on an existing buffer can end, and the round trip. -/

namespace Sys2Proof.Machine

variable {s : State} {a : ObSel} {v n o maxv : Nat} {d : OctetBuffer} {b0 last : Octet} {body : List Octet}

/-! ## What the encoder writes (R162, R171) -/

theorem intSeq_of_lt_mask (h : v < 2 ^ n - 1) : intSeq v n = [BitVec.ofNat 8 v] := if_pos h

/-- The form with continuation octets, as many as the remainder needs. -/
theorem intSeq_of_mask_le (h : 2 ^ n - 1 ≤ v) : ∃ body last,
    intSeq v n = BitVec.ofNat 8 (2 ^ n - 1) :: (body ++ [last]) ∧ (∀ b ∈ body, b.getLsbD 7 = true) ∧
    last.getLsbD 7 = false ∧ v = 2 ^ n - 1 + groupSum (body ++ [last]) ∧ (last = 0#8 → body = []) ∧
    body.length = Nat.log 128 (v - (2 ^ n - 1)) := by
  obtain ⟨body, last, hseq, hmore, hlast, hsum, hzero, hlen⟩ :=
    contOctets_spec (v - (2 ^ n - 1)) (v - (2 ^ n - 1)) le_rfl
  refine ⟨body, last, ?_, hmore, hlast, by omega, hzero, hlen⟩
  rw [← hseq]
  exact if_neg (Nat.not_lt.2 h)

/-- Settles O42: the value is below the mask or not. -/
theorem intSeqIsTheShortestRepresentation : Obligations.IntSeqIsTheShortestRepresentation := by
  intro v n _ _
  refine ⟨intSeq_of_lt_mask, fun h => ?_⟩
  obtain ⟨body, last, hseq, hmore, hlast, hsum, hzero, hlen⟩ := intSeq_of_mask_le h
  have hcount : (intSeq v n).length = 2 + Nat.log 128 (v - (2 ^ n - 1)) := by
    rw [hseq, ← hlen, List.length_cons, List.length_append, List.length_singleton]
    omega
  refine ⟨body, last, hseq, hmore, hlast, hsum, hzero, fun hv => ?_, fun _ => hcount⟩
  rw [hcount, hv, Nat.sub_self, Nat.log_zero_right]

/-! ## How a reading ends (R163) -/

theorem groupSum_concat (body : List Octet) (b : Octet) :
    groupSum (body ++ [b]) = groupSum body + b.toNat % 128 * 128 ^ body.length := by
  rw [groupSum_append, groupSum_singleton, Nat.mul_comm]

theorem intParse_truncated (h : d.length ≤ o) : intParse maxv d o n = .error .intTruncated := by
  rw [intParse, List.getElem?_eq_none h]

section continues
variable (h : Continues maxv d o n b0 body)
include h

theorem Continues.parse_tooLong (hlen : body.length = 7) : intParse maxv d o n = .error .intTooLong := by
  rw [h.parse, hlen]
  exact parseCont_tooLong

variable (hlen : body.length ≤ 6)
include hlen

/-- Another octet may be read: at most six of the seven continuation octets are behind. -/
theorem Continues.parse_next : intParse maxv d o n =
    parseCont maxv d (6 - body.length + 1) (o + 1 + body.length) (128 ^ body.length) (2 ^ n - 1 + groupSum body) := by
  rw [h.parse, show 7 - body.length = 6 - body.length + 1 by omega]

theorem Continues.parse_truncated (hend : d.length ≤ o + 1 + body.length) :
    intParse maxv d o n = .error .intTruncated := by
  rw [h.parse_next hlen, parseCont_truncated hend]

theorem Continues.parse_overflow {b : Octet} (hd : d[o + 1 + body.length]? = some b)
    (hbig : maxv < 128 ^ body.length ∨ maxv < 2 ^ n - 1 + groupSum (body ++ [b])) :
    intParse maxv d o n = .error .intOverflow := by
  rw [groupSum_concat, ← Nat.add_assoc] at hbig
  rw [h.parse_next hlen, parseCont_overflow hd hbig]

theorem Continues.parse_last (hd : d[o + 1 + body.length]? = some last) (hlast : last.getLsbD 7 = false)
    (hmul : 128 ^ body.length ≤ maxv) (hsum : 2 ^ n - 1 + groupSum (body ++ [last]) ≤ maxv) :
    intParse maxv d o n = .ok (2 ^ n - 1 + groupSum (body ++ [last]), o + 2 + body.length) := by
  rw [groupSum_concat, ← Nat.add_assoc] at hsum ⊢
  rw [h.parse_next hlen, parseCont_last hd hlast hmul hsum, show o + 1 + body.length + 1 = o + 2 + body.length by omega]

end continues

/-! ## Reading back what the encoder wrote (R169) -/

theorem WrittenAt.standsAt {seq : List Octet} {d' : OctetBuffer} (h : WrittenAt d o seq d')
    (hfit : o + seq.length ≤ d.length) : StandsAt d' o seq :=
  ⟨h.length_eq ▸ hfit, h.inside⟩

/-- A reading gets past the first octets of a representation that fits a word. -/
theorem StandsAt.continues {rest : List Octet} (h : StandsAt d o (b0 :: (body ++ rest)))
    (hmask : b0.toNat % 2 ^ n = 2 ^ n - 1) (hmore : ∀ b ∈ body, b.getLsbD 7 = true) (hshort : body.length ≤ 7)
    (hmul : 128 ^ body.length ≤ maxv) (hsum : 2 ^ n - 1 + groupSum (body ++ rest) ≤ maxv) :
    Continues maxv d o n b0 body where
  stands := by
    obtain ⟨hfit, hget⟩ := h
    rw [← List.cons_append] at hfit hget
    rw [List.length_append] at hfit hget
    refine ⟨by omega, fun j hj => ?_⟩
    rw [hget j (by omega), List.getElem?_append_left hj]
  mask := hmask
  more := hmore
  short := hshort
  mult _ hk := (Nat.pow_le_pow_right (by decide) hk.le).trans hmul
  sum := by
    rw [groupSum_append] at hsum
    omega

/-- A value of at most `n` bits in the low bits of an octet. -/
theorem toNat_ofNat_mod_two_pow (hn : n ≤ 8) (hv : v < 2 ^ n) : (BitVec.ofNat 8 v).toNat % 2 ^ n = v := by
  have h8 : 2 ^ n ≤ 2 ^ 8 := Nat.pow_le_pow_right (by decide) hn
  rw [BitVec.toNat_ofNat, Nat.mod_eq_of_lt (hv.trans_le h8), Nat.mod_eq_of_lt hv]

theorem ofNat_mask_mod (hn : n ≤ 8) : (BitVec.ofNat 8 (2 ^ n - 1)).toNat % 2 ^ n = 2 ^ n - 1 :=
  toNat_ofNat_mod_two_pow hn (Nat.sub_lt (Nat.two_pow_pos n) Nat.one_pos)

section readBack
variable (hst : StandsAt d o (intSeq v n)) (hn : n ≤ 8) (hv : v ≤ maxv)
include hst hn hv

/-- Below mask + 2^49 the representation has at most seven continuation octets, and reading it gives the value back. -/
theorem intParse_intSeq (h1 : 1 ≤ n) (hlim : v < 2 ^ n - 1 + 2 ^ 49) :
    intParse maxv d o n = .ok (v, o + (intSeq v n).length) := by
  rcases Nat.lt_or_ge v (2 ^ n - 1) with h | h
  · have hmod : (BitVec.ofNat 8 v).toNat % 2 ^ n = v := toNat_ofNat_mod_two_pow hn (by omega)
    rw [intSeq_of_lt_mask h] at hst ⊢
    have hd : d[o]? = some (BitVec.ofNat 8 v) := hst.2 0 Nat.one_pos
    rw [intParse_short hd (hmod.symm ▸ h), hmod, List.length_singleton]
  · obtain ⟨body, last, hseq, hmore, hlast, hsum, -, hlen⟩ := intSeq_of_mask_le h
    have hshort : body.length < 7 := hlen ▸ Nat.log_lt_of_lt_pow' (by decide) (by omega)
    have hmask : 2 ^ 1 ≤ 2 ^ n := Nat.pow_le_pow_right (by decide) h1
    have hmul : 128 ^ body.length ≤ maxv := by
      rcases Nat.eq_zero_or_pos (v - (2 ^ n - 1)) with hr | hr
      · rw [hlen, hr, Nat.log_zero_right]
        omega
      · have := Nat.pow_log_le_self 128 hr.ne'
        rw [hlen]
        omega
    rw [hseq] at hst ⊢
    have hd : d[o + 1 + body.length]? = some last := by
      have := hst.2 (body.length + 1) (by simp)
      rwa [List.getElem?_cons_succ, List.getElem?_concat_length, show o + (body.length + 1) = o + 1 + body.length by omega]
        at this
    have hcont : Continues maxv d o n (BitVec.ofNat 8 (2 ^ n - 1)) body :=
      hst.continues (ofNat_mask_mod hn) hmore (by omega) hmul (hsum ▸ hv)
    rw [hcont.parse_last (by omega) hd hlast hmul (hsum ▸ hv), ← hsum, List.length_cons, List.length_append,
      List.length_singleton, show o + 2 + body.length = o + (body.length + 1 + 1) by omega]

/-- From mask + 2^49 on at least seven of the continuation octets say that another follows. -/
theorem intParse_intSeq_tooLong (hlim : 2 ^ n - 1 + 2 ^ 49 ≤ v) : intParse maxv d o n = .error .intTooLong := by
  obtain ⟨body, last, hseq, hmore, hlast, hsum, -, hlen⟩ := intSeq_of_mask_le (v := v) (n := n) (by omega)
  have hlong : 7 ≤ body.length := hlen ▸ Nat.le_log_of_pow_le (by decide) (by omega)
  have htake : (body.take 7).length = 7 := List.length_take_of_le hlong
  have hsplit : body ++ [last] = body.take 7 ++ (body.drop 7 ++ [last]) := by
    rw [← List.append_assoc, List.take_append_drop]
  rw [hseq, hsplit] at hst
  rw [hsplit] at hsum
  have hcont : Continues maxv d o n (BitVec.ofNat 8 (2 ^ n - 1)) (body.take 7) :=
    hst.continues (ofNat_mask_mod hn) (fun b hb => hmore b (List.mem_of_mem_take hb)) htake.le
      (by rw [htake]; omega) (hsum ▸ hv)
  exact hcont.parse_tooLong htake

end readBack

/-! ## The commands on a buffer that exists -/

theorem execIcSetPrefix_of_le {w : Octet} (h : w.toNat ≤ 8) :
    execIcSetPrefix w s = ok (s.setIc { s.ic with width := w.toNat }) 0 0 := if_neg (Nat.not_lt.2 h)

theorem execIcSetPrefix_of_gt {w : Octet} (h : 8 < w.toNat) : execIcSetPrefix w s = fail s .badPrefix := if_pos h

/-- The state after an IC.ENCODE that fits its target (R164). -/
def State.encoded (s : State) (a : ObSel) (v : Nat) : State :=
  ((s.setOb a (writeRun (s.ob a) s.ic.offset (intSeq v s.ic.width))).setIc
    { s.ic with offset := s.ic.offset + (intSeq v s.ic.width).length }).done
    (s.ic.offset + (intSeq v s.ic.width).length) (intSeq v s.ic.width).length

section existing
variable (ha : a.toNat < s.obs.length)
include ha

theorem execIcEncode_unset (h : s.ic.width = 0) : execIcEncode a v s = fail s .badPrefix := by
  rw [execIcEncode, withOb_of_lt ha, if_pos h]

theorem execIcDecode_unset (h : s.ic.width = 0) : execIcDecode a s = fail s .badPrefix := by
  rw [execIcDecode, withOb_of_lt ha, if_pos h]

variable (hw : s.ic.width ≠ 0)
include hw

theorem execIcEncode_fits (h : s.ic.offset + (intSeq v s.ic.width).length ≤ s.obLen a) :
    execIcEncode a v s = .next (s.encoded a v) := by
  rw [execIcEncode, withOb_of_lt ha, if_neg hw]
  exact if_neg (Nat.not_lt.2 h)

theorem execIcEncode_exhausted (h : s.obLen a < s.ic.offset + (intSeq v s.ic.width).length) :
    execIcEncode a v s = fail (spoilTail a s) .intDestExhausted := by
  rw [execIcEncode, withOb_of_lt ha, if_neg hw]
  exact if_pos h

theorem execIcDecode_of_parse_ok {next : Nat}
    (h : intParse s.cfg.maxWord (s.ob a) s.ic.offset s.ic.width = .ok (v, next)) :
    execIcDecode a s = ok (s.setIc { s.ic with offset := next }) v next := by
  rw [execIcDecode, withOb_of_lt ha, if_neg hw, h]

theorem execIcDecode_of_parse_error {c : Cause}
    (h : intParse s.cfg.maxWord (s.ob a) s.ic.offset s.ic.width = .error c) : execIcDecode a s = fail s c := by
  rw [execIcDecode, withOb_of_lt ha, if_neg hw, h]

end existing

theorem State.encoded_obs_length : (s.encoded a v).obs.length = s.obs.length := List.length_set

/-- The representation stands in the target, where the cursor was. -/
theorem State.encoded_standsAt (ha : a.toNat < s.obs.length)
    (hfit : s.ic.offset + (intSeq v s.ic.width).length ≤ s.obLen a) :
    StandsAt ((s.encoded a v).ob a) s.ic.offset (intSeq v s.ic.width) := by
  have hob : (s.encoded a v).ob a = writeRun (s.ob a) s.ic.offset (intSeq v s.ic.width) :=
    State.setOb_ob_self s a _ (State.hasOb_iff.2 ha)
  rw [hob]
  exact (writeRun_writtenAt hfit).standsAt hfit

/-- A spoiled tail leaves the octets before it (R164). -/
theorem spoilTail_getElem?_of_lt (d : OctetBuffer) (ctr m : Nat) {k : Nat} (hk : k < o) (hlen : k < d.length) :
    (d.take o ++ freeRun ctr m)[k]? = d[k]? := by
  rw [List.getElem?_append_left (by rw [List.length_take]; omega), List.getElem?_take_of_lt hk]

/-- Settles O39: the width is at most 8 or not. -/
theorem setPrefixAcceptsZeroToEight : Obligations.SetPrefixAcceptsZeroToEight :=
  fun _ _ => ⟨execIcSetPrefix_of_le, execIcSetPrefix_of_gt⟩

/-- Settles O40: the command makes no check. -/
theorem setOffsetAcceptsAnyValue : Obligations.SetOffsetAcceptsAnyValue := fun _ _ => ok_eq _ _ _

/-- Settles O41: the reset leaves width 0, which both commands refuse. -/
theorem icResetUnsetsThePrefix : Obligations.IcResetUnsetsThePrefix := by
  intro s
  exact ⟨_, rfl, rfl, fun a v ha => ⟨execIcEncode_unset ha rfl, execIcDecode_unset ha rfl⟩⟩

/-- Settles O43: the width is not set, or the representation fits the target or not. -/
theorem encodeWritesTheWholeIntegerOrFaults : Obligations.EncodeWritesTheWholeIntegerOrFaults := by
  intro s a v ha seq o
  refine ⟨execIcEncode_unset ha, fun hw h => ⟨_, execIcEncode_fits ha hw h, writeRun_writtenAt h⟩,
    fun hw h => ⟨_, _, execIcEncode_exhausted ha hw h, spoilTail_length _ _ _, fun k hk => ?_⟩⟩
  rcases Nat.lt_or_ge k (s.ob a).length with hlen | hlen
  · exact spoilTail_getElem?_of_lt _ _ _ hk hlen
  · rw [State.octet, List.getElem?_eq_none hlen, List.getElem?_eq_none ((spoilTail_length _ _ _).trans_le hlen)]

/-- Settles O44: each form is a reading that ends well. -/
theorem decodeAcceptsTheRepresentations : Obligations.DecodeAcceptsTheRepresentations := by
  intro s a _ ha h1 _ o n
  have hw : s.ic.width ≠ 0 := Nat.pos_iff_ne_zero.1 h1
  refine ⟨fun b0 hd h => ?_, fun b0 body last hcont hlen hd hlast hmul hsum => ?_⟩
  · exact execIcDecode_of_parse_ok ha hw (intParse_short hd h)
  · exact execIcDecode_of_parse_ok ha hw (hcont.parse_last hlen hd hlast hmul hsum)

/-- Settles O45: the width is not set, or the reading ends in one of its faults. -/
theorem decodeFaultsInTheOrderOfTheRule : Obligations.DecodeFaultsInTheOrderOfTheRule := by
  intro s a _ ha o n
  refine ⟨execIcDecode_unset ha, fun h1 _ h => ?_, fun h1 _ b0 body hcont => ?_⟩
  all_goals have hw : s.ic.width ≠ 0 := Nat.pos_iff_ne_zero.1 h1
  · exact execIcDecode_of_parse_error ha hw (intParse_truncated h)
  · refine ⟨fun hlen => ?_, fun hlen hend => ?_, fun b hlen hd hbig => ?_⟩
    · exact execIcDecode_of_parse_error ha hw (hcont.parse_tooLong hlen)
    · exact execIcDecode_of_parse_error ha hw (hcont.parse_truncated hlen hend)
    · exact execIcDecode_of_parse_error ha hw (hcont.parse_overflow hlen hd hbig)

/-- Settles O46: the representation stands in the target, where it reads back below mask + 2^49 and is too long from there on. -/
theorem integerRoundTrip : Obligations.IntegerRoundTrip := by
  intro s a v _ ha h1 h8 hv hfit
  have hw : s.ic.width ≠ 0 := Nat.pos_iff_ne_zero.1 h1
  have hmax : v ≤ s.cfg.maxWord := Nat.le_sub_one_of_lt hv
  have hst := State.encoded_standsAt ha hfit
  have hcount : a.toNat < (((s.encoded a v).setIc s.ic).done 0 0).obs.length :=
    State.encoded_obs_length.symm ▸ ha
  refine ⟨s.encoded a v, _, execIcEncode_fits ha hw hfit, rfl, rfl, fun h => ?_, fun _ h => ?_⟩
  · have hlim : v < 2 ^ s.ic.width - 1 + 2 ^ 49 := by
      rcases h with h | h
      · exact (hv.trans_le (Nat.pow_le_pow_right (by decide) h)).trans_le (Nat.le_add_left _ _)
      · exact h
    exact execIcDecode_of_parse_ok hcount hw (intParse_intSeq hst h8 hmax h1 hlim)
  · exact execIcDecode_of_parse_error hcount hw (intParse_intSeq_tooLong hst h8 hmax h)

end Sys2Proof.Machine
end

section
/-! PROOFS. The Huffman round trip (`43_huffmancodec.md` R191 to R199): the walk of the ROM's trie over a padded encoding, one lemma
per way HC.ENCODE can end, what the three commands of the round trip leave when they complete, and the round trip itself. -/

namespace Sys2Proof.Machine

variable {s t : State} {a b d : ObSel} {start len dest : Nat} {bb bb' : BitBuffer} {c : Config}

/-! ## The walk over a padded encoding (R199) -/

theorem rom_leadsTo_octet (x : Octet) :
    (buildTrie codeRom 513).trie.leadsTo x (codeBits (codeOf codeRom x.toNat)) = true := by
  have hx := List.all_eq_true.1 rom_leadsTo x.toNat (List.mem_range.2 x.isLt)
  rwa [BitVec.ofNat_toNat, BitVec.setWidth_eq] at hx

theorem rom_staysInside_ones {k : Nat} (hk : k < 8) :
    (buildTrie codeRom 513).trie.staysInside (List.replicate k true) = true :=
  List.all_eq_true.1 rom_staysInside k (List.mem_range.2 hk)

theorem rom_walk_huffPadded (str : Str) : (buildTrie codeRom 513).trie.walk (huffPadded codeRom str) = str := by
  obtain ⟨_, _, _, hleaf⟩ := rom_build
  exact Trie.walk_huffPadded hleaf rom_leadsTo_octet (fun _ => rom_staysInside_ones) str

/-- Settles O49: a larger arena builds the trie of 513 slots, whose walk inverts the padded encoding by induction on the string
(`walkFrom_huffBits`); the padding ends inside a code. -/
theorem huffmanWalkInvertsThePaddedEncoding : Obligations.HuffmanWalkInvertsThePaddedEncoding := by
  intro slots str h
  rw [buildTrie_of_enough h]
  exact ⟨rom_walk_huffPadded str, huffPadded_length_dvd codeRom str⟩

/-- Only the empty string has an empty encoding. -/
theorem huffPadded_ne_nil {str : Str} (h : str ≠ []) : huffPadded codeRom str ≠ [] := by
  intro hnil
  have hwalk := rom_walk_huffPadded str
  rw [hnil] at hwalk
  exact h (hwalk.symm.trans (rom_walk_huffPadded []))

/-- A state that is ready holds a trie of at least 513 slots, so its walk is the ROM's (R36, R196). -/
theorem State.Inv.walk_huffPadded (h : s.Inv) (hrom : s.cfg.codeRom = codeRom) (hready : s.hc.ready = true) (str : Str) :
    s.hc.trie.walk (huffPadded codeRom str) = str := by
  have hhc : s.hc = buildTrie codeRom s.cfg.trieNodes := hrom ▸ h.hc
  obtain ⟨_, _, _, _, _, _, _, hslots, _⟩ := h.cfg
  rcases Nat.lt_or_ge s.cfg.trieNodes 513 with hfew | henough
  · obtain ⟨hnot, _⟩ := buildTrie_of_few hslots hfew
    simp [hhc, hnot] at hready
  · rw [hhc, buildTrie_of_enough henough, rom_walk_huffPadded]

/-! ## HC.ENCODE on a buffer that exists (R193) -/

section encode
variable (ha : a.toNat < s.obs.length)
include ha

theorem execHcEncode_too_long (h : s.cfg.huffMaxIn < len) : execHcEncode a start len s = fail s .huffTooLong := by
  rw [execHcEncode, withOb_of_lt ha, if_pos h]

variable (hlen : len ≤ s.cfg.huffMaxIn)
include hlen

theorem execHcEncode_bad_range (h : s.obLen a < start + len) : execHcEncode a start len s = fail s .obReadRange := by
  rw [execHcEncode, withOb_of_lt ha, if_neg (Nat.not_lt.2 hlen), if_pos (Nat.not_le.2 h)]

variable (hrange : start + len ≤ s.obLen a)
include hrange

theorem execHcEncode_fits
    (h : s.bb.appendAll s.cfg.bbPhysBits (huffPadded s.cfg.codeRom (s.range a start len)) = (bb, true)) :
    execHcEncode a start len s = ok (s.setBb bb) (huffPadded s.cfg.codeRom (s.range a start len)).length 0 := by
  rw [execHcEncode, withOb_of_lt ha, if_neg (Nat.not_lt.2 hlen), if_neg (not_not.2 hrange)]
  simp only [h]

theorem execHcEncode_no_room
    (h : s.bb.appendAll s.cfg.bbPhysBits (huffPadded s.cfg.codeRom (s.range a start len)) = (bb, false)) :
    execHcEncode a start len s = fail (s.setBb bb) .allocFail := by
  rw [execHcEncode, withOb_of_lt ha, if_neg (Nat.not_lt.2 hlen), if_neg (not_not.2 hrange)]
  simp only [h]

end encode

/-- Settles O50: the length, the range and the room are checked in this order. -/
theorem huffmanEncodeAppendsThePaddedCode : Obligations.HuffmanEncodeAppendsThePaddedCode := by
  intro s a start len hc h ha bits
  refine ⟨execHcEncode_too_long ha, execHcEncode_bad_range ha, fun hlen hrange hroom => ?_, fun hlen hrange hroom => ?_⟩
  · obtain ⟨bb, e, hA, _⟩ := BitBuffer.appendAll_room hc h hroom
    exact ⟨bb, execHcEncode_fits ha hlen hrange e, hA⟩
  · obtain ⟨bb, n, hn, e, hA, hfull, hphys, _⟩ := BitBuffer.appendAll_no_room hc h hroom
    exact ⟨bb, n, hn, execHcEncode_no_room ha hlen hrange e, hA, hfull, hphys⟩

/-! ## What a command that completed has done -/

/-- A fault never leaves OK in RC (R282). -/
theorem fail_next_rc {k : Cause} (h : fail s k = .next t) : t.rc ≠ 0 := fail_next h ▸ k.rc_ne_ok

theorem BitBuffer.appendAll_appended (hc : c.Valid) (h : bb.Inv c) {bits : List Bool}
    (e : bb.appendAll c.bbPhysBits bits = (bb', true)) : bb.Appended c bits bb' := by
  obtain ⟨n, _, hA, hall, _⟩ := BitBuffer.appendAll_spec hc h bits
  rw [e] at hA hall
  obtain rfl := hall rfl
  rwa [List.take_length] at hA

theorem execHcEncode_completed (ha : a.toNat < s.obs.length) (e : execHcEncode a start len s = .next t) (hrc : t.rc = 0) :
    start + len ≤ s.obLen a ∧
      ∃ bb, s.bb.appendAll s.cfg.bbPhysBits (huffPadded s.cfg.codeRom (s.range a start len)) = (bb, true) ∧
        t = (s.setBb bb).done (huffPadded s.cfg.codeRom (s.range a start len)).length 0 := by
  rcases Nat.lt_or_ge s.cfg.huffMaxIn len with hlong | hlen
  · exact absurd hrc (fail_next_rc ((execHcEncode_too_long ha hlong).symm.trans e))
  rcases Nat.lt_or_ge (s.obLen a) (start + len) with hout | hrange
  · exact absurd hrc (fail_next_rc ((execHcEncode_bad_range ha hlen hout).symm.trans e))
  rcases happ : s.bb.appendAll s.cfg.bbPhysBits (huffPadded s.cfg.codeRom (s.range a start len)) with ⟨bb, _ | _⟩
  · exact absurd hrc (fail_next_rc ((execHcEncode_no_room ha hlen hrange happ).symm.trans e))
  · exact ⟨hrange, bb, rfl, ok_next ((execHcEncode_fits ha hlen hrange happ).symm.trans e)⟩

/-- Into an empty BitBuffer: it then holds the padded code and nothing else, and R0 is its length. -/
theorem execHcEncode_completed_of_empty (hc : s.cfg.Valid) (h : s.bb.Inv s.cfg) (hempty : s.bb.len = 0)
    (ha : a.toNat < s.obs.length) (e : execHcEncode a start len s = .next t) (hrc : t.rc = 0) :
    start + len ≤ s.obLen a ∧ ∃ bb, bb.bits = huffPadded s.cfg.codeRom (s.range a start len) ∧
      t = (s.setBb bb).done bb.len 0 := by
  obtain ⟨hrange, bb, happ, rfl⟩ := execHcEncode_completed ha e hrc
  have hA := BitBuffer.appendAll_appended hc h happ
  have hbits : bb.bits = huffPadded s.cfg.codeRom (s.range a start len) := by
    rw [hA.bits_eq, List.eq_nil_of_length_eq_zero ((BitBuffer.bits_length _).trans hempty), List.nil_append]
  exact ⟨hrange, bb, hbits, by rw [← hbits, BitBuffer.bits_length]⟩

/-- The state after an OB.LOADBITS of a BitBuffer that is not empty (R145). -/
def State.loaded (s : State) (b : ObSel) : State := (s.setOb b (s.bb.octets (s.bb.len / 8))).done (s.bb.len / 8) 0

theorem State.loaded_obs_length : (s.loaded b).obs.length = s.obs.length := List.length_set

theorem State.loaded_ob (hb : b.toNat < s.obs.length) : (s.loaded b).ob b = s.bb.octets (s.bb.len / 8) :=
  State.setOb_ob_self s b _ (State.hasOb_iff.2 hb)

theorem execObLoadBits_completed (hne : s.bb.len ≠ 0) (e : execObLoadBits b s = .next t) (hrc : t.rc = 0) :
    t = s.loaded b := by
  rcases execObLoadBits_next e with ⟨_, hempty, _⟩ | ⟨_, _, ht⟩ | ⟨k, rfl, _⟩
  · exact absurd hempty hne
  · exact ht
  · exact absurd hrc k.rc_ne_ok

/-! ## HC.DECODE of the octets of the BitBuffer itself -/

/-- A BitBuffer of whole octets is the bits of those octets (R61, R145). -/
theorem BitBuffer.octets_bits_of_dvd (h : 8 ∣ bb.len) : (bb.octets (bb.len / 8)).flatMap octetBits = bb.bits := by
  rw [BitBuffer.octets_bits, Nat.mul_div_cancel' h]
  rfl

/-- What a BitBuffer held fits it again after a clear, without growth (R121, R127). -/
theorem BitBuffer.clear_appendAll_bits (hc : c.Valid) (h : bb.Inv c) :
    ∃ bb', bb.clear.appendAll c.bbPhysBits bb.bits = (bb', true) ∧ bb'.bits = bb.bits := by
  have hroom : bb.clear.HasRoom c.bbPhysBits bb.bits.length :=
    ⟨0, by simpa using h.cap_le, by simpa [BitBuffer.bits_length] using h.len_le⟩
  obtain ⟨bb', e, hA, _⟩ := BitBuffer.appendAll_room hc (BitBuffer.clear_inv h) hroom
  exact ⟨bb', e, by rw [hA.bits_eq, BitBuffer.clear_bits, List.nil_append]⟩

theorem State.loaded_range_bits (hb : b.toNat < s.obs.length) (hwhole : 8 ∣ s.bb.len) :
    ((s.loaded b).range b 0 (s.bb.len / 8)).flatMap octetBits = s.bb.bits := by
  rw [State.range, State.loaded_ob hb, readRange, List.drop_zero, List.take_of_length_le (BitBuffer.octets_length _ _).le,
    BitBuffer.octets_bits_of_dvd hwhole]

/-- Reading back a run of octets just written. -/
theorem WrittenAt.readRange_eq {x y : OctetBuffer} {o : Nat} {seq : List Octet} (h : WrittenAt x o seq y) :
    readRange y o seq.length = seq := by
  refine List.ext_getElem? fun j => ?_
  rw [readRange, List.getElem?_take, List.getElem?_drop]
  split
  · exact h.inside j ‹_›
  · exact (List.getElem?_eq_none (by omega)).symm

/-- HC.DECODE of a buffer that OB.LOADBITS filled completes with the walk over the bits the BitBuffer already holds standing in
the destination, when it fits there (R198). -/
theorem execHcDecode_of_loaded (hc : s.cfg.Valid) (h : s.bb.Inv s.cfg) (hb : b.toNat < s.obs.length)
    (hd : d.toNat < s.obs.length) (hready : s.hc.ready = true) (hwhole : 8 ∣ s.bb.len) (hne : s.bb.len ≠ 0)
    (hfit : dest + (s.hc.trie.walk s.bb.bits).length ≤ (s.loaded b).obLen d) :
    ∃ t, execHcDecode b d 0 (s.bb.len / 8) dest (s.loaded b) = .next t ∧ t.rc = 0 ∧
      t.r0 = (s.hc.trie.walk s.bb.bits).length ∧ t.range d dest t.r0 = s.hc.trie.walk s.bb.bits := by
  have hrange : 0 + s.bb.len / 8 ≤ (s.loaded b).obLen b := by
    rw [State.obLen, State.loaded_ob hb, BitBuffer.octets_length, Nat.zero_add]
  obtain ⟨bb, e, hbits⟩ := BitBuffer.clear_appendAll_bits hc h
  rw [← State.loaded_range_bits hb hwhole] at e
  rw [← hbits] at hfit ⊢
  rw [← State.loaded_obs_length (b := b)] at hb hd
  refine ⟨_, execHcDecode_fits hb hd hready (by omega) hrange e hfit, rfl, rfl, ?_⟩
  have hob := State.setOb_ob_self ((s.loaded b).setBb bb) d (writeRun ((s.loaded b).ob d) dest (s.hc.trie.walk bb.bits))
    (State.hasOb_iff.2 hd)
  exact (congrArg (readRange · dest _) hob).trans (writeRun_writtenAt hfit).readRange_eq

/-! ## The round trip through the buffers (R199) -/

/-- Settles O52: the BitBuffer holds the padded code of the range, OB.LOADBITS copies all of it, and HC.DECODE walks over it. -/
theorem huffmanRoundTripThroughTheBuffers : Obligations.HuffmanRoundTripThroughTheBuffers := by
  intro s s1 s2 s3 a b d start len dest h hrom hready ha hb hd hempty hlen e1 hrc1 e2 hrc2 e3 hfit
  have h1 : s1.Inv := h.sound.execHcEncode e1
  obtain ⟨hrange, bb, hbits, rfl⟩ := execHcEncode_completed_of_empty h.cfg h.bb hempty ha e1 hrc1
  rw [hrom] at hbits
  have hstr : (s.range a start len).length = len := readRange_length hrange
  have hwalk : s.hc.trie.walk bb.bits = s.range a start len := hbits ▸ h.walk_huffPadded hrom hready _
  have hwhole : 8 ∣ bb.len := by
    rw [← BitBuffer.bits_length, hbits]
    exact huffPadded_length_dvd _ _
  have hne : bb.len ≠ 0 := by
    rw [← BitBuffer.bits_length, hbits]
    exact mt List.eq_nil_of_length_eq_zero (huffPadded_ne_nil (List.ne_nil_of_length_pos (by omega)))
  obtain rfl := execObLoadBits_completed hne e2 hrc2
  rw [← hstr, ← hwalk] at hfit
  obtain ⟨t, e, hrc, hr0, hread⟩ := execHcDecode_of_loaded h1.cfg h1.bb hb hd hready hwhole hne hfit
  obtain rfl : t = s3 := Host.Outcome.next.inj (e.symm.trans e3)
  have hlen3 : t.r0 = len := hr0.trans ((congrArg List.length hwalk).trans hstr)
  rw [hlen3] at hread
  exact ⟨hwhole, hrc, hlen3, hread.trans hwalk⟩

end Sys2Proof.Machine
end

section
/-! PROOFS. The code ROM of R220 (`44_huffman_code_table.md` R221 to R223; its contents are log entry 6).  That no code begins another
comes from the trie that is built from it: an octet's code leads to that octet's leaf, and EOS's code is the only one of 1 bits alone. -/

namespace Sys2Proof.Machine

variable {m n : Nat}

/-! ## What the ROM's rows say, by evaluation -/

/-- R221: the shortest codes have 5 bits, the longest 30. -/
theorem rom_sizes : codeRom.length = 257 ∧ ∀ e ∈ codeRom, 5 ≤ e.length ∧ e.length ≤ 30 ∧ e.number < 2 ^ e.length := by
  decide +kernel

/-- R222: the code lengths' sum of 2^(-length) is 1, here in units of 2^(-30). -/
theorem rom_complete : (codeRom.map fun e => 2 ^ (30 - e.length)).sum = 2 ^ 30 := by
  decide +kernel

/-- R223: the number of every octet's code is below that of the 1 bits alone. -/
theorem rom_octets_below_ones : ∀ e ∈ codeRom.take 256, e.number + 1 < 2 ^ e.length := by
  decide +kernel

theorem rom_eos : codeOf codeRom 256 = ⟨0x3fffffff, 30⟩ := rfl

theorem codeBits_eos : codeBits (codeOf codeRom 256) = List.replicate 30 true := by
  rw [rom_eos]
  decide

theorem codeOf_rom_mem (hm : m < 256) : codeOf codeRom m ∈ codeRom.take 256 := by
  have hrom : m < codeRom.length := by rw [rom_sizes.1]; omega
  rw [codeOf, List.getD_eq_getElem _ _ hrom]
  exact List.mem_take_iff_getElem.2 ⟨m, lt_min hm hrom, rfl⟩

/-! ## The bits of a code -/

@[simp] theorem codeBits_length (c : HuffCode) : (codeBits c).length = c.length := by
  simp [codeBits]

theorem mem_codeBits {c : HuffCode} {b : Bool} : b ∈ codeBits c ↔ ∃ i < c.length, c.number.testBit i = b := by
  simp [codeBits]

/-- Of the numbers of `l` bits only `2^l - 1` has no 0 bit. -/
theorem false_mem_codeBits {c : HuffCode} (h : c.number + 1 < 2 ^ c.length) : false ∈ codeBits c := by
  by_contra hno
  have hones : c.number = 2 ^ c.length - 1 := by
    refine Nat.eq_of_testBit_eq fun i => ?_
    rw [Nat.testBit_two_pow_sub_one]
    by_cases hi : i < c.length
    · simpa [hi] using fun hbit => hno (mem_codeBits.2 ⟨i, hi, hbit⟩)
    · have hpast : 2 ^ c.length ≤ 2 ^ i := Nat.pow_le_pow_right two_pos (Nat.le_of_not_lt hi)
      simpa [hi] using Nat.testBit_lt_two_pow (show c.number < 2 ^ i by omega)
  omega

/-- R223: the code of every octet holds a 0 bit. -/
theorem rom_octet_has_zero (hm : m < 256) : false ∈ codeBits (codeOf codeRom m) :=
  false_mem_codeBits (rom_octets_below_ones _ (codeOf_rom_mem hm))

/-! ## No code begins another (R222) -/

/-- Two octets whose codes begin alike share a leaf of the trie. -/
theorem octet_eq_of_codeBits_prefix {x y : Octet}
    (h : codeBits (codeOf codeRom x.toNat) <+: codeBits (codeOf codeRom y.toNat)) : x = y :=
  (Trie.leadsTo_prefix _ _ _ (rom_leadsTo_octet x) (rom_leadsTo_octet y) h).2

/-- No octet's code begins EOS's: it holds a 0 bit. -/
theorem octet_not_prefix_eos (x : Octet) : ¬ codeBits (codeOf codeRom x.toNat) <+: codeBits (codeOf codeRom 256) := by
  intro h
  have hzero := h.subset (rom_octet_has_zero x.isLt)
  rw [codeBits_eos] at hzero
  exact Bool.false_ne_true (List.eq_of_mem_replicate hzero)

/-- EOS's code begins no octet's: no code is longer, and one of the same length would be the same code. -/
theorem eos_not_prefix_octet (x : Octet) : ¬ codeBits (codeOf codeRom 256) <+: codeBits (codeOf codeRom x.toNat) := by
  intro h
  obtain ⟨_, hlen, _⟩ := rom_sizes.2 _ (List.mem_of_mem_take (codeOf_rom_mem x.isLt))
  have hsame := h.eq_of_length_le (by rwa [codeBits_length, codeBits_length, rom_eos])
  exact octet_not_prefix_eos x (hsame ▸ List.prefix_rfl)

/-- A symbol is an octet or EOS (R64). -/
theorem symbol_cases (hm : m < 257) : (∃ x : Octet, x.toNat = m) ∨ m = 256 :=
  (Nat.lt_succ_iff_lt_or_eq.1 hm).imp_left fun h => ⟨BitVec.ofNatLT m h, rfl⟩

theorem rom_prefix_free (hm : m < 257) (hn : n < 257)
    (h : codeBits (codeOf codeRom m) <+: codeBits (codeOf codeRom n)) : m = n := by
  obtain ⟨x, rfl⟩ | rfl := symbol_cases hm <;> obtain ⟨y, rfl⟩ | rfl := symbol_cases hn
  · rw [octet_eq_of_codeBits_prefix h]
  · exact absurd h (octet_not_prefix_eos x)
  · exact absurd h (eos_not_prefix_octet y)
  · rfl

/-- Settles O47: the rows of the ROM evaluated, and by the trie no code begins another (`rom_prefix_free`). -/
theorem codeRomIsPrefixFreeAndComplete : Obligations.CodeRomIsPrefixFreeAndComplete :=
  ⟨rom_sizes.1, rom_sizes.2, fun _ _ => rom_prefix_free, rom_complete, rom_eos, fun _ => rom_octet_has_zero⟩

end Sys2Proof.Machine
end

section
/-! PROOFS. HT.PUT, HT.UPDCAP and HT.ISFULL (`45_headertable.md` R234 to R236): how many entries stay after an eviction (R232). -/

namespace Sys2Proof.Machine

variable {s : State} {a b : ObSel} {ns nl vs vl n k : Nat} {p : Pair} {l : List Pair} {t : HeaderTable}

/-! ## How many entries fit -/

theorem newestSize_length (l : List Pair) : newestSize l l.length = (l.map Pair.overhead).sum := by
  rw [newestSize, List.take_length]

theorem newestSize_cons_succ (p : Pair) (l : List Pair) (k : Nat) :
    newestSize (p :: l) (k + 1) = Pair.overhead p + newestSize l k := by
  simp [newestSize]

/-- Whoever keeps an entry keeps the newest. -/
theorem eq_zero_of_newestSize_lt_overhead (h : newestSize (p :: l) k < Pair.overhead p) : k = 0 := by
  cases k with
  | zero => rfl
  | succ k =>
    rw [newestSize_cons_succ] at h
    omega

theorem Pair.overhead_pos (p : Pair) : 0 < Pair.overhead p := by
  rw [Pair.overhead, Config.htEntryOverhead]
  omega

theorem eq_zero_of_newestSize_eq_zero (hk : k ≤ l.length) (h : newestSize l k = 0) : k = 0 := by
  cases l with
  | nil => exact Nat.le_zero.1 hk
  | cons p l => exact eq_zero_of_newestSize_lt_overhead (h.trans_lt (Pair.overhead_pos p))

/-- The fast path of R235 does what the loop of R232 does. -/
theorem evict_eq_emptyTable (hs : t.size = (t.dyn.map Pair.overhead).sum) (hc : t.count = t.dyn.length)
    (h0 : t.capacity = 0) : evict t = emptyTable t := by
  obtain ⟨k, hk, he, hfit, _⟩ := evict_spec t hs hc
  obtain rfl := eq_zero_of_newestSize_eq_zero hk (Nat.le_zero.1 (hfit.trans h0.le))
  exact he

/-! ## The commands -/

section put
variable (ha : a.toNat < s.obs.length) (hb : b.toNat < s.obs.length)
include ha hb

theorem execHtPut_bad_range (h : s.obLen a < ns + nl ∨ s.obLen b < vs + vl) :
    execHtPut a b ns nl vs vl s = fail s .obReadRange := by
  rw [execHtPut, withObs_of_lt ha hb]
  exact if_pos (by omega)

theorem execHtPut_in_range (hn : ns + nl ≤ s.obLen a) (hv : vs + vl ≤ s.obLen b) :
    execHtPut a b ns nl vs vl s =
      ok (s.setHt (evict (insertPair s.ht ⟨s.range a ns nl, s.range b vs vl⟩)))
        (evict (insertPair s.ht ⟨s.range a ns nl, s.range b vs vl⟩)).count
        (evict (insertPair s.ht ⟨s.range a ns nl, s.range b vs vl⟩)).size := by
  rw [execHtPut, withObs_of_lt ha hb]
  exact if_neg (by omega)

end put

theorem execHtUpdCap_too_large (h : s.cfg.htMaxCapacity < n) : execHtUpdCap n s = fail s .htCapRange := if_pos h

/-- Within the maximum HT.UPDCAP is an eviction at the new capacity, for 0 too (R235). -/
theorem execHtUpdCap_evicts (hht : s.ht.Inv s.cfg) (h : n ≤ s.cfg.htMaxCapacity) :
    execHtUpdCap n s = ok (s.setHt (evict { s.ht with capacity := n })) (evict { s.ht with capacity := n }).count
      (evict { s.ht with capacity := n }).size := by
  have hfast : (if n = 0 then emptyTable { s.ht with capacity := n } else evict { s.ht with capacity := n }) =
      evict { s.ht with capacity := n } :=
    ite_eq_right_iff.2 fun h0 =>
      (evict_eq_emptyTable (t := { s.ht with capacity := n }) hht.size_eq hht.count_eq h0).symm
  rw [execHtUpdCap, if_neg (Nat.not_lt.2 h)]
  exact congrArg (fun t => ok (s.setHt t) t.count t.size) hfast

/-- Settles O54: the eviction of the table with the pair in front (`evict_spec`); a pair that does not fit alone goes too. -/
theorem putInsertsInFrontAndEvictsTheOldest : Obligations.PutInsertsInFrontAndEvictsTheOldest := by
  intro s a b ns nl vs vl hht ha hb
  refine ⟨execHtPut_bad_range ha hb, fun hn hv => ?_⟩
  have hrun := execHtPut_in_range ha hb hn hv
  have hover : Pair.overhead ⟨s.range a ns nl, s.range b vs vl⟩ = 32 + nl + vl := by
    rw [Pair.overhead, State.range, State.range, readRange_length hn, readRange_length hv, Config.htEntryOverhead]
  obtain ⟨k, hk, he, hfit, hmax⟩ := evict_spec _ (insertPair_size hht.size_eq ⟨s.range a ns nl, s.range b vs vl⟩)
    (insertPair_count hht.count_eq _)
  rw [he] at hrun
  exact ⟨k, hk, hrun, hfit, hmax, fun hbig => eq_zero_of_newestSize_lt_overhead (hfit.trans_lt (hover ▸ hbig))⟩

/-- Settles O55: the eviction of the table at the new capacity (`evict_spec`). -/
theorem updCapEvictsOnlyWhatDoesNotFit : Obligations.UpdCapEvictsOnlyWhatDoesNotFit := by
  intro s n hht
  refine ⟨execHtUpdCap_too_large, fun hn => ?_⟩
  have hrun := execHtUpdCap_evicts hht hn
  obtain ⟨k, hk, he, hfit, hmax⟩ := evict_spec { s.ht with capacity := n } hht.size_eq hht.count_eq
  rw [he] at hrun
  refine ⟨k, hk, hrun, hfit, hmax, fun hall => ?_, fun h0 => ?_⟩
  · by_contra hne
    have hlt : n < newestSize s.ht.dyn s.ht.dyn.length := hmax _ (lt_of_le_of_ne hk hne) le_rfl
    rw [newestSize_length, ← hht.size_eq] at hlt
    exact hall.not_gt hlt
  · exact eq_zero_of_newestSize_eq_zero hk (Nat.le_zero.1 (hfit.trans h0.le))

/-- Settles O56: the one test of the command, either way. -/
theorem isFullComparesSizeWithCapacity : Obligations.IsFullComparesSizeWithCapacity := by
  intro s
  have hrun : exec .htIsFull s = ok s (if s.ht.capacity ≤ s.ht.size then 1 else 0) 0 := rfl
  refine ⟨fun hfull => ?_, fun hroom => ?_⟩
  · rw [hrun, if_pos hfull, ok_eq]
  · rw [hrun, if_neg (Nat.not_le.2 hroom), ok_eq]

end Sys2Proof.Machine
end

section
/-! PROOFS. SYS.RDCSR (`47_system.md` R265): the command completes with what `State.csr` answers, so the obligation is a statement of
which number is which register. -/

namespace Sys2Proof.Machine

variable {s : State} {reg : Octet} {a : ObSel}

/-! ## The table of R265 -/

/-- The numbers of the registers that have one each; the other assigned numbers, 0x40 and up, name an OctetBuffer's length. -/
def singleCsrs : List Octet := [0x00#8, 0x02#8, 0x10#8, 0x11#8, 0x20#8, 0x21#8, 0x30#8, 0x31#8, 0x32#8]

theorem singleCsrs_lt (h : reg ∈ singleCsrs) : reg.toNat < 0x40 := by
  have hall : ∀ r ∈ singleCsrs, r.toNat < 0x40 := by decide
  exact hall reg h

/-- Beside the single registers only the OctetBuffer lines of the table are left. -/
theorem State.csr_of_not_single (h : reg ∉ singleCsrs) :
    s.csr reg = if 0x40 ≤ reg.toNat then s.obs[reg.toNat - 0x40]?.map List.length else none := by
  simp only [singleCsrs, List.mem_cons, List.not_mem_nil, or_false, not_or] at h
  obtain ⟨h00, h02, h10, h11, h20, h21, h30, h31, h32⟩ := h
  rw [State.csr, if_neg h00, if_neg h02, if_neg h10, if_neg h11, if_neg h20, if_neg h21, if_neg h30, if_neg h31, if_neg h32]

/-- Register number 0x40 + a: no wrap, as a selector has four bits (R92). -/
theorem obCsr_toNat (a : ObSel) : (BitVec.ofNat 8 (0x40 + a.toNat)).toNat = 0x40 + a.toNat := by
  rw [BitVec.toNat_ofNat]
  have ha := a.isLt
  omega

theorem State.csr_ob (ha : a.toNat < s.obs.length) : s.csr (BitVec.ofNat 8 (0x40 + a.toNat)) = some (s.obLen a) := by
  have hnum := obCsr_toNat a
  have hsingle : BitVec.ofNat 8 (0x40 + a.toNat) ∉ singleCsrs := fun h => by
    have hlt := singleCsrs_lt h
    omega
  rw [State.csr_of_not_single hsingle, hnum, if_pos (Nat.le_add_right _ _), Nat.add_sub_cancel_left,
    List.getElem?_eq_getElem ha, Option.map_some, State.obLen, State.ob_eq_getElem ha]

/-- Below 0x40 no other number is assigned, and at 0x40 and above none without its OctetBuffer. -/
theorem State.csr_unassigned (hsingle : reg ∉ singleCsrs)
    (hob : ¬ (0x40 ≤ reg.toNat ∧ reg.toNat < 0x40 + s.obs.length)) : s.csr reg = none := by
  rw [State.csr_of_not_single hsingle]
  split
  · rw [List.getElem?_eq_none (by omega), Option.map_none]
  · rfl

/-! ## The command -/

theorem execSysRdcsr_assigned {v : Nat} (h : s.csr reg = some v) : execSysRdcsr reg s = ok s v 0 := by
  rw [execSysRdcsr, h]

theorem execSysRdcsr_unassigned (h : s.csr reg = none) : execSysRdcsr reg s = fail s .illegalCmd := by
  rw [execSysRdcsr, h]

/-- Settles O25: the table of R265 number by number; each single register's line is found by comparing the literals. -/
theorem rdcsrReadsTheNumberedRegisters : Obligations.RdcsrReadsTheNumberedRegisters := by
  intro s hobs _ reads
  have reads_of_csr {reg : Octet} {v : Nat} (h : s.csr reg = some v) : reads reg v := execSysRdcsr_assigned h
  refine ⟨reads_of_csr rfl, reads_of_csr rfl, reads_of_csr rfl, reads_of_csr rfl, reads_of_csr rfl, reads_of_csr rfl,
    reads_of_csr rfl, reads_of_csr rfl, reads_of_csr rfl, fun a ha => ?_, fun reg hsingle hob => ?_⟩
  · exact reads_of_csr (State.csr_ob (hobs ▸ ha))
  · exact execSysRdcsr_unassigned (State.csr_unassigned hsingle (hobs ▸ hob))

end Sys2Proof.Machine
end

section
/-! PROOFS. How a command ends (`60_exceptions.md` R281 to R287): always in a next state, with RC, the results and FAULT in
agreement; what that says of a whole run; and what a fault may leave changed. -/

namespace Sys2Proof.Machine

variable {i : Instr} {is js : List Instr} {s t : State} {a : ObSel} {c : Cause}

/-! ## Every command ends in a next state (R282, R331) -/

theorem SameButFault.exists_next {o o' : Host.Outcome State Fault Refusal} (h : SameButFault o o') :
    ∃ t, o = .next t := by
  cases h with
  | next t _ => exact ⟨t, rfl⟩

/-- `SameButFault.exec` includes that the command answers a next state; SYS.RDCSR 0, which it leaves out, completes with FAULT. -/
theorem exec_exists_next (i : Instr) (s : State) : ∃ t, exec i s = .next t := by
  by_cases hi : i = .sysRdcsr 0
  · exact ⟨s.done s.fault 0, hi ▸ rfl⟩
  · exact (SameButFault.exec s s.fault hi).exists_next

/-- Settles O14: a wait, a reset and a rejected packet answer at once, and a command does by `exec_exists_next`. -/
theorem everyStepAnswersANextState : Obligations.EveryStepAnswersANextState := by
  intro s
  unfold step
  split
  · exact ⟨_, rfl⟩
  · exact ⟨_, rfl⟩
  · split
    · exact ⟨_, rfl⟩
    · exact exec_exists_next _ _

/-! ## RC, the results and FAULT (R281, R282) -/

/-- Settles O15, by the two ways a command can end; a cause's code is from 1 to 17. -/
theorem completionCodeResultsAndFaultAgree : Obligations.CompletionCodeResultsAndFaultAgree := by
  intro i s t e
  rcases exec_next e with ⟨u, v, w, rfl, _, _, _, _, hfault⟩ | ⟨u, c, rfl, hcfg, _, _, _, hfault⟩
  · exact .inl ⟨rfl, hfault⟩
  · obtain ⟨h1, h17⟩ := c.code_range
    exact .inr ⟨c.code, h1, h17, rfl, rfl, rfl, by rw [State.raise_fault, faultWith, hcfg, hfault]⟩

/-! ## Runs of commands -/

theorem execAll_cons : execAll (i :: is) s = some t ↔ ∃ u, exec i s = .next u ∧ execAll is u = some t := by
  rw [execAll]
  cases exec i s <;> simp

theorem execAll_append : execAll (is ++ js) s = some t ↔ ∃ u, execAll is s = some u ∧ execAll js u = some t := by
  induction is generalizing s with
  | nil => simp [execAll]
  | cons i is ih =>
    simp only [List.cons_append, execAll_cons, ih]
    exact ⟨fun ⟨u, hi, v, his, hjs⟩ => ⟨v, ⟨u, hi, his⟩, hjs⟩,
      fun ⟨v, ⟨u, hi, his⟩, hjs⟩ => ⟨u, hi, v, his, hjs⟩⟩

/-- What every command keeps, a run keeps. -/
theorem execAll_keeps {P : State → Prop} (hP : ∀ {i s t}, exec i s = .next t → P s → P t)
    (e : execAll is s = some t) (h : P s) : P t := by
  induction is generalizing s with
  | nil => exact Option.some.inj e ▸ h
  | cons i is ih =>
    obtain ⟨u, hi, his⟩ := execAll_cons.1 e
    exact ih his (hP hi h)

theorem execAll_cfg (e : execAll is s = some t) : t.cfg = s.cfg :=
  execAll_keeps (P := fun u => u.cfg = s.cfg)
    (fun e h => (noCommandChangesTheConfigurationOrTheTrie _ _ _ e).1.trans h) e rfl

/-- A run clears no bit of FAULT, so one that ends with no fault recorded began so (R283). -/
theorem execAll_noFaultRecorded (e : execAll is s = some t) (h : t.noFaultRecorded) : s.noFaultRecorded := by
  by_contra hs
  obtain ⟨k, hk⟩ := Nat.exists_testBit_of_ne_zero hs
  have ht := execAll_keeps (P := fun u => u.fault.testBit k = true) (fun e h => exec_fault_testBit e h) e hk
  simp [show t.fault = 0 from h] at ht

/-- A FAULT register with room for every code records the fault of a command that did not complete. -/
theorem exec_rc_of_noFaultRecorded (hx : 18 ≤ s.cfg.xlen) (e : exec i s = .next t) (h : t.noFaultRecorded) : t.rc = 0 := by
  rcases completionCodeResultsAndFaultAgree i s t e with ⟨hrc, _⟩ | ⟨code, _, h17, _, _, _, hfault⟩
  · exact hrc
  · rw [if_pos (by omega)] at hfault
    exact absurd (Nat.or_eq_zero_iff.1 (hfault.symm.trans h)).2 (Nat.two_pow_pos code).ne'

/-- Settles O17: the run is cut at the command, whose own end records no fault as the run's end records none. -/
theorem noFaultRecordedMeansEveryCommandCompleted : Obligations.NoFaultRecordedMeansEveryCommandCompleted := by
  intro before after i s t hx e hnone
  obtain ⟨u, hbefore, hrest⟩ := execAll_append.1 e
  obtain ⟨v, hi, hafter⟩ := execAll_cons.1 hrest
  exact ⟨u, v, hbefore, hi,
    exec_rc_of_noFaultRecorded (execAll_cfg hbefore ▸ hx) hi (execAll_noFaultRecorded hafter hnone)⟩

/-! ## What a fault may leave changed (R287) -/

/-- The causes that never come with another change. -/
def Cause.changesNothing : Cause → Bool
  | .allocFail | .intDestExhausted | .huffOutExhausted => false
  | _ => true

/-- The commands that append a run of bits to the BitBuffer, of which a leading part stays when the rest has no room. -/
inductive AppendsRun : Instr → Prop
  | appendOct {v : Octet} : AppendsRun (.bbAppendOct v)
  | hcEncode {a : ObSel} {st n : Nat} : AppendsRun (.hcEncode a st n)
  | hcDecode {a b : ObSel} {st n d : Nat} : AppendsRun (.hcDecode a b st n d)

/-- The ways a command that faults can end: the lines of R287. -/
inductive FaultEnd (s : State) : Instr → State → Prop
  | unchanged {i : Instr} {c : Cause} (hc : c.changesNothing = true) : FaultEnd s i (s.raise c)
  | bitRefused {bit : Bool} : FaultEnd s (.bbAppendBit bit) (s.raise .allocFail)
  | runCut {i : Instr} {bb : BitBuffer} (hi : AppendsRun i) : FaultEnd s i ((s.setBb bb).raise .allocFail)
  | outputRefused {a b : ObSel} {st n d : Nat} {bb : BitBuffer} :
      FaultEnd s (.hcDecode a b st n d) ((s.setBb bb).raise .huffOutExhausted)
  | tailSpoiled {a : ObSel} {v : Nat} (ha : a.toNat < s.obs.length) :
      FaultEnd s (.icEncode a v) ((spoilTail a s).raise .intDestExhausted)

/-- Every command completes with OK or ends in one of the ways of R287. -/
theorem exec_ok_or_faultEnd (e : exec i s = .next t) : t.rc = 0 ∨ FaultEnd s i t := by
  cases i with
  | sysRdcsr reg =>
    rcases execSysRdcsr_next e with ⟨_, _, rfl⟩ | rfl
    exacts [.inl rfl, .inr (.unchanged rfl)]
  | bbAppendBit bit =>
    rcases execBbAppendBit_next e with ⟨_, _, rfl⟩ | rfl
    exacts [.inl rfl, .inr .bitRefused]
  | bbAppendOct v =>
    rcases execBbAppendOct_next e with ⟨_, ⟨_, rfl⟩ | ⟨_, rfl⟩⟩
    exacts [.inl rfl, .inr (.runCut .appendOct)]
  | bbAt pos =>
    rcases execBbAt_next e with ⟨_, rfl⟩ | rfl
    exacts [.inl rfl, .inr (.unchanged rfl)]
  | bbPut bit pos =>
    rcases execBbPut_next e with ⟨_, rfl⟩ | rfl
    exacts [.inl rfl, .inr (.unchanged rfl)]
  | bbLen => exact .inl (execBbLen_next e ▸ rfl)
  | bbClear => exact .inl (execBbClear_next e ▸ rfl)
  | obInit a n =>
    rcases execObInit_next e with ⟨_, _, rfl⟩ | ⟨_, rfl, rfl | rfl⟩
    exacts [.inl rfl, .inr (.unchanged rfl), .inr (.unchanged rfl)]
  | obSet a v n =>
    rcases execObSet_next e with ⟨_, _, rfl⟩ | ⟨_, rfl⟩ | rfl
    exacts [.inl rfl, .inl rfl, .inr (.unchanged rfl)]
  | obGet a n =>
    rcases execObGet_next e with ⟨_, _, rfl⟩ | ⟨_, rfl, rfl | rfl⟩
    exacts [.inl rfl, .inr (.unchanged rfl), .inr (.unchanged rfl)]
  | obLen a =>
    rcases execObLen_next e with ⟨_, rfl⟩ | rfl
    exacts [.inl rfl, .inr (.unchanged rfl)]
  | obLoadBits a =>
    rcases execObLoadBits_next e with ⟨_, _, rfl⟩ | ⟨_, _, rfl⟩ | ⟨_, rfl, rfl | rfl⟩
    exacts [.inl rfl, .inl rfl, .inr (.unchanged rfl), .inr (.unchanged rfl)]
  | obCopy a b =>
    rcases execObCopy_next e with ⟨_, _, rfl⟩ | rfl
    exacts [.inl rfl, .inr (.unchanged rfl)]
  | icSetPrefix w =>
    rcases execIcSetPrefix_next e with ⟨_, rfl⟩ | rfl
    exacts [.inl rfl, .inr (.unchanged rfl)]
  | icSetOffset o => exact .inl (execIcSetOffset_next e ▸ rfl)
  | icEncode a v =>
    rcases execIcEncode_next e with ⟨_, _, _, rfl⟩ | ⟨ha, _, _, rfl⟩ | ⟨_, rfl, rfl | rfl⟩
    exacts [.inl rfl, .inr (.tailSpoiled ha), .inr (.unchanged rfl), .inr (.unchanged rfl)]
  | icDecode a =>
    rcases execIcDecode_next e with ⟨_, _, _, _, _, rfl⟩ | ⟨_, rfl, rfl | rfl | rfl | rfl | rfl⟩
    exacts [.inl rfl, .inr (.unchanged rfl), .inr (.unchanged rfl), .inr (.unchanged rfl), .inr (.unchanged rfl),
      .inr (.unchanged rfl)]
  | icReset => exact .inl (execIcReset_next e ▸ rfl)
  | hcEncode a st n =>
    rcases execHcEncode_next e with ⟨_, _, rfl⟩ | ⟨_, _, rfl⟩ | ⟨_, rfl, rfl | rfl | rfl⟩
    exacts [.inl rfl, .inr (.runCut .hcEncode), .inr (.unchanged rfl), .inr (.unchanged rfl), .inr (.unchanged rfl)]
  | hcDecode a b st n d =>
    rcases execHcDecode_next e with ⟨_, _, _, _, rfl⟩ | ⟨_, _, _, _, rfl, rfl | rfl⟩ | ⟨_, rfl, rfl | rfl | rfl⟩
    exacts [.inl rfl, .inr (.runCut .hcDecode), .inr .outputRefused, .inr (.unchanged rfl), .inr (.unchanged rfl),
      .inr (.unchanged rfl)]
  | htGet a b u =>
    rcases execHtGet_next e with ⟨_, _, _, _, _, _, _, rfl⟩ | ⟨_, rfl, rfl | rfl | rfl⟩
    exacts [.inl rfl, .inr (.unchanged rfl), .inr (.unchanged rfl), .inr (.unchanged rfl)]
  | htPut a b ns nl vs vl =>
    rcases execHtPut_next e with ⟨_, _, rfl⟩ | ⟨_, rfl, rfl | rfl⟩
    exacts [.inl rfl, .inr (.unchanged rfl), .inr (.unchanged rfl)]
  | htUpdCap n =>
    rcases execHtUpdCap_next e with ⟨_, _, rfl, _⟩ | rfl
    exacts [.inl rfl, .inr (.unchanged rfl)]
  | htIsFull => exact .inl (execHtIsFull_next e ▸ rfl)

theorem Cause.rc_of_changesNothing (h : c.changesNothing = true) : c.rc ≠ 2#8 ∧ c.rc ≠ 7#8 ∧ c.rc ≠ 14#8 := by
  revert h
  cases c <;> decide

/-- A spoiled tail begins at the cursor: the octets before it stay (R164). -/
theorem spoilTail_octet (ha : a.toNat < s.obs.length) {k : Nat} (hk : k < s.ic.offset) :
    (spoilTail a s).octet a k = s.octet a k := by
  have hob : (spoilTail a s).ob a =
      (s.ob a).take s.ic.offset ++ freeRun s.freeCtr ((s.ob a).length - s.ic.offset) :=
    State.setOb_ob_self s a _ (State.hasOb_iff.2 ha)
  rw [State.octet, State.octet, hob]
  rcases Nat.lt_or_ge k (s.ob a).length with hlen | hlen
  · exact spoilTail_getElem?_of_lt _ _ _ hk hlen
  · rw [List.getElem?_eq_none hlen, List.getElem?_eq_none ((spoilTail_length _ _ _).trans_le hlen)]

/-- Settles O19, by the ways a faulting command can end; in each, the code says which clauses are about it. -/
theorem faultingCommandsChangeOnlyWhatIsListed : Obligations.FaultingCommandsChangeOnlyWhatIsListed := by
  intro i s t e hrc
  rcases exec_ok_or_faultEnd e with hok | hend
  · exact absurd hok hrc
  cases hend with
  | unchanged hc =>
    obtain ⟨h2, h7, h14⟩ := Cause.rc_of_changesNothing hc
    exact ⟨rfl, rfl, fun _ => ⟨rfl, rfl⟩, fun _ _ => rfl, fun h => absurd h h2, fun h => absurd h h14,
      fun h => absurd h h7⟩
  | bitRefused =>
    exact ⟨rfl, rfl, fun _ => ⟨rfl, rfl⟩, fun _ _ => rfl, fun _ _ _ _ => ⟨_, rfl, rfl⟩, nofun, nofun⟩
  | runCut hi =>
    refine ⟨rfl, rfl, fun _ => ⟨rfl, rfl⟩, fun h => absurd rfl h, fun _ hoct henc hdec => ?_, nofun, nofun⟩
    cases hi with
    | appendOct => exact absurd rfl (hoct _)
    | hcEncode => exact absurd rfl (henc _ _ _)
    | hcDecode => exact absurd rfl (hdec _ _ _ _ _)
  | outputRefused =>
    exact ⟨rfl, rfl, fun _ => ⟨rfl, rfl⟩, fun _ h => absurd rfl h, nofun, fun _ => ⟨_, _, _, _, _, rfl⟩, nofun⟩
  | tailSpoiled ha =>
    exact ⟨rfl, rfl, fun h => absurd rfl h, fun _ _ => rfl, nofun, nofun, fun _ => ⟨_, _, rfl, List.length_set,
      fun _ hb => State.setOb_ob_other _ _ _ _ hb.symm, spoilTail_obLen, fun _ hk => spoilTail_octet ha hk⟩⟩

end Sys2Proof.Machine
end

section
/-! PROOFS. The two inputs of the step that are no packet (`70_reset_and_hazards.md` R320, R321): nothing presented, and a reset. -/

namespace Sys2Proof.Machine

theorem State.nextInput_eq_none_iff {s : State} : s.nextInput = none ↔ s.stream.length ≤ s.index :=
  List.getElem?_eq_none_iff

theorem step_of_nextInput_none {s : State} (h : s.nextInput = none) : step s = .next s := by
  simp only [step, h]

theorem step_of_nextInput_reset {s : State} (h : s.nextInput = some .reset) : step s = .next s.advance.applyReset := by
  simp only [step, h]

/-- Settles O9: behind the end of the stream there is no next input. -/
theorem waitingChangesNothing : Obligations.WaitingChangesNothing := by
  intro s hlen
  exact step_of_nextInput_none (State.nextInput_eq_none_iff.mpr hlen)

/-- Settles O11: what the reset keeps of the state with the index advanced is the configuration, the count of free values, the
stream and that index. -/
theorem resetInputRestoresTheResetState : Obligations.ResetInputRestoresTheResetState := by
  intro s hreset
  exact step_of_nextInput_reset hreset

end Sys2Proof.Machine
end
